-- ==== Sys2Proof/Word.lean ====
section
/-! DEFINITION. The word, byte and register-index types of the CORE (spec/00_scope.md R7, R9, R11). -/

namespace Sys2Proof

/-- A Word: a 16-bit value whose arithmetic wraps modulo 2^16 (R9).  It is also the addressable unit of
memory and the whole of an instruction (R51, R80). -/
abbrev Word := BitVec 16

/-- A byte: a console character (R15, R52) or a trap vector (R17). -/
abbrev Byte := BitVec 8

/-- The index of a general register, a 3-bit field of an instruction, so always in range (R11, R21). -/
abbrev RegIdx := BitVec 3

end Sys2Proof
end

