-- ==== Sys2Proof/Syntax.lean ====
section
/-! DEFINITION. The instructions: one constructor for each row of spec/opcode_table.json (R94), its operands the
row's fields, unextended. -/

namespace Sys2Proof

/-- One constructor per row of the opcode table.  Operands are the raw fields of R82; sign extension belongs to the
meaning (R85).  Bits that the CORE ignores (R88) are no operands, except for RTI and opcode 1101, whose whole word is
reported by the error they raise (R210, R212). -/
inductive Instr where
  /-- BR, conditional branch: the condition bits n, z, p and PCoffset9 (R160) -/
  | br (n z p : Bool) (off : BitVec 9)
  /-- ADD, register mode (R110) -/
  | addR (dr sr1 sr2 : RegIdx)
  /-- ADD, immediate mode (R111) -/
  | addI (dr sr1 : RegIdx) (imm : BitVec 5)
  /-- LD, load PC-relative (R132) -/
  | ld (dr : RegIdx) (off : BitVec 9)
  /-- ST, store PC-relative (R138) -/
  | st (sr : RegIdx) (off : BitVec 9)
  /-- JSR, subroutine call PC-relative (R164) -/
  | jsr (off : BitVec 11)
  /-- JSRR, subroutine call through a register (R166) -/
  | jsrr (base : RegIdx)
  /-- AND, register mode (R114) -/
  | andR (dr sr1 sr2 : RegIdx)
  /-- AND, immediate mode (R115) -/
  | andI (dr sr1 : RegIdx) (imm : BitVec 5)
  /-- LDR, load base + offset (R136) -/
  | ldr (dr base : RegIdx) (off : BitVec 6)
  /-- STR, store base + offset (R142) -/
  | str (sr base : RegIdx) (off : BitVec 6)
  /-- RTI, with the bits 11..0 that its error reports (R210) -/
  | rti (low : BitVec 12)
  /-- NOT, bitwise complement (R118) -/
  | not (dr sr : RegIdx)
  /-- LDI, load indirect (R134) -/
  | ldi (dr : RegIdx) (off : BitVec 9)
  /-- STI, store indirect (R140) -/
  | sti (sr : RegIdx) (off : BitVec 9)
  /-- JMP, jump through a register (R162) -/
  | jmp (base : RegIdx)
  /-- the reserved opcode 1101, with the bits 11..0 that its error reports (R212) -/
  | reserved (low : BitVec 12)
  /-- LEA, load effective address (R130) -/
  | lea (dr : RegIdx) (off : BitVec 9)
  /-- TRAP, service call by its 8-bit vector (R180) -/
  | trap (vect : Byte)
  /-- GETC, the row of TRAP x20 (R183) -/
  | getc
  /-- OUT, the row of TRAP x21 (R184) -/
  | out
  /-- PUTS, the row of TRAP x22 (R185) -/
  | puts
  /-- IN, the row of TRAP x23 (R187) -/
  | inp
  /-- PUTSP, the row of TRAP x24 (R188) -/
  | putsp
  /-- HALT, the row of TRAP x25 (R191) -/
  | halt
  /-- RET, the row of JMP R7 (R163) -/
  | ret
deriving DecidableEq, Repr

end Sys2Proof
end

