-- ==== Sys2Proof/WellFormed.lean ====
section
/-! DEFINITION. Which instructions are the decoding of a word.  The fields' widths are in their types; what is left
to check is that a word with a row of its own (the six trap names, RET) is not written as its base instruction. -/

namespace Sys2Proof

/-- The six vectors that have a service routine (R181), which are the rows GETC to HALT of the opcode table. -/
def definedVector (v : Byte) : Bool := decide (0x20#8 ≤ v) && decide (v ≤ 0x25#8)

/-- An instruction is well formed when some word decodes to it: TRAP with a defined vector is that vector's own row,
and JMP R7 is the row RET (R93, R94).  Every other instruction is well formed with every operand (R86, R87). -/
def Instr.wf : Instr → Bool
  | .jmp base => base != 7#3
  | .trap vect => !definedVector vect
  | .br .. | .addR .. | .addI .. | .ld .. | .st .. | .jsr .. | .jsrr .. | .andR .. | .andI .. | .ldr .. | .str ..
  | .rti .. | .not .. | .ldi .. | .sti .. | .reserved .. | .lea .. => true
  | .getc | .out | .puts | .inp | .putsp | .halt | .ret => true

end Sys2Proof
end

