-- ==== Sys2Proof/Decode.lean ====
section
/-! DEFINITION. The decoder (R87), the encoder, and the opcode table's rows (R94, spec/opcode_table.json). -/

namespace Sys2Proof

/-- Trap words (opcode 1111) by their vector, bits 7..0: the six named rows (R93), every other vector TRAP. -/
def decodeTrap (vect : Byte) : Instr :=
  if vect = 0x20#8 then .getc
  else if vect = 0x21#8 then .out
  else if vect = 0x22#8 then .puts
  else if vect = 0x23#8 then .inp
  else if vect = 0x24#8 then .putsp
  else if vect = 0x25#8 then .halt
  else .trap vect

/-- Jump words (opcode 1100) by BaseR: R7 is the row RET (R93, R163). -/
def decodeJump (base : RegIdx) : Instr := if base = 7#3 then .ret else .jmp base

/-- The decoder: a total function from Word to instruction; it rejects no word (R87).  `w.extractLsb hi lo` is the
field w[hi:lo] of R8.  The opcode numbers are R81's. -/
def decode (w : Word) : Instr :=
  match w.extractLsb 15 12 with
  | 0b0000#4 => .br (w.getLsbD 11) (w.getLsbD 10) (w.getLsbD 9) (w.extractLsb 8 0)
  | 0b0001#4 =>
    if w.getLsbD 5 then .addI (w.extractLsb 11 9) (w.extractLsb 8 6) (w.extractLsb 4 0)
    else .addR (w.extractLsb 11 9) (w.extractLsb 8 6) (w.extractLsb 2 0)
  | 0b0010#4 => .ld (w.extractLsb 11 9) (w.extractLsb 8 0)
  | 0b0011#4 => .st (w.extractLsb 11 9) (w.extractLsb 8 0)
  | 0b0100#4 => if w.getLsbD 11 then .jsr (w.extractLsb 10 0) else .jsrr (w.extractLsb 8 6)
  | 0b0101#4 =>
    if w.getLsbD 5 then .andI (w.extractLsb 11 9) (w.extractLsb 8 6) (w.extractLsb 4 0)
    else .andR (w.extractLsb 11 9) (w.extractLsb 8 6) (w.extractLsb 2 0)
  | 0b0110#4 => .ldr (w.extractLsb 11 9) (w.extractLsb 8 6) (w.extractLsb 5 0)
  | 0b0111#4 => .str (w.extractLsb 11 9) (w.extractLsb 8 6) (w.extractLsb 5 0)
  | 0b1000#4 => .rti (w.extractLsb 11 0)
  | 0b1001#4 => .not (w.extractLsb 11 9) (w.extractLsb 8 6)
  | 0b1010#4 => .ldi (w.extractLsb 11 9) (w.extractLsb 8 0)
  | 0b1011#4 => .sti (w.extractLsb 11 9) (w.extractLsb 8 0)
  | 0b1100#4 => decodeJump (w.extractLsb 8 6)
  | 0b1101#4 => .reserved (w.extractLsb 11 0)
  | 0b1110#4 => .lea (w.extractLsb 11 9) (w.extractLsb 8 0)
  | _ => decodeTrap (w.extractLsb 7 0)

/-- Why a byte string is not read as an instruction.  The spec's decoder rejects no Word (R87); only a string too
short to hold one is rejected. -/
inductive Reject where
  /-- fewer than the two bytes of one Word (R80) -/
  | truncated
deriving DecidableEq, Repr

/-- The decoder on bytes in image order, the high byte of a Word first (R52, R252): total, with the bytes left over. -/
def decodeBytes : List Byte → Except Reject (Instr × List Byte)
  | hi :: lo :: rest => .ok (decode (hi ++ lo), rest)
  | _ => .error .truncated

/-- The host's question: what the decoder reads from the instruction whose bits are `w`.  Every row of the table has
one 16-bit Word (R80), so `nbits` only limits which bits of `w` are given. -/
def decodeTableWord (nbits w : Nat) : Option Instr :=
  match decodeBytes [(BitVec.ofNat 16 (w % 2 ^ nbits)).extractLsb 15 8, (BitVec.ofNat 16 (w % 2 ^ nbits)).extractLsb 7 0] with
  | .ok (i, _) => some i
  | .error _ => none

/-- The word of an instruction, from the formats of R82 and the numbers of R81 and R93.  Ignored bits (R88) are
written 0, except NOT's bits 5..0, written 111111 as its conventional encoding has them (R118). -/
def encode : Instr → Word
  | .br n z p off => 0b0000#4 ++ BitVec.ofBool n ++ BitVec.ofBool z ++ BitVec.ofBool p ++ off
  | .addR dr sr1 sr2 => 0b0001#4 ++ dr ++ sr1 ++ 0b000#3 ++ sr2
  | .addI dr sr1 imm => 0b0001#4 ++ dr ++ sr1 ++ 0b1#1 ++ imm
  | .ld dr off => 0b0010#4 ++ dr ++ off
  | .st sr off => 0b0011#4 ++ sr ++ off
  | .jsr off => 0b01001#5 ++ off
  | .jsrr base => 0b0100000#7 ++ base ++ 0b000000#6
  | .andR dr sr1 sr2 => 0b0101#4 ++ dr ++ sr1 ++ 0b000#3 ++ sr2
  | .andI dr sr1 imm => 0b0101#4 ++ dr ++ sr1 ++ 0b1#1 ++ imm
  | .ldr dr base off => 0b0110#4 ++ dr ++ base ++ off
  | .str sr base off => 0b0111#4 ++ sr ++ base ++ off
  | .rti low => 0b1000#4 ++ low
  | .not dr sr => 0b1001#4 ++ dr ++ sr ++ 0b111111#6
  | .ldi dr off => 0b1010#4 ++ dr ++ off
  | .sti sr off => 0b1011#4 ++ sr ++ off
  | .jmp base => 0b1100000#7 ++ base ++ 0b000000#6
  | .reserved low => 0b1101#4 ++ low
  | .lea dr off => 0b1110#4 ++ dr ++ off
  | .trap vect => 0b11110000#8 ++ vect
  | .getc => 0xF020#16
  | .out => 0xF021#16
  | .puts => 0xF022#16
  | .inp => 0xF023#16
  | .putsp => 0xF024#16
  | .halt => 0xF025#16
  | .ret => 0xC1C0#16

/-- A row of spec/opcode_table.json: a word `w` matches when `w &&& mask = pattern` (R94). -/
structure Row where
  pattern : Word
  mask : Word
deriving DecidableEq, Repr

/-- Whether a word matches a row (R94). -/
def Row.holds (r : Row) (w : Word) : Bool := w &&& r.mask == r.pattern

/-- The row of the opcode table an instruction stands for ("match" and "mask" of the table). -/
def Instr.row : Instr → Row
  | .br .. => ⟨0x0000, 0xF000⟩
  | .addR .. => ⟨0x1000, 0xF020⟩
  | .addI .. => ⟨0x1020, 0xF020⟩
  | .ld .. => ⟨0x2000, 0xF000⟩
  | .st .. => ⟨0x3000, 0xF000⟩
  | .jsr .. => ⟨0x4800, 0xF800⟩
  | .jsrr .. => ⟨0x4000, 0xF800⟩
  | .andR .. => ⟨0x5000, 0xF020⟩
  | .andI .. => ⟨0x5020, 0xF020⟩
  | .ldr .. => ⟨0x6000, 0xF000⟩
  | .str .. => ⟨0x7000, 0xF000⟩
  | .rti .. => ⟨0x8000, 0xF000⟩
  | .not .. => ⟨0x9000, 0xF000⟩
  | .ldi .. => ⟨0xA000, 0xF000⟩
  | .sti .. => ⟨0xB000, 0xF000⟩
  | .jmp .. => ⟨0xC000, 0xF000⟩
  | .reserved .. => ⟨0xD000, 0xF000⟩
  | .lea .. => ⟨0xE000, 0xF000⟩
  | .trap .. => ⟨0xF000, 0xF000⟩
  | .getc => ⟨0xF020, 0xF0FF⟩
  | .out => ⟨0xF021, 0xF0FF⟩
  | .puts => ⟨0xF022, 0xF0FF⟩
  | .inp => ⟨0xF023, 0xF0FF⟩
  | .putsp => ⟨0xF024, 0xF0FF⟩
  | .halt => ⟨0xF025, 0xF0FF⟩
  | .ret => ⟨0xC1C0, 0xF1C0⟩

/-- The base rows of the table, those that are no alias of another (R94). -/
def baseRows : List Row :=
  [⟨0x0000, 0xF000⟩, ⟨0x1000, 0xF020⟩, ⟨0x1020, 0xF020⟩, ⟨0x2000, 0xF000⟩, ⟨0x3000, 0xF000⟩, ⟨0x4800, 0xF800⟩,
   ⟨0x4000, 0xF800⟩, ⟨0x5000, 0xF020⟩, ⟨0x5020, 0xF020⟩, ⟨0x6000, 0xF000⟩, ⟨0x7000, 0xF000⟩, ⟨0x8000, 0xF000⟩,
   ⟨0x9000, 0xF000⟩] ++
  [⟨0xA000, 0xF000⟩, ⟨0xB000, 0xF000⟩, ⟨0xC000, 0xF000⟩, ⟨0xD000, 0xF000⟩, ⟨0xE000, 0xF000⟩, ⟨0xF000, 0xF000⟩]

/-- The bits of a word that have no effect on what it does (R88), by its opcode and mode bits. -/
def ignoredBits (w : Word) : Word :=
  match w.extractLsb 15 12 with
  | 0b0001#4 => if w.getLsbD 5 then 0x0000 else 0x0018
  | 0b0101#4 => if w.getLsbD 5 then 0x0000 else 0x0018
  | 0b0100#4 => if w.getLsbD 11 then 0x0000 else 0x063F
  | 0b1000#4 => 0x0FFF#16
  | 0b1001#4 => 0x003F#16
  | 0b1100#4 => 0x0E3F#16
  | 0b1101#4 => 0x0FFF#16
  | 0b1111#4 => 0x0F00#16
  | _ => 0x0000#16

end Sys2Proof
end

