-- ==== Sys2Proof/Config.lean ====
section
/-! DEFINITION. The implementation parameters of spec/00_scope.md R7: the values the spec decides, as constants,
and the values it leaves OPEN, as the fields of `Params`. -/

namespace Sys2Proof

/-- RESET_PC (R7, R250; decision D9): the PC at creation, whatever the image's origin. -/
def Config.resetPc : Word := 0x3000#16

/-- KB_READY_VALUE (R7, R55; decision D3): what a poll that finds a key writes to the status cell. -/
def Config.kbReadyValue : Word := 0x8000#16

/-- KB_NOT_READY_VALUE (R7, R55; decision D3): what a poll that finds no key writes to the status cell. -/
def Config.kbNotReadyValue : Word := 0x0000#16

/-- MEM_WORDS (R7, R35): the number of Words of memory. -/
def Config.memWords : Nat := 65536

/-- PUTSP_MODE (R7, decision D18): the two readings of the source's sentence about PUTSP. -/
inductive PutspMode where
  /-- stop at the first zero byte (R188), the spec's choice -/
  | literal
  /-- stop at a zero Word and skip a zero high byte (R189) -/
  | wordwise
deriving DecidableEq, Repr

/-- The OPEN parameters of R7.  "A value marked OPEN is an argument of the model": they are carried by the state
(`State.params`), no step changes them, and a statement about every state holds for every instantiation.
POLL_TRIGGER is a subset of the two mapped addresses (D2), held as one Bool for each. -/
structure Params where
  /-- KBSR_ADDR (R54, D1) -/
  kbsrAddr : Word
  /-- KBDR_ADDR (R54, D1) -/
  kbdrAddr : Word
  /-- KBSR_ADDR is in POLL_TRIGGER (R55, D2) -/
  pollOnKbsr : Bool
  /-- KBDR_ADDR is in POLL_TRIGGER (R55, D2) -/
  pollOnKbdr : Bool
  /-- IN_PROMPT, a byte string, possibly empty (R187, D16) -/
  inPrompt : List Byte
  /-- TRAP_INPUT_SETS_COND (R190, D15) -/
  trapInputSetsCond : Bool
  /-- PUTSP_MODE (R188, R189, D18) -/
  putspMode : PutspMode
deriving DecidableEq, Repr

/-- The one constraint the spec puts on the OPEN parameters: KBSR_ADDR differs from KBDR_ADDR (R54). -/
def Params.wf (p : Params) : Bool := p.kbsrAddr != p.kbdrAddr

/-- The instantiation the spec recommends or chooses: the conventional addresses (D1), the source's trigger set
{KBDR_ADDR} (D2), no COND from GETC and IN (D15), LITERAL PUTSP (D18), and the empty prompt that
spec/95_test_vectors.md section 0 uses.  DESIGN CHOICE (notes/assumptions/1.md): only `State.reset` uses it. -/
def Params.recommended : Params where
  kbsrAddr := 0xFE00#16
  kbdrAddr := 0xFE02#16
  pollOnKbsr := false
  pollOnKbdr := true
  inPrompt := []
  trapInputSetsCond := false
  putspMode := .literal

end Sys2Proof
end

