-- ==== Sys2Proof/Machine/State.lean ====
section
/-! DEFINITION. The state of the machine as plain data: the architectural tuple of spec/10_state.md R20, the console
outside the CORE (R37), a routine in progress (R194, R236) and the OPEN parameters (spec/00_scope.md R7). -/

namespace Sys2Proof.Machine

/-- COND, exactly one of NEGATIVE, ZERO and POSITIVE (R31). -/
inductive Cond where
  | N
  | Z
  | P
deriving DecidableEq, Repr

/-- The general registers R0..R7, each one Word; none is hardwired and none aliases another (R21). -/
structure Regs where
  r0 : Word
  r1 : Word
  r2 : Word
  r3 : Word
  r4 : Word
  r5 : Word
  r6 : Word
  r7 : Word
deriving DecidableEq, Repr

/-- Memory as the list of its cells that are not 0x0000, addresses strictly rising.  The unit is the 16-bit Word:
"no byte addressing exists" (R7, R51), so a cell holds a Word and its key is a Word address (notes/assumptions/6.md).
A cell not listed reads 0x0000, the reset contents (R35). -/
abbrev Memory := List (Nat × Word)

/-- The console primitives (R15), as a `DeviceError` names them (R220). -/
inductive DevOp where
  | pollReady
  | readChar
  | writeChar
  | flush
deriving DecidableEq, Repr

/-- The fatal execution errors `ExecError`, exactly three, with the info each records (R220). -/
inductive ExecError where
  | badOpcode (pc instr : Word)
  | badTrap (pc : Word) (vector : Byte)
  | deviceError (pc : Word) (op : DevOp)
deriving DecidableEq, Repr

/-- A draw of `DevPollReady()`: whether a key has arrived, or the operation fails (R37, R224, R261). -/
inductive PollAnswer where
  | ready
  | notReady
  | fails
deriving DecidableEq, Repr

/-- A draw of `DevWriteChar` or `DevFlush`: it succeeds or it fails (R224, decision D20). -/
inductive DevAnswer where
  | ok
  | fails
deriving DecidableEq, Repr

/-- The answers an external agent will give to one kind of request: those in `pending`, in order, and `rest` to every
request after them.  DESIGN CHOICE (notes/assumptions/3.md): the spec puts no law on these draws (R37, R261), and this
form, like the finite `Console.input`, holds only the sequences that are constant from some point on.  Every finite
sequence of answers is some value of it, but not every infinite one: a claim about all steps of a run has to let the
host's moves draw new answers on the way (`runIn`). -/
structure Draws (α : Type) where
  pending : List α
  rest : α
deriving DecidableEq, Repr

/-- One mark of the console's output sink: "a byte sequence and flush marks" (R37). -/
inductive OutEvent where
  | char (b : Byte)
  | flushed
deriving DecidableEq, Repr

/-- The console, the one external agent (R37, decision D26). -/
structure Console where
  /-- the console's input bytes not yet consumed, in order; the poll and GETC and IN share them (R183, D26) -/
  input : List Byte
  /-- nothing comes after `input` and a read past it fails ("input stream closed", R224); where it is false a read
  past it waits for the host to deliver a byte (R194) -/
  inputClosed : Bool
  /-- the answers of `DevPollReady()` still to come -/
  polls : Draws PollAnswer
  /-- the answers of `DevWriteChar` still to come -/
  writes : Draws DevAnswer
  /-- the answers of `DevFlush` still to come -/
  flushes : Draws DevAnswer
  /-- the output trace, oldest first (R37, R69) -/
  output : List OutEvent
deriving DecidableEq, Repr

/-- A service routine whose step has not returned: GETC and IN wait for a byte (R194, R236), PUTS and PUTSP have read
every address once without a terminator and go on at the pointer (R186).  The model's own field: it cuts the spec's
one long step into several of the model's (notes/assumptions/4.md). -/
inductive Held where
  | getc
  | inp
  | puts (p : Word)
  | putsp (p : Word)
deriving DecidableEq, Repr

/-- The state: `(R[0..7], PC, COND, M[0..65535], RUNNING, FAULT)` (R20), then what is not architectural. -/
structure State where
  /-- R0..R7 (R21) -/
  regs : Regs
  /-- PC (R24) -/
  pc : Word
  /-- COND (R31) -/
  cond : Cond
  /-- M, the mapped keyboard cells among its cells (R35, R36) -/
  mem : Memory
  /-- RUNNING (R33) -/
  running : Bool
  /-- FAULT: none, or the first fatal execution error (R34) -/
  fault : Option ExecError
  /-- a service routine whose step still holds (R194, R236) -/
  held : Option Held
  /-- the console outside the CORE (R37) -/
  console : Console
  /-- the OPEN parameters (R7), which no step changes -/
  params : Params
deriving DecidableEq, Repr

/-- Why a step has no next state. -/
inductive Fault where
  /-- raised by `step` alone, on a state whose FAULT is set: "a state with FAULT set has no further step" (R226).
  Safe: the spec gives such a state no successor. -/
  | afterError (e : ExecError)
deriving DecidableEq, Repr

/-- Why an instruction is refused. -/
inductive Refusal where
  /-- raised only by an arm of `exec` whose instruction has no meaning yet; no arm is such a one.  Safe. -/
  | notModelled (mnemonic : String)
deriving DecidableEq, Repr

/-- A console that delivers nothing, finds no key and accepts every output.  DESIGN CHOICE
(notes/assumptions/3.md): only `State.reset` uses it. -/
def Console.quiet : Console where
  input := []
  inputClosed := false
  polls := ⟨[], .notReady⟩
  writes := ⟨[], .ok⟩
  flushes := ⟨[], .ok⟩
  output := []

/-- The state at creation (R250) for any parameters, any draw RESET_GPR of the registers (R23), any RESET_COND (R31)
and any console. -/
def State.created (params : Params) (gpr : Regs) (cond : Cond) (console : Console) : State where
  regs := gpr
  pc := Config.resetPc
  cond := cond
  mem := []
  running := false
  fault := none
  held := none
  console := console
  params := params

/-- The machine right after reset: creation (R250), before any image is loaded, so RUNNING is false (D24).  R0..R7 = 0
and COND = Z are DESIGN CHOICES, the values of spec/95_test_vectors.md section 0, since the spec states none
(notes/assumptions/2.md). -/
def State.reset : State := State.created Params.recommended ⟨0, 0, 0, 0, 0, 0, 0, 0⟩ .Z Console.quiet

end Sys2Proof.Machine
end

