-- ==== Sys2Proof/Machine/Operands.lean ====
section
/-! DEFINITION. Operand forms: extension of fields, bytes of a Word, reading and writing registers, and the three
effective addresses (spec/00_scope.md R10, spec/30_encoding.md R85, spec/41_load_store.md R131, R133, R135). -/

namespace Sys2Proof.Machine

/-- `sext_16` (R10): bit N-1 of an N-bit field fills all higher bits. -/
def sext16 {n : Nat} (f : BitVec n) : Word := f.signExtend 16

/-- `zext_16` of a byte (R10): `0x00:b`. -/
def zext16 (b : Byte) : Word := 0x00#8 ++ b

/-- w[7:0], the character of a Word (R52). -/
def lowByte (w : Word) : Byte := w.extractLsb 7 0

/-- w[15:8], the second character of a PUTSP Word (R52). -/
def highByte (w : Word) : Byte := w.extractLsb 15 8

/-- R[i] of a register file (R11). -/
def Regs.get (r : Regs) (i : RegIdx) : Word :=
  match i with
  | 0#3 => r.r0
  | 1#3 => r.r1
  | 2#3 => r.r2
  | 3#3 => r.r3
  | 4#3 => r.r4
  | 5#3 => r.r5
  | 6#3 => r.r6
  | _ => r.r7

/-- `R[i] <- v` of a register file (R11). -/
def Regs.set (r : Regs) (i : RegIdx) (v : Word) : Regs :=
  match i with
  | 0#3 => { r with r0 := v }
  | 1#3 => { r with r1 := v }
  | 2#3 => { r with r2 := v }
  | 3#3 => { r with r3 := v }
  | 4#3 => { r with r4 := v }
  | 5#3 => { r with r5 := v }
  | 6#3 => { r with r6 := v }
  | _ => { r with r7 := v }

/-- R[i] (R11, R21). -/
def State.reg (s : State) (i : RegIdx) : Word := s.regs.get i

/-- `R[i] <- v` (R11, R21). -/
def State.setReg (s : State) (i : RegIdx) (v : Word) : State := { s with regs := s.regs.set i v }

/-- `PC <- v` (R11). -/
def State.setPc (s : State) (v : Word) : State := { s with pc := v }

/-- EA_pc (R131) and the targets of BR and JSR (R160, R164): the incremented PC plus a sign-extended offset, modulo
2^16.  While an instruction executes, PC already is the incremented one (R24). -/
def State.eaPc {n : Nat} (s : State) (off : BitVec n) : Word := s.pc + sext16 off

/-- EA_base (R135): a base register plus the sign-extended offset6, modulo 2^16. -/
def State.eaBase (s : State) (base : RegIdx) (off : BitVec 6) : Word := s.reg base + sext16 off

/-- The address of the instruction being executed: while it executes, PC holds that address plus 1 (R24). -/
def State.instrAddr (s : State) : Word := s.pc - 1#16

end Sys2Proof.Machine
end

