-- ==== Sys2Proof/Machine/Flags.lean ====
section
/-! DEFINITION. The condition flags: SetCC and what BR reads of them (spec/10_state.md R27, R30,
spec/42_control.md R160). -/

namespace Sys2Proof.Machine

/-- The value SetCC(v) gives COND: N if the high bit is set, Z if all bits are zero, P otherwise (R27). -/
def condOf (v : Word) : Cond := if v.msb then .N else if v = 0x0000#16 then .Z else .P

/-- `SetCC(v)` (R27). -/
def State.setCC (s : State) (v : Word) : State := { s with cond := condOf v }

/-- A result register is written, and SetCC called with the value written (R28). -/
def State.setResult (s : State) (dr : RegIdx) (v : Word) : State := (s.setReg dr v).setCC v

/-- COND's one-hot value, N = 100, Z = 010, P = 001 (R30): visible only through BR. -/
def Cond.oneHot : Cond → BitVec 3
  | .N => 0b100#3
  | .Z => 0b010#3
  | .P => 0b001#3

/-- Whether a branch that requests n, z, p is taken: "(requested condition bits AND current flags) is nonzero" (R160). -/
def branchTaken (n z p : Bool) (c : Cond) : Bool :=
  (BitVec.ofBool n ++ BitVec.ofBool z ++ BitVec.ofBool p) &&& c.oneHot != 0b000#3

end Sys2Proof.Machine
end

