-- ==== Sys2Proof/Machine/Ops.lean ====
section
/-! DEFINITION. The shared operations: raising a fatal error, the console primitives, MemRead and MemWrite, the
instruction fetch, and the entry to and return from a trap (spec/20_memory.md, 43_trap.md, 60_exceptions.md). -/

namespace Sys2Proof

/-- Whether an address is in POLL_TRIGGER (R55, D2). -/
def Params.triggers (p : Params) (a : Word) : Bool :=
  (p.pollOnKbsr && a == p.kbsrAddr) || (p.pollOnKbdr && a == p.kbdrAddr)

namespace Machine

/-- What a step answers. -/
abbrev Result := Host.Outcome State Fault Refusal

/-! ### Memory -/

/-- The content of a cell of memory; a cell not listed holds 0x0000 (R35). -/
def Memory.read : Memory → Nat → Word
  | [], _ => 0x0000#16
  | (k, v) :: m, a => if k = a then v else Memory.read m a

/-- A cell of memory set to `v`, keeping the canonical form: a cell set to 0x0000 is not listed. -/
def Memory.write : Memory → Nat → Word → Memory
  | [], a, v => if v = 0x0000#16 then [] else [(a, v)]
  | (k, w) :: m, a, v =>
    if a < k then (if v = 0x0000#16 then (k, w) :: m else (a, v) :: (k, w) :: m)
    else if a = k then (if v = 0x0000#16 then m else (a, v) :: m)
    else (k, w) :: Memory.write m a v

/-- The canonical form from an address on: strictly rising addresses inside memory, no cell that holds 0x0000. -/
def Memory.wfFrom : Nat → Memory → Bool
  | _, [] => true
  | lo, (k, v) :: m => decide (lo ≤ k) && decide (k < Config.memWords) && v != 0x0000#16 && Memory.wfFrom (k + 1) m

/-- The canonical form of memory: equal memories are equal lists. -/
def Memory.wf (m : Memory) : Bool := Memory.wfFrom 0 m

/-- M[a], the stored content of a cell with no side effect (R12). -/
def State.cell (s : State) (a : Word) : Word := s.mem.read a.toNat

/-- `MemWrite(a, v)` (R57): a plain store, at every address; it never touches the console. -/
def State.store (s : State) (a v : Word) : State := { s with mem := s.mem.write a.toNat v }

/-! ### Fatal errors -/

/-- `raise E(info)` (R13, R226): the step ends with FAULT set to the error; what was written before stays (R225), and
RUNNING is left as it was (R34).  The state it leaves is the next state; a state with FAULT set has no further step,
which `step` says. -/
def raise (e : ExecError) (s : State) : Result := .next { s with fault := some e }

/-- The numbering of the errors that a model may use (R220, decision D19); no program observes it. -/
def ExecError.code : ExecError → Nat
  | .badOpcode .. => 1
  | .badTrap .. => 2
  | .deviceError .. => 3

/-- What an operation that may use the console answers: a value and the state after it, or the primitive that failed
and the state it leaves. -/
inductive Dev (α : Type) where
  | ok (a : α) (s : State)
  | failed (op : DevOp) (s : State)
deriving DecidableEq, Repr

/-- Go on after an operation of the instruction at `pc`; a failed primitive raises `DeviceError(pc, op)` and nothing
after it runs (R224, R195). -/
def Dev.andThen {α : Type} (d : Dev α) (pc : Word) (k : α → State → Result) : Result :=
  match d with
  | .ok a s => k a s
  | .failed op s => raise (.deviceError pc op) s

/-! ### The console primitives (R15) -/

/-- The next answer of an agent. -/
def Draws.head {α : Type} (d : Draws α) : α := d.pending.headD d.rest

/-- The answers left after the next one. -/
def Draws.tail {α : Type} (d : Draws α) : Draws α := { d with pending := d.pending.tail }

/-- A `DevReadChar()` would return at once: a byte is there to deliver, or the input is closed and the read fails. -/
def Console.answersRead (c : Console) : Bool := !c.input.isEmpty || c.inputClosed

/-- `DevPollReady()` (R15, R37): a draw, and it never blocks.  It answers true only where a read does not block, as
R55 says of its own read ("a byte is available, so it does not block"; DEDUCED, notes/assumptions/5.md). -/
def devPollReady (s : State) : Dev Bool :=
  let s' := { s with console := { s.console with polls := s.console.polls.tail } }
  match s.console.polls.head with
  | .ready => .ok s.console.answersRead s'
  | .notReady => .ok false s'
  | .fails => .failed .pollReady s'

/-- The three ways of `DevReadChar()`. -/
inductive ReadAnswer where
  /-- a byte is delivered -/
  | got (c : Byte) (s : State)
  /-- no byte is there yet: the read blocks (R194) -/
  | waits
  /-- the input is closed: the read fails (R224) -/
  | closed
deriving DecidableEq, Repr

/-- `DevReadChar()` (R15, R194): the next byte of the one input sequence (D26). -/
def devReadChar (s : State) : ReadAnswer :=
  match s.console.input with
  | c :: rest => .got c { s with console := { s.console with input := rest } }
  | [] => if s.console.inputClosed then .closed else .waits

/-- `DevWriteChar(b)` (R15, R224): the byte is output, or the operation fails and no byte is. -/
def devWriteChar (b : Byte) (s : State) : Dev Unit :=
  let con := { s.console with writes := s.console.writes.tail }
  match s.console.writes.head with
  | .ok => .ok () { s with console := { con with output := con.output ++ [.char b] } }
  | .fails => .failed .writeChar { s with console := con }

/-- `DevFlush()` (R15, R224). -/
def devFlush (s : State) : Dev Unit :=
  let con := { s.console with flushes := s.console.flushes.tail }
  match s.console.flushes.head with
  | .ok => .ok () { s with console := { con with output := con.output ++ [.flushed] } }
  | .fails => .failed .flush { s with console := con }

/-! ### MemRead and the fetch -/

/-- The poll of R55: a ready key is read, and both mapped cells are updated; else only the status cell is. -/
def poll (s : State) : Dev Unit :=
  match devPollReady s with
  | .failed op s' => .failed op s'
  | .ok false s' => .ok () (s'.store s'.params.kbsrAddr Config.kbNotReadyValue)
  | .ok true s' =>
    match devReadChar s' with
    | .got c s'' =>
      .ok () ((s''.store s''.params.kbsrAddr Config.kbReadyValue).store s''.params.kbdrAddr (zext16 c))
    | .waits => .failed .readChar s'
    | .closed => .failed .readChar s'

/-- `MemRead(a)` (R55): the one read operation; a read of an address in POLL_TRIGGER polls first and returns the
updated cell (D4). -/
def memRead (a : Word) (s : State) : Dev Word :=
  if s.params.triggers a then
    match poll s with
    | .ok _ s' => .ok (s'.cell a) s'
    | .failed op s' => .failed op s'
  else .ok (s.cell a) s

/-- The fetch (R170, R172): an ordinary MemRead of the word at PC. -/
def fetch (s : State) : Dev Word := memRead s.pc s

/-- The increment of PC before decode and execute, modulo 2^16 (R24, R170). -/
def State.advance (s : State) : State := s.setPc (s.pc + 1#16)

/-- End an instruction that reads one Word and puts it into DR with SetCC (R132, R134, R136). -/
def loadResult (dr : RegIdx) (a : Word) (s : State) : Result :=
  (memRead a s).andThen s.instrAddr fun r s' => .next (s'.setResult dr r)

/-! ### Traps -/

/-- Trap entry (R180, R229): R7 <- PC, the incremented PC, and nothing else: no mode, mask, stack or PC changes. -/
def State.trapEntry (s : State) : State := s.setReg 7#3 s.pc

/-- The return through the link register (R163, R165): PC <- R7, no stack and no flags.  A service routine needs no
return instruction (R182): PC already is the word after the TRAP. -/
def State.linkReturn (s : State) : State := s.setPc (s.reg 7#3)

end Machine

end Sys2Proof
end

