-- ==== Sys2Proof/Machine/Control.lean ====
section
/-! DEFINITION. Control transfer BR, JMP, RET, JSR, JSRR (spec/42_control.md) and the opcodes that raise BadOpcode,
RTI and 1101 (spec/44_unimplemented.md). -/

namespace Sys2Proof.Machine

/-- BR (R160): the only reader of COND (R29). -/
def execBr (n z p : Bool) (off : BitVec 9) (s : State) : Result :=
  .next (if branchTaken n z p s.cond then s.setPc (s.eaPc off) else s)

/-- JMP (R162). -/
def execJmp (base : RegIdx) (s : State) : Result := .next (s.setPc (s.reg base))

/-- RET (R163): JMP R7. -/
def execRet (s : State) : Result := .next s.linkReturn

/-- JSR (R164): R7 receives the incremented PC, and the target is relative to the same incremented PC. -/
def execJsr (off : BitVec 11) (s : State) : Result := .next ((s.setReg 7#3 s.pc).setPc (s.eaPc off))

/-- JSRR (R166): R7 is written first, then BaseR is read, so JSRR R7 goes on at the next instruction (C5). -/
def execJsrr (base : RegIdx) (s : State) : Result :=
  .next ((s.setReg 7#3 s.pc).setPc ((s.setReg 7#3 s.pc).reg base))

/-- RTI (R210): always BadOpcode, with the instruction's address and its whole word. -/
def execRti (low : BitVec 12) (s : State) : Result := raise (.badOpcode s.instrAddr (0b1000#4 ++ low)) s

/-- The reserved opcode 1101 (R212): always BadOpcode. -/
def execReserved (low : BitVec 12) (s : State) : Result := raise (.badOpcode s.instrAddr (0b1101#4 ++ low)) s

end Sys2Proof.Machine
end

