-- ==== Sys2Proof/Machine/LoadStore.lean ====
section
/-! DEFINITION. LEA, the loads and the stores (spec/41_load_store.md). -/

namespace Sys2Proof.Machine

/-- LEA (R130): the address itself is the result; no memory access, and COND is set from it. -/
def execLea (dr : RegIdx) (off : BitVec 9) (s : State) : Result := .next (s.setResult dr (s.eaPc off))

/-- LD (R132). -/
def execLd (dr : RegIdx) (off : BitVec 9) (s : State) : Result := loadResult dr (s.eaPc off) s

/-- LDI (R134): the pointer read (R133), then the data read. -/
def execLdi (dr : RegIdx) (off : BitVec 9) (s : State) : Result :=
  (memRead (s.eaPc off) s).andThen s.instrAddr fun ptr s' => loadResult dr ptr s'

/-- LDR (R136): the address uses the old BaseR (R113). -/
def execLdr (dr base : RegIdx) (off : BitVec 6) (s : State) : Result := loadResult dr (s.eaBase base off) s

/-- ST (R138). -/
def execSt (sr : RegIdx) (off : BitVec 9) (s : State) : Result := .next (s.store (s.eaPc off) (s.reg sr))

/-- STI (R140): the pointer read, then the store. -/
def execSti (sr : RegIdx) (off : BitVec 9) (s : State) : Result :=
  (memRead (s.eaPc off) s).andThen s.instrAddr fun ptr s' => .next (s'.store ptr (s'.reg sr))

/-- STR (R142). -/
def execStr (sr base : RegIdx) (off : BitVec 6) (s : State) : Result :=
  .next (s.store (s.eaBase base off) (s.reg sr))

end Sys2Proof.Machine
end

