-- ==== Sys2Proof/Machine/Operate.lean ====
section
/-! DEFINITION. The operate instructions ADD, AND and NOT (spec/40_operate.md). -/

namespace Sys2Proof.Machine

/-- ADD, register mode (R110). -/
def execAddR (dr sr1 sr2 : RegIdx) (s : State) : Result := .next (s.setResult dr (s.reg sr1 + s.reg sr2))

/-- ADD, immediate mode (R111). -/
def execAddI (dr sr1 : RegIdx) (imm : BitVec 5) (s : State) : Result :=
  .next (s.setResult dr (s.reg sr1 + sext16 imm))

/-- AND, register mode (R114). -/
def execAndR (dr sr1 sr2 : RegIdx) (s : State) : Result := .next (s.setResult dr (s.reg sr1 &&& s.reg sr2))

/-- AND, immediate mode (R115): imm5 is sign-extended before the AND. -/
def execAndI (dr sr1 : RegIdx) (imm : BitVec 5) (s : State) : Result :=
  .next (s.setResult dr (s.reg sr1 &&& sext16 imm))

/-- NOT (R118). -/
def execNot (dr sr : RegIdx) (s : State) : Result := .next (s.setResult dr (~~~(s.reg sr)))

end Sys2Proof.Machine
end

