-- ==== Sys2Proof/Machine/Trap.lean ====
section
/-! DEFINITION. TRAP, the dispatcher and its six service routines (spec/43_trap.md).  A routine runs after the trap
entry, natively, within the TRAP's own step; a routine that cannot finish leaves itself in `held`. -/

namespace Sys2Proof.Machine

/-- The input routines' write of R0 (R183, R187): the zero-extended byte, and SetCC only under
TRAP_INPUT_SETS_COND (R190). -/
def State.storeInput (s : State) (c : Byte) : State :=
  if s.params.trapInputSetsCond then s.setResult 0#3 (zext16 c) else s.setReg 0#3 (zext16 c)

/-- A byte string written in order (R187). -/
def writeBytes : List Byte → State → Dev Unit
  | [], s => .ok () s
  | b :: bs, s =>
    match devWriteChar b s with
    | .ok _ s' => writeBytes bs s'
    | .failed op s' => .failed op s'

/-- The flush that ends a routine (R184, R185, R187, R188, R69). -/
def flushEnd (s : State) : Result := (devFlush s).andThen s.instrAddr fun _ s' => .next s'

/-- GETC (R183): one byte, no echo; it holds while there is none (R194). -/
def serveGetc (s : State) : Result :=
  match devReadChar s with
  | .got c s' => .next (s'.storeInput c)
  | .waits => .next { s with held := some .getc }
  | .closed => raise (.deviceError s.instrAddr .readChar) s

/-- OUT (R184): R0's low byte, then a flush. -/
def serveOut (s : State) : Result :=
  (devWriteChar (lowByte (s.reg 0#3)) s).andThen s.instrAddr fun _ s' => flushEnd s'

/-- How many Words PUTS and PUTSP read before the model's step hands over: each address of memory once.  A string
that ends without wrapping over its own start ends within it (R186; notes/assumptions/4.md). -/
def stringFuel : Nat := 65536

/-- The loop of PUTS (R185) at pointer `p`; `n` is how many Words it may still read in this step. -/
def putsLoop : Nat → Word → State → Result
  | 0, p, s => .next { s with held := some (.puts p) }
  | n + 1, p, s =>
    (memRead p s).andThen s.instrAddr fun w s' =>
      if w = 0x0000#16 then flushEnd s'
      else (devWriteChar (lowByte w) s').andThen s.instrAddr fun _ s'' => putsLoop n (p + 1#16) s''

/-- PUTS (R185). -/
def servePuts (s : State) : Result := putsLoop stringFuel (s.reg 0#3) s

/-- IN after its prompt (R187): read, echo, flush, store; it holds while there is no byte (R194). -/
def serveInRead (s : State) : Result :=
  match devReadChar s with
  | .got c s' =>
    (devWriteChar c s').andThen s.instrAddr fun _ s'' =>
      (devFlush s'').andThen s.instrAddr fun _ t => .next (t.storeInput c)
  | .waits => .next { s with held := some .inp }
  | .closed => raise (.deviceError s.instrAddr .readChar) s

/-- IN (R187): the prompt IN_PROMPT, a flush, then one character with echo. -/
def serveIn (s : State) : Result :=
  (writeBytes s.params.inPrompt s).andThen s.instrAddr fun _ s' =>
    (devFlush s').andThen s.instrAddr fun _ s'' => serveInRead s''

/-- The loop of PUTSP under PUTSP_MODE = LITERAL (R188): it stops at the first zero byte. -/
def putspLiteral : Nat → Word → State → Result
  | 0, p, s => .next { s with held := some (.putsp p) }
  | n + 1, p, s =>
    (memRead p s).andThen s.instrAddr fun w s' =>
      if lowByte w = 0x00#8 then flushEnd s'
      else (devWriteChar (lowByte w) s').andThen s.instrAddr fun _ s'' =>
        if highByte w = 0x00#8 then flushEnd s''
        else (devWriteChar (highByte w) s'').andThen s.instrAddr fun _ t => putspLiteral n (p + 1#16) t

/-- The loop of PUTSP under PUTSP_MODE = WORDWISE (R189): it stops at a zero Word and skips a zero high byte. -/
def putspWordwise : Nat → Word → State → Result
  | 0, p, s => .next { s with held := some (.putsp p) }
  | n + 1, p, s =>
    (memRead p s).andThen s.instrAddr fun w s' =>
      if w = 0x0000#16 then flushEnd s'
      else (devWriteChar (lowByte w) s').andThen s.instrAddr fun _ s'' =>
        if highByte w = 0x00#8 then putspWordwise n (p + 1#16) s''
        else (devWriteChar (highByte w) s'').andThen s.instrAddr fun _ t => putspWordwise n (p + 1#16) t

/-- PUTSP's loop at a pointer, in the mode the parameter selects (R188, R189, D18). -/
def putspFrom (p : Word) (s : State) : Result :=
  match s.params.putspMode with
  | .literal => putspLiteral stringFuel p s
  | .wordwise => putspWordwise stringFuel p s

/-- PUTSP (R188). -/
def servePutsp (s : State) : Result := putspFrom (s.reg 0#3) s

/-- HALT (R191): flush, then RUNNING <- false; no message (D23). -/
def serveHalt (s : State) : Result :=
  (devFlush s).andThen s.instrAddr fun _ s' => .next { s' with running := false }

/-- `Dispatch(v)` (R181): the routine of a defined vector, BadTrap for every other (R196). -/
def dispatchTrap (v : Byte) (s : State) : Result :=
  if v = 0x20#8 then serveGetc s
  else if v = 0x21#8 then serveOut s
  else if v = 0x22#8 then servePuts s
  else if v = 0x23#8 then serveIn s
  else if v = 0x24#8 then servePutsp s
  else if v = 0x25#8 then serveHalt s
  else raise (.badTrap s.instrAddr v) s

/-- A held routine goes on where it stopped (R194, R186). -/
def resume (h : Held) (s : State) : Result :=
  match h with
  | .getc => serveGetc { s with held := none }
  | .inp => serveInRead { s with held := none }
  | .puts p => putsLoop stringFuel p { s with held := none }
  | .putsp p => putspFrom p { s with held := none }

/-- TRAP (R180): R7 <- PC, then Dispatch; a bad vector raises with R7 already written (R196). -/
def execTrap (vect : Byte) (s : State) : Result := dispatchTrap vect s.trapEntry

/-- TRAP x20, GETC (R183). -/
def execGetc (s : State) : Result := serveGetc s.trapEntry

/-- TRAP x21, OUT (R184). -/
def execOut (s : State) : Result := serveOut s.trapEntry

/-- TRAP x22, PUTS (R185). -/
def execPuts (s : State) : Result := servePuts s.trapEntry

/-- TRAP x23, IN (R187). -/
def execInp (s : State) : Result := serveIn s.trapEntry

/-- TRAP x24, PUTSP (R188). -/
def execPutsp (s : State) : Result := servePutsp s.trapEntry

/-- TRAP x25, HALT (R191). -/
def execHalt (s : State) : Result := serveHalt s.trapEntry

end Sys2Proof.Machine
end

