-- ==== Sys2Proof/Machine/Step.lean ====
section
/-! DEFINITION. One step of the machine (spec/42_control.md R170), and the host's placing of a word to run next. -/

namespace Sys2Proof.Machine

/-- `Step()` (R170).  A state whose FAULT is set has no step (R226); while RUNNING is false nothing changes (R39); a
routine that holds its step goes on (R194); else fetch, PC <- PC + 1, decode, execute.  A fetch that fails raises
DeviceError with PC not yet incremented (R225). -/
def step (s : State) : Host.Outcome State Fault Refusal :=
  match s.fault with
  | some e => .fault (.afterError e)
  | none =>
    if s.running then
      match s.held with
      | some h => resume h s
      | none => (fetch s).andThen s.pc fun ir s' => exec (decode ir) s'.advance
    else .next s

/-- The state in which the very next step fetches and runs the word `w`: it stands at PC, RUNNING is true as after a
successful load (R251), no error and no held routine stand in the way, and a PC inside POLL_TRIGGER is taken out of
it, since the fetch's own poll could replace the word (R172).  It stands for the loading of a program from outside
(notes/assumptions/7.md). -/
def State.withFetchWord (s : State) (nbits w : Nat) : State :=
  { s.store s.pc (BitVec.ofNat 16 (w % 2 ^ nbits)) with
    running := true
    fault := none
    held := none
    params :=
      { s.params with
        pollOnKbsr := s.params.pollOnKbsr && s.pc != s.params.kbsrAddr
        pollOnKbdr := s.params.pollOnKbdr && s.pc != s.params.kbdrAddr } }

end Sys2Proof.Machine
end

