-- ==== Sys2Proof/Machine/HostSide.lean ====
section
/-! DEFINITION. What the host sees of the CORE and what the console may do between steps (spec/00_scope.md R6,
spec/70_reset_and_hazards.md R257, spec/10_state.md R37). -/

namespace Sys2Proof.Machine

/-- `is_running()` (R6, R33): it returns RUNNING and has no effect. -/
def State.isRunning (s : State) : Bool := s.running

/-- What the call of `step()` that ended in `s` has returned: `Err(e)` where FAULT is set (R226), nothing yet where a
routine still holds the step (R194), `Ok(())` otherwise. -/
def State.stepReturned (s : State) : Option (Except ExecError Unit) :=
  match s.fault, s.held with
  | some e, _ => some (.error e)
  | none, some _ => none
  | none, none => some (.ok ())

/-- The host delivers an input byte (R257), which it may do at any time, never after closing the input. -/
def State.deliver (s : State) (b : Byte) : State :=
  { s with console := { s.console with input := s.console.input ++ [b] } }

/-- The host closes the input (R257). -/
def State.closeInput (s : State) : State := { s with console := { s.console with inputClosed := true } }

/-- What the host and its console may do between two steps (R257): deliver a byte, close the input, or draw new answers
for the requests to come (R37, R261).  No move touches what is the CORE's (D27). -/
inductive HostMove where
  | deliver (b : Byte)
  | closeInput
  | polls (d : Draws PollAnswer)
  | writes (d : Draws DevAnswer)
  | flushes (d : Draws DevAnswer)
deriving DecidableEq, Repr

/-- A move made; a closed input takes no byte any more. -/
def HostMove.apply (m : HostMove) (s : State) : State :=
  match m with
  | .deliver b => if s.console.inputClosed then s else s.deliver b
  | .closeInput => s.closeInput
  | .polls d => { s with console := { s.console with polls := d } }
  | .writes d => { s with console := { s.console with writes := d } }
  | .flushes d => { s with console := { s.console with flushes := d } }

/-- Moves made one after another. -/
def State.hostMoves (s : State) (ms : List HostMove) : State := ms.foldl (fun u m => m.apply u) s

/-- The bytes output so far, in order (R37, R69). -/
def Console.bytesOut (c : Console) : List Byte :=
  c.output.filterMap fun e => match e with
    | .char b => some b
    | .flushed => none

end Sys2Proof.Machine
end

