-- ==== Sys2Proof/Machine/Loader.lean ====
section
/-! DEFINITION. `load_image`, the boot mechanism (spec/70_reset_and_hazards.md R250 to R255). -/

namespace Sys2Proof.Machine

/-- The reasons of a LoadError (R220, R253, R254). -/
inductive LoadError where
  | empty
  | truncated
  | pastEnd
deriving DecidableEq, Repr

/-- Why a call of `load_image` has no meaning. -/
inductive LoadRefusal where
  /-- a second `load_image`: outside the host contract (R255, decision D25).  Safe. -/
  | secondLoad
deriving DecidableEq, Repr

/-- The image words stored from an address on, each from two bytes, the high byte first (R252): direct stores, with no
device access (R58, R253). -/
def storeImage (a : Nat) : List Byte → Memory → Memory
  | hi :: lo :: rest, m => storeImage (a + 1) rest (m.write a (hi ++ lo))
  | _, m => m

/-- `LoadImage(b)` of R253 on a machine as created. -/
def loadWords (image : List Byte) (s : State) : Host.Outcome State LoadError LoadRefusal :=
  match image with
  | [] => .fault .empty
  | [_] => .fault .truncated
  | hi :: lo :: rest =>
    if rest.length % 2 = 1 then .fault .truncated
    else if (hi ++ lo).toNat + rest.length / 2 > Config.memWords then .fault .pastEnd
    else .next { s with mem := storeImage (hi ++ lo).toNat rest s.mem, running := true }

/-- Whether no image has been loaded yet: RUNNING is false and memory holds nothing (R250).  After a successful load
RUNNING is true until HALT, and the HALT's own word then stands in memory. -/
def State.unloaded (s : State) : Bool := !s.running && s.fault.isNone && s.held.isNone && s.mem.isEmpty

/-- `load_image(stream)` (R6, R251 to R254): exactly one image is loaded per run (R255).  A failing load leaves the
machine as it was, with RUNNING false (R254). -/
def loadImage (image : List Byte) (s : State) : Host.Outcome State LoadError LoadRefusal :=
  if s.unloaded then loadWords image s else .refused .secondLoad

end Sys2Proof.Machine
end

