-- ==== Sys2Proof/Safety.lean ====
section
/-! DEFINITION. What claims are stated in: the invariant of the state and the ways a run ends
(spec/70_reset_and_hazards.md R258). -/

namespace Sys2Proof.Machine

/-- The instruction address an error reports (R220). -/
def ExecError.pc : ExecError → Word
  | .badOpcode pc _ => pc
  | .badTrap pc _ => pc
  | .deviceError pc _ => pc

/-- A held routine stands in a running machine, with R7 = PC as its TRAP left them (R180, R194). -/
def State.heldOk (s : State) : Bool := s.held.isNone || (s.running && s.reg 7#3 == s.pc)

/-- The error on record names the instruction it stopped: PC is that address plus 1, or that address itself where the
fetch failed (R225). -/
def State.faultOk (s : State) : Bool :=
  match s.fault with
  | none => true
  | some e => s.pc == e.pc + 1#16 || (s.pc == e.pc && e.code == 3)

/-- The invariant: memory is in its canonical form, the two mapped addresses differ (R54), and the held routine and
the error on record are as their instruction left them. -/
def State.Inv (s : State) : Prop :=
  s.mem.wf = true ∧ s.params.wf = true ∧ s.heldOk = true ∧ s.faultOk = true

/-! ### Runs and how they end -/

/-- What the host does before each step of a run. -/
abbrev Env := Nat → List HostMove

/-- A run of `k` model steps in which the host makes the moves `env n` before step `n` (R257).  Every sequence of answers
and of deliveries, an infinite one too, is that of some `env` (R261). -/
def runIn (env : Env) : Nat → State → Result
  | 0, s => .next s
  | k + 1, s =>
    match runIn env k s with
    | .next t => step (t.hostMoves (env k))
    | .fault r => .fault r
    | .refused r => .refused r

/-- The four outcomes of R258. -/
inductive Ending where
  /-- HALT set RUNNING false in the step that left `final` -/
  | halted (final : State)
  /-- the step that left `final` returned the error `e` -/
  | faulted (e : ExecError) (final : State)
  /-- no step of the run ends it: one is held for ever, or the program loops -/
  | hung
  /-- the host killed the process in `last`, between steps or while a step held (R231; notes/assumptions/14.md) -/
  | cutOff (last : State)
deriving DecidableEq, Repr

/-- The run from `s` under `env` may end so (R258).  A run is halted where one of its steps found RUNNING true and left
it false, so the machine as created, which no step has stopped, has not halted. -/
def State.endsAs (s : State) (env : Env) : Ending → Prop
  | .halted t => ∃ k u, runIn env k s = .next u ∧ u.running = true ∧ runIn env (k + 1) s = .next t ∧ t.running = false
  | .faulted e t => ∃ k u, runIn env k s = .next u ∧ u.fault = none ∧ runIn env (k + 1) s = .next t ∧ t.fault = some e
  | .hung => ∀ k, ∃ t, runIn env k s = .next t ∧ t.running = true ∧ t.fault = none
  | .cutOff t => ∃ k, runIn env k s = .next t ∧ t.running = true ∧ t.fault = none

/-- "Only outcome 1 is a clean end" (R258). -/
def Ending.clean : Ending → Bool
  | .halted _ => true
  | .faulted _ _ => false
  | .hung => false
  | .cutOff _ => false

/-- The run from `s` under `env` ends cleanly in `t`. -/
def endsCleanly (env : Env) (s t : State) : Prop := s.endsAs env (.halted t)

/-! ### Frames: what a step leaves as it was -/

/-- No general register has changed but those `p` names. -/
def RegsKept (p : RegIdx → Bool) (s t : State) : Prop := ∀ r, p r = false → t.reg r = s.reg r

/-- No cell of memory has changed but those `p` names. -/
def MemKept (p : Word → Bool) (s t : State) : Prop := ∀ a, p a = false → t.cell a = s.cell a

/-- The control state and the parameters are as they were. -/
def ControlKept (s t : State) : Prop :=
  t.running = s.running ∧ t.fault = s.fault ∧ t.held = s.held ∧ t.params = s.params

/-- Nothing but the general registers in `p` and the PC may have changed. -/
def OnlyRegsAndPc (p : RegIdx → Bool) (s t : State) : Prop :=
  RegsKept p s t ∧ t.cond = s.cond ∧ MemKept (fun _ => false) s t ∧ ControlKept s t ∧ t.console = s.console

/-- `t` is `s` with the Word `v` in the result register `dr` and COND set from it, and nothing else changed. -/
def WroteResult (dr : RegIdx) (v : Word) (s t : State) : Prop :=
  t.reg dr = v ∧ t.cond = condOf v ∧ RegsKept (· == dr) s t ∧ t.pc = s.pc ∧ MemKept (fun _ => false) s t ∧
    ControlKept s t ∧ t.console = s.console

/-- `t` is `s` with the Word `v` in the cell `a`, and nothing else changed. -/
def WroteCell (a v : Word) (s t : State) : Prop :=
  t.cell a = v ∧ MemKept (· == a) s t ∧ RegsKept (fun _ => false) s t ∧ t.cond = s.cond ∧ t.pc = s.pc ∧
    ControlKept s t ∧ t.console = s.console

/-- `t` is `s` with the error `e` on record, and nothing else changed. -/
def OnlyRaised (e : ExecError) (s t : State) : Prop := t = { s with fault := some e }

/-- `t` is `s` after a routine of the TRAP at `s.pc - 1` was stopped by a failing `op`: R7 is written, `out` has been
output, and nothing but the console has changed besides (R195). -/
def RoutineFailed (op : DevOp) (out : List OutEvent) (s t : State) : Prop :=
  t.fault = some (.deviceError (s.pc - 1#16) op) ∧ t.reg 7#3 = s.pc ∧ RegsKept (· == 7#3) s t ∧ t.cond = s.cond ∧
    t.pc = s.pc ∧ MemKept (fun _ => false) s t ∧ t.running = s.running ∧ t.held = s.held ∧ t.params = s.params ∧
    t.console.output = s.console.output ++ out

/-- `t` is `s` after a routine in progress came to its end: the step no longer holds, `out` has been output, and no
register, flag or cell has changed. -/
def RoutineFinished (out : List OutEvent) (s t : State) : Prop :=
  t = { s with held := none, console := t.console } ∧ t.console.output = s.console.output ++ out ∧
    t.console.input = s.console.input

/-! ### Which instruction may change what -/

/-- The general registers an instruction may write (R22). -/
def mayWriteReg : Instr → RegIdx → Bool
  | .addR dr _ _, r | .addI dr _ _, r | .andR dr _ _, r | .andI dr _ _, r | .not dr _, r | .lea dr _, r
  | .ld dr _, r | .ldi dr _, r | .ldr dr _ _, r => r == dr
  | .jsr _, r | .jsrr _, r => r == 7#3
  | .getc, r | .inp, r => r == 7#3 || r == 0#3
  | .out, r | .puts, r | .putsp, r | .halt, r => r == 7#3
  | .trap v, r => r == 7#3 || ((v == 0x20#8 || v == 0x23#8) && r == 0#3)
  | .br .., _ | .st .., _ | .sti .., _ | .str .., _ | .rti _, _ | .reserved _, _ | .jmp _, _ | .ret, _ => false

/-- The result register of a result-producing instruction (R18, R28). -/
def resultReg : Instr → Option RegIdx
  | .addR dr _ _ | .addI dr _ _ | .andR dr _ _ | .andI dr _ _ | .not dr _ | .lea dr _ | .ld dr _ | .ldi dr _
  | .ldr dr _ _ => some dr
  | .br .. | .st .. | .sti .. | .str .. | .jsr _ | .jsrr _ | .rti _ | .reserved _ | .jmp _ | .ret | .trap _ | .getc
  | .out | .puts | .inp | .putsp | .halt => none

/-- The TRAP instructions whose routine reads a byte into R0 (R183, R187). -/
def readsInput : Instr → Bool
  | .getc | .inp => true
  | .trap v => v == 0x20#8 || v == 0x23#8
  | .br .. | .addR .. | .addI .. | .ld .. | .st .. | .jsr _ | .jsrr _ | .andR .. | .andI .. | .ldr .. | .str ..
  | .rti _ | .not .. | .ldi .. | .sti .. | .jmp _ | .reserved _ | .lea .. | .out | .puts | .putsp | .halt
  | .ret => false

/-- The TRAP instructions whose routine writes output bytes (R184, R185, R187, R188). -/
def writesOutput : Instr → Bool
  | .out | .puts | .inp | .putsp => true
  | .trap v => v == 0x21#8 || v == 0x22#8 || v == 0x23#8 || v == 0x24#8
  | .br .. | .addR .. | .addI .. | .ld .. | .st .. | .jsr _ | .jsrr _ | .andR .. | .andI .. | .ldr .. | .str ..
  | .rti _ | .not .. | .ldi .. | .sti .. | .jmp _ | .reserved _ | .lea .. | .getc | .halt | .ret => false

/-- The instructions that write memory with MemWrite (R139). -/
def isStore : Instr → Bool
  | .st .. | .sti .. | .str .. => true
  | .br .. | .addR .. | .addI .. | .ld .. | .jsr _ | .jsrr _ | .andR .. | .andI .. | .ldr .. | .rti _ | .not ..
  | .ldi .. | .jmp _ | .reserved _ | .lea .. | .trap _ | .getc | .out | .puts | .inp | .putsp | .halt | .ret => false

/-- The Word that ends the string of PUTS or PUTSP (R185, R188, R189). -/
def endsString (mode : Option PutspMode) (w : Word) : Bool :=
  match mode with
  | none => w == 0x0000#16
  | some .literal => lowByte w == 0x00#8 || highByte w == 0x00#8
  | some .wordwise => w == 0x0000#16

/-- No cell of the string at R0 is a trigger: none up to its end, or, where it has no end, none at all. -/
def State.stringIsPlain (s : State) (mode : Option PutspMode) : Prop :=
  (∀ a, s.params.triggers a = false) ∨
    ∃ n, endsString mode (s.cell (s.reg 0#3 + BitVec.ofNat 16 n)) = true ∧
      ∀ k, k ≤ n → s.params.triggers (s.reg 0#3 + BitVec.ofNat 16 k) = false

/-- Every address the instruction reads with MemRead after its fetch is outside POLL_TRIGGER (R55, R58). -/
def State.readsNoTrigger (s : State) : Instr → Prop
  | .ld _ off | .sti _ off => s.params.triggers (s.pc + off.signExtend 16) = false
  | .ldr _ base off => s.params.triggers (s.reg base + off.signExtend 16) = false
  | .ldi _ off =>
    s.params.triggers (s.pc + off.signExtend 16) = false ∧
      s.params.triggers (s.cell (s.pc + off.signExtend 16)) = false
  | .puts => s.stringIsPlain none
  | .putsp => s.stringIsPlain (some s.params.putspMode)
  | .trap v =>
    (v = 0x22#8 → s.stringIsPlain none) ∧ (v = 0x24#8 → s.stringIsPlain (some s.params.putspMode))
  | .br .. | .addR .. | .addI .. | .st .. | .jsr _ | .jsrr _ | .andR .. | .andI .. | .str .. | .rti _ | .not ..
  | .jmp _ | .reserved _ | .lea .. | .getc | .out | .inp | .halt | .ret => True

/-- The instructions that may use the console: through a MemRead or through a routine (R224). -/
def mayUseConsole : Instr → Bool
  | .ld .. | .ldi .. | .ldr .. | .sti .. | .getc | .out | .puts | .inp | .putsp | .halt => true
  | .trap v => definedVector v
  | .br .. | .addR .. | .addI .. | .st .. | .jsr _ | .jsrr _ | .andR .. | .andI .. | .str .. | .rti _ | .not ..
  | .jmp _ | .reserved _ | .lea .. | .ret => false

/-- Where an instruction leaves PC, on a state whose PC is the incremented one (R25). -/
def pcAfter (i : Instr) (s : State) : Word :=
  match i with
  | .br n z p off =>
    if (n && s.cond == .N) || (z && s.cond == .Z) || (p && s.cond == .P) then s.pc + off.signExtend 16 else s.pc
  | .jmp base => s.reg base
  | .ret => s.reg 7#3
  | .jsr off => s.pc + off.signExtend 16
  | .jsrr base => if base = 7#3 then s.pc else s.reg base
  | .addR .. | .addI .. | .ld .. | .st .. | .andR .. | .andI .. | .ldr .. | .str .. | .rti _ | .not .. | .ldi ..
  | .sti .. | .reserved _ | .lea .. | .trap _ | .getc | .out | .puts | .inp | .putsp | .halt => s.pc

/-! ### Consoles and strings -/

/-- Every output operation of the console succeeds. -/
def Console.acceptsAll (c : Console) : Prop :=
  (∀ x ∈ c.writes.pending, x = .ok) ∧ c.writes.rest = .ok ∧ (∀ x ∈ c.flushes.pending, x = .ok) ∧ c.flushes.rest = .ok

/-- The answer an agent gives to its `n`th request from now on. -/
def Draws.nth {α : Type} (d : Draws α) (n : Nat) : α := d.pending.getD n d.rest

/-- The `n`th output of a byte from now on is the first that fails. -/
def Console.firstBadWrite (c : Console) (n : Nat) : Prop :=
  (∀ k, k < n → c.writes.nth k = .ok) ∧ c.writes.nth n = .fails

/-- The next `n` outputs of a byte succeed. -/
def Console.takes (c : Console) (n : Nat) : Prop := ∀ k, k < n → c.writes.nth k = .ok

/-- A byte written: the state after a `DevWriteChar` that succeeds (R15). -/
def State.wrote (s : State) (b : Byte) : State :=
  { s with console := { s.console with writes := s.console.writes.tail, output := s.console.output ++ [.char b] } }

/-- The state after a `DevFlush` that succeeds (R15). -/
def State.flushedOut (s : State) : State :=
  { s with console := { s.console with flushes := s.console.flushes.tail, output := s.console.output ++ [.flushed] } }

/-- The error state after a `DevWriteChar` that fails: no byte is output (R224). -/
def State.writeFailed (s : State) : State :=
  { s with
    console := { s.console with writes := s.console.writes.tail }
    fault := some (.deviceError (s.pc - 1#16) .writeChar) }

/-- The error state after a `DevFlush` that fails (R224). -/
def State.flushFailed (s : State) : State :=
  { s with
    console := { s.console with flushes := s.console.flushes.tail }
    fault := some (.deviceError (s.pc - 1#16) .flush) }

/-- The bytes PUTS writes for the Words before its terminator (R185). -/
def putsBytes (ws : List Word) : List Byte := ws.map lowByte

/-- The bytes PUTSP writes under LITERAL for Words without a zero byte and a last Word that has one (R188). -/
def literalBytes (ws : List Word) (last : Word) : List Byte :=
  (ws.flatMap fun w => [lowByte w, highByte w]) ++ if lowByte last = 0x00#8 then [] else [lowByte last]

/-- The bytes PUTSP writes under WORDWISE for the Words before its terminator (R189). -/
def wordwiseBytes (ws : List Word) : List Byte :=
  ws.flatMap fun w => if highByte w = 0x00#8 then [lowByte w] else [lowByte w, highByte w]

/-- The Words `ws` stand in memory from the address `p` on, addresses modulo 2^16, and none of them is a polled cell. -/
def State.holdsWords (s : State) (p : Word) (ws : List Word) : Prop :=
  ∀ k (h : k < ws.length),
    s.cell (p + BitVec.ofNat 16 k) = ws[k] ∧ s.params.triggers (p + BitVec.ofNat 16 k) = false

/-- The bytes of an object image: Words, each with its high byte first (R252). -/
def imageBytes (ws : List Word) : List Byte := ws.flatMap fun w => [highByte w, lowByte w]

/-- A machine whose next step fetches: no error, running, nothing held (R170). -/
def State.fetches (s : State) : Prop := s.fault = none ∧ s.running = true ∧ s.held = none

end Sys2Proof.Machine
end

