-- ==== Sys2Proof/Certificates/Slice0/Obligations.lean ====
section
/-! DEFINITION. The statements about the model.  Each docstring names the rule or the section of spec/ it formalises,
and says where a clause rests on a decision of the spec's own or on a log entry of the model. -/

open Sys2Proof Sys2Proof.Machine

/-! ### Encoding -/

/-- Decode after encode is the identity on every well-formed instruction (spec/30_encoding.md sections 1 to 4; the
opcode numbers are the spec's decision D11). -/
def Obligations.DecodeInvertsEncode : Prop := ∀ i : Instr, i.wf = true → decode (encode i) = i

/-- The other direction: every word decodes to a well-formed instruction, whose word differs from it in ignored bits
only, and not at all for the two opcodes whose error reports the word (spec/30_encoding.md section 4). -/
def Obligations.EncodeInvertsDecodeButIgnoredBits : Prop :=
  ∀ w : Word, (decode w).wf = true ∧ (encode (decode w) ^^^ w) &&& ~~~(ignoredBits w) = 0x0000#16 ∧
    (w.extractLsb 15 12 = 8#4 ∨ w.extractLsb 15 12 = 13#4 → encode (decode w) = w)

/-- Ignored bits (spec/30_encoding.md section 4, decision D10): flipping any of them changes nothing, except that RTI
and 1101 raise BadOpcode either way, reporting the word they have. -/
def Obligations.IgnoredBitsHaveNoEffect : Prop :=
  ∀ (w x : Word) (s : State),
    if w.extractLsb 15 12 = 8#4 ∨ w.extractLsb 15 12 = 13#4 then
      exec (decode (w ^^^ (x &&& ignoredBits w))) s =
        .next { s with fault := some (.badOpcode (s.pc - 1#16) (w ^^^ (x &&& ignoredBits w))) }
    else decode (w ^^^ (x &&& ignoredBits w)) = decode w

/-- Every format of spec/30_encoding.md section 2, its fields and its ignored bits at every value, decodes to its
instruction (opcode numbers: decision D11). -/
def Obligations.FormatsDecodeFieldByField : Prop :=
  (∀ (n z p : Bool) (o : BitVec 9),
    decode (0b0000#4 ++ BitVec.ofBool n ++ BitVec.ofBool z ++ BitVec.ofBool p ++ o) = .br n z p o) ∧
  (∀ (d a b : RegIdx) (x : BitVec 2), decode (0b0001#4 ++ d ++ a ++ 0b0#1 ++ x ++ b) = .addR d a b) ∧
  (∀ (d a : RegIdx) (i : BitVec 5), decode (0b0001#4 ++ d ++ a ++ 0b1#1 ++ i) = .addI d a i) ∧
  (∀ (d : RegIdx) (o : BitVec 9), decode (0b0010#4 ++ d ++ o) = .ld d o) ∧
  (∀ (r : RegIdx) (o : BitVec 9), decode (0b0011#4 ++ r ++ o) = .st r o) ∧
  (∀ o : BitVec 11, decode (0b0100#4 ++ 0b1#1 ++ o) = .jsr o) ∧
  (∀ (x : BitVec 2) (b : RegIdx) (y : BitVec 6), decode (0b0100#4 ++ 0b0#1 ++ x ++ b ++ y) = .jsrr b) ∧
  (∀ (d a b : RegIdx) (x : BitVec 2), decode (0b0101#4 ++ d ++ a ++ 0b0#1 ++ x ++ b) = .andR d a b) ∧
  (∀ (d a : RegIdx) (i : BitVec 5), decode (0b0101#4 ++ d ++ a ++ 0b1#1 ++ i) = .andI d a i) ∧
  (∀ (d b : RegIdx) (o : BitVec 6), decode (0b0110#4 ++ d ++ b ++ o) = .ldr d b o) ∧
  (∀ (r b : RegIdx) (o : BitVec 6), decode (0b0111#4 ++ r ++ b ++ o) = .str r b o) ∧
  (∀ x : BitVec 12, decode (0b1000#4 ++ x) = .rti x) ∧
  (∀ (d a : RegIdx) (x : BitVec 6), decode (0b1001#4 ++ d ++ a ++ x) = .not d a) ∧
  (∀ (d : RegIdx) (o : BitVec 9), decode (0b1010#4 ++ d ++ o) = .ldi d o) ∧
  (∀ (r : RegIdx) (o : BitVec 9), decode (0b1011#4 ++ r ++ o) = .sti r o) ∧
  (∀ (x : BitVec 3) (b : RegIdx) (y : BitVec 6),
    decode (0b1100#4 ++ x ++ b ++ y) = if b = 7#3 then .ret else .jmp b) ∧
  (∀ x : BitVec 12, decode (0b1101#4 ++ x) = .reserved x) ∧
  (∀ (d : RegIdx) (o : BitVec 9), decode (0b1110#4 ++ d ++ o) = .lea d o) ∧
  (∀ (x : BitVec 4) (v : Byte), definedVector v = false → decode (0b1111#4 ++ x ++ v) = .trap v) ∧
  (∀ x : BitVec 4, decode (0b1111#4 ++ x ++ 0x20#8) = .getc ∧ decode (0b1111#4 ++ x ++ 0x21#8) = .out ∧
    decode (0b1111#4 ++ x ++ 0x22#8) = .puts ∧ decode (0b1111#4 ++ x ++ 0x23#8) = .inp ∧
    decode (0b1111#4 ++ x ++ 0x24#8) = .putsp ∧ decode (0b1111#4 ++ x ++ 0x25#8) = .halt)

/-- Words the spec writes out beside their assembly (spec/95_test_vectors.md sections 1 and 2). -/
def Obligations.WrittenWordsDecode : Prop :=
  decode 0x1061#16 = .addI 0 1 1 ∧ decode 0x5060#16 = .andI 0 1 0 ∧ decode 0x0801#16 = .br true false false 1 ∧
  decode 0xF025#16 = .halt ∧ decode 0xA1EF#16 = .ldi 0 0x1EF ∧ decode 0xC1C0#16 = .ret ∧ decode 0x705F#16 = .str 0 1 31 ∧
  decode 0x4080#16 = .jsrr 2 ∧ decode 0x907F#16 = .not 0 1 ∧ decode 0xD123#16 = .reserved 0x123

/-- The base rows of spec/opcode_table.json are disjoint and cover all 65536 words, and a word decodes to an
instruction whose row it matches (spec/30_encoding.md section 6). -/
def Obligations.TableRowsPartitionTheWords : Prop :=
  ∀ w : Word, (baseRows.filter (·.holds w)).length = 1 ∧ (decode w).row.holds w = true

/-- The decoder rejects no Word; only a byte string too short to hold one is rejected, by name
(spec/30_encoding.md section 4). -/
def Obligations.OnlyShortInputIsRejected : Prop :=
  (∀ w : Word, decodeTableWord 16 w.toNat = some (decode w)) ∧
  (∀ bs : List Byte, decodeBytes bs = .error .truncated ↔ bs.length < 2)

/-! ### Extension and flags -/

/-- R10: `sext_16(f) = f | (f[N-1] ? (0xFFFF << N) & 0xFFFF : 0)` for an N-bit field, and `zext_16(b) = 0x00:b`. -/
def Obligations.ExtensionIsTheOrOfTheHighBits : Prop :=
  (∀ (n : Nat) (f : BitVec n), 0 < n → n ≤ 16 →
    sext16 f = f.setWidth 16 ||| (if f.getLsbD (n - 1) then 0xFFFF#16 <<< n else 0)) ∧
  (∀ b : Byte, zext16 b = 0x00#8 ++ b ∧ (zext16 b).toNat = b.toNat)

/-- R27: SetCC(v) makes COND N if the high bit is set, Z if all bits are zero, P otherwise. -/
def Obligations.SetCCFollowsTheSign : Prop :=
  ∀ (s : State) (v : Word),
    (s.setCC v).cond = (if v.getLsbD 15 then .N else if v = 0x0000#16 then .Z else .P) ∧
    ((s.setCC v).cond = .N ↔ v.toInt < 0) ∧ ((s.setCC v).cond = .Z ↔ v.toInt = 0) ∧
    ((s.setCC v).cond = .P ↔ 0 < v.toInt) ∧ s.setCC v = { s with cond := (s.setCC v).cond }

/-! ### Memory and the console -/

/-- MemWrite and M[a] (spec/20_memory.md sections 3 and 5): a store is read back, touches no other cell and no console,
and keeps the canonical form; and canonical memories with equal contents are equal (the model's form of memory,
notes/assumptions/6.md). -/
def Obligations.MemoryReadsWhatWasStored : Prop :=
  (∀ (s : State) (a v : Word), s.mem.wf = true → WroteCell a v s (s.store a v) ∧ (s.store a v).mem.wf = true) ∧
  (∀ m q : Memory, m.wf = true → q.wf = true → (∀ a : Word, m.read a.toNat = q.read a.toNat) → m = q)

/-- MemRead (spec/20_memory.md section 3; decisions D2 to D4, D20 and D22): outside POLL_TRIGGER no side effect; in
it, a poll.  That a poll finds a key only where a read does not block is the model's reading (DEDUCED,
notes/assumptions/5.md). -/
def Obligations.MemReadPollsTheTriggerCells : Prop :=
  ∀ (a : Word) (s : State), s.mem.wf = true → s.params.wf = true →
    (s.params.triggers a = false → memRead a s = .ok (s.cell a) s) ∧
    (s.params.triggers a = true →
      (∀ c rest, s.console.polls.head = .ready → s.console.input = c :: rest →
        ∃ t, memRead a s = .ok (t.cell a) t ∧ t.cell s.params.kbsrAddr = 0x8000#16 ∧
          t.cell s.params.kbdrAddr = 0x00#8 ++ c ∧
          MemKept (fun b => b == s.params.kbsrAddr || b == s.params.kbdrAddr) s t ∧
          t = { s with mem := t.mem, console := { s.console with polls := s.console.polls.tail, input := rest } }) ∧
      (s.console.polls.head = .notReady ∨
          (s.console.polls.head = .ready ∧ s.console.input = [] ∧ s.console.inputClosed = false) →
        ∃ t, memRead a s = .ok (t.cell a) t ∧ t.cell s.params.kbsrAddr = 0x0000#16 ∧
          MemKept (· == s.params.kbsrAddr) s t ∧
          t = { s with mem := t.mem, console := { s.console with polls := s.console.polls.tail } }) ∧
      (s.console.polls.head = .ready → s.console.input = [] → s.console.inputClosed = true →
        memRead a s =
          .failed .readChar { s with console := { s.console with polls := s.console.polls.tail } }) ∧
      (s.console.polls.head = .fails →
        memRead a s =
          .failed .pollReady { s with console := { s.console with polls := s.console.polls.tail } }))

/-! ### The step -/

/-- A step runs the decoded instruction (spec/42_control.md section 1): the word at PC, outside POLL_TRIGGER, is
decoded and executed with PC already incremented. -/
def Obligations.StepRunsTheDecodedInstruction : Prop :=
  ∀ s : State, s.fetches → s.params.triggers s.pc = false →
    step s = exec (decode (s.cell s.pc)) { s with pc := s.pc + 1#16 }

/-- The fetch is an ordinary MemRead (spec/42_control.md section 1, decision D6): at a polled address the instruction
is the word after the poll, and a failing poll raises DeviceError with PC not yet incremented
(spec/60_exceptions.md section 2, decision D12). -/
def Obligations.FetchPollsAtATriggerCell : Prop :=
  ∀ s : State, s.fetches →
    (∀ w t, memRead s.pc s = .ok w t → step s = exec (decode w) { t with pc := s.pc + 1#16 }) ∧
    (∀ op t, memRead s.pc s = .failed op t →
      step s = .next { t with fault := some (.deviceError s.pc op) } ∧ t.pc = s.pc)

/-- A word stored to an address is what the next fetch from it executes (spec/20_memory.md section 5). -/
def Obligations.StoredWordIsFetched : Prop :=
  ∀ (s : State) (a v : Word), s.mem.wf = true → s.fetches → s.params.triggers a = false →
    step { s.store a v with pc := a } = exec (decode v) { s.store a v with pc := a + 1#16 }

/-- The host's placed word runs as the very next step (the model's convention, notes/assumptions/7.md; fetching as in
spec/42_control.md section 1). -/
def Obligations.PlacedWordRunsNext : Prop :=
  ∀ (s : State) (w : Word), s.mem.wf = true →
    step (s.withFetchWord 16 w.toNat) = exec (decode w) { s.withFetchWord 16 w.toNat with pc := s.pc + 1#16 }

/-- While RUNNING is false a step changes nothing (spec/10_state.md section 5, decision D13); with FAULT set there is no
step (spec/60_exceptions.md section 2, decision D14). -/
def Obligations.StoppedMachineDoesNotMove : Prop :=
  (∀ s : State, s.fault = none → s.running = false → step s = .next s) ∧
  (∀ (s : State) (e : ExecError), s.fault = some e → step s = .fault (.afterError e))

/-- Every instruction answers a next state in every state: `exec` never stops (spec/42_control.md section 1).  That an
instruction that raises an error answers the state with FAULT set is notes/assumptions/9.md, and that a GETC or IN which
blocks, or a PUTS or PUTSP without an end, answers a state with `held` set is notes/assumptions/4.md. -/
def Obligations.EveryInstructionAnswersANextState : Prop := ∀ (i : Instr) (s : State), ∃ t, exec i s = .next t

/-! ### Rules of the whole machine -/

/-- Every step keeps the invariant: canonical memory, distinct mapped addresses, a held routine with R7 = PC in a
running machine, an error that names the instruction it stopped (notes/assumptions/4.md, 6.md;
spec/60_exceptions.md section 2). -/
def Obligations.StepKeepsTheInvariant : Prop := ∀ s t : State, s.Inv → step s = .next t → t.Inv

/-- The machine as created meets the invariant, for every draw of the registers, COND and console, and every legal
parameters (spec/70_reset_and_hazards.md section 1); so does the model's reset state. -/
def Obligations.CreationMeetsTheInvariant : Prop :=
  (∀ (p : Params) (g : Regs) (c : Cond) (con : Console), p.wf = true → (State.created p g c con).Inv) ∧ State.reset.Inv

/-- Creation (spec/70_reset_and_hazards.md section 1, decisions D9, D24): memory zero, PC = 0x3000, FAULT none, RUNNING
false, and no step moves the machine before a load.  R0..R7 and COND are whatever was drawn. -/
def Obligations.CreationState : Prop :=
  ∀ (p : Params) (g : Regs) (c : Cond) (con : Console),
    (∀ a, (State.created p g c con).cell a = 0x0000#16) ∧ (State.created p g c con).pc = 0x3000#16 ∧
    (State.created p g c con).fault = none ∧ (State.created p g c con).isRunning = false ∧
    (∀ r, (State.created p g c con).reg r = g.get r) ∧ (State.created p g c con).cond = c ∧
    step (State.created p g c con) = .next (State.created p g c con)

/-- R28: SetCC is called with the value written, by exactly ADD, AND, NOT, LEA, LD, LDI and LDR; every other
instruction leaves COND unchanged, GETC and IN where TRAP_INPUT_SETS_COND is false.  An instruction stopped by a
DeviceError has not reached its SetCC. -/
def Obligations.OnlyResultInstructionsSetCond : Prop :=
  ∀ (i : Instr) (s t : State), exec i s = .next t →
    (∀ dr, resultReg i = some dr → s.fault = none → t.fault = none → t.cond = condOf (t.reg dr)) ∧
    (resultReg i = none → (readsInput i = true → s.params.trapInputSetsCond = false) → t.cond = s.cond) ∧
    (s.fault = none → t.fault ≠ none → t.cond = s.cond)

/-- R29: COND is read only by BR.  Any other instruction, the fetch, the rest of a held routine, and so a whole step that
executes no BR, does the same to two states that differ in COND alone; and no entry point exposes it: is_running, what
step returns, and load_image. -/
def Obligations.OnlyBrReadsCond : Prop :=
  (∀ (i : Instr) (c : Cond) (s t : State), (∀ n z p off, i ≠ .br n z p off) → exec i s = .next t →
    exec i { s with cond := c } = .next t ∨ exec i { s with cond := c } = .next { t with cond := c }) ∧
  (∀ (c : Cond) (s : State), (∀ w u, fetch s = .ok w u → fetch { s with cond := c } = .ok w { u with cond := c }) ∧
    (∀ op u, fetch s = .failed op u → fetch { s with cond := c } = .failed op { u with cond := c })) ∧
  (∀ (h : Held) (c : Cond) (s t : State), resume h s = .next t →
    resume h { s with cond := c } = .next t ∨ resume h { s with cond := c } = .next { t with cond := c }) ∧
  (∀ (c : Cond) (s t : State), step s = .next t →
    (s.running = true → s.held = none → ∀ w u, fetch s = .ok w u → ∀ n z p off, decode w ≠ .br n z p off) →
    step { s with cond := c } = .next t ∨ step { s with cond := c } = .next { t with cond := c }) ∧
  (∀ (c : Cond) (s : State), ({ s with cond := c } : State).isRunning = s.isRunning ∧
    ({ s with cond := c } : State).stepReturned = s.stepReturned) ∧
  (∀ (image : List Byte) (c : Cond) (s : State),
    (∀ t, loadImage image s = .next t → loadImage image { s with cond := c } = .next { t with cond := c }) ∧
    (∀ e, loadImage image s = .fault e → loadImage image { s with cond := c } = .fault e) ∧
    (∀ r, loadImage image s = .refused r → loadImage image { s with cond := c } = .refused r))

/-- The writers of the general registers (spec/10_state.md section 2): a register no field or rule names stays; and
R7 holds the incremented PC after every JSR, JSRR and TRAP, whatever the vector. -/
def Obligations.RegisterWriters : Prop :=
  ∀ (i : Instr) (s t : State), exec i s = .next t →
    RegsKept (mayWriteReg i) s t ∧
    (resultReg i = none → mayWriteReg i 7#3 = true → t.reg 7#3 = s.pc)

/-- R25: how each instruction leaves PC. -/
def Obligations.PcAfterEachInstruction : Prop :=
  ∀ (i : Instr) (s t : State), exec i s = .next t → t.pc = pcAfter i s

/-- Only ST, STI and STR write memory, but for a poll, which writes the two mapped cells; and an instruction that reads no
trigger address polls nothing, so it writes no cell at all, or, a store, only the cell it stores to
(spec/20_memory.md sections 3 and 4). -/
def Obligations.OnlyStoresAndPollsWriteMemory : Prop :=
  ∀ (i : Instr) (s t : State), exec i s = .next t →
    (isStore i = false → MemKept (fun a => a == s.params.kbsrAddr || a == s.params.kbdrAddr) s t) ∧
    (isStore i = false → s.readsNoTrigger i → MemKept (fun _ => false) s t) ∧
    (isStore i = true → s.mem.wf = true → s.readsNoTrigger i → ∀ a,
      (∀ sr off, i = .st sr off → a = s.pc + off.signExtend 16) →
      (∀ sr off, i = .sti sr off → a = s.cell (s.pc + off.signExtend 16)) →
      (∀ sr base off, i = .str sr base off → a = s.reg base + off.signExtend 16) → MemKept (· == a) s t)

/-- Output happens only through OUT, PUTS, PUTSP and IN (spec/60_exceptions.md section 5). -/
def Obligations.OnlyOutputRoutinesWriteBytes : Prop :=
  ∀ (i : Instr) (s t : State), writesOutput i = false → exec i s = .next t →
    t.console.bytesOut = s.console.bytesOut

/-- The output trace only grows and the input is only consumed, from its front (spec/10_state.md section 6 and
spec/20_memory.md section 5); and no step changes the parameters (notes/assumptions/1.md). -/
def Obligations.StepOnlyExtendsTheTrace : Prop :=
  ∀ s t : State, step s = .next t →
    s.console.output <+: t.console.output ∧ t.console.input <:+ s.console.input ∧ t.params = s.params

/-- Where an error comes from (spec/60_exceptions.md section 1, decision D12): BadOpcode from RTI and 1101 alone,
BadTrap from TRAP with an undefined vector alone, DeviceError from an instruction that uses the console; each names
the instruction's address, and BadOpcode its word. -/
def Obligations.ErrorsNameTheirCause : Prop :=
  ∀ (i : Instr) (s t : State) (e : ExecError), s.fault = none → exec i s = .next t → t.fault = some e →
    e.pc = s.pc - 1#16 ∧
    (∀ pc w, e = .badOpcode pc w → w = encode i ∧ ∃ low, i = .rti low ∨ i = .reserved low) ∧
    (∀ pc v, e = .badTrap pc v → i = .trap v ∧ definedVector v = false) ∧
    (∀ pc op, e = .deviceError pc op → mayUseConsole i = true)

/-- R192: after HALT, is_running() is false, every later step changes nothing, and no instruction can set RUNNING true
again. -/
def Obligations.HaltIsFinal : Prop :=
  (∀ s t : State, s.fault = none → s.console.flushes.head = .ok → exec .halt s = .next t →
    t.isRunning = false ∧ ∀ k, Sys2Proof.core.run k t = .next t) ∧
  (∀ (i : Instr) (s t : State), exec i s = .next t → t.running = true → s.running = true) ∧
  (∀ s t : State, step s = .next t → t.running = true → s.running = true)

/-! ### Operate -/

/-- ADD, both modes (spec/40_operate.md, ADD): the sum modulo 2^16, COND from it, sources read before DR is written,
nothing else changed; it completes in every state. -/
def Obligations.AddWritesTheWrappedSum : Prop :=
  ∀ (dr sr1 sr2 : RegIdx) (imm : BitVec 5) (s : State),
    (∃ t, exec (.addR dr sr1 sr2) s = .next t ∧
      WroteResult dr (BitVec.ofNat 16 ((s.reg sr1).toNat + (s.reg sr2).toNat)) s t) ∧
    (∃ t, exec (.addI dr sr1 imm) s = .next t ∧
      WroteResult dr (BitVec.ofInt 16 ((s.reg sr1).toInt + imm.toInt)) s t)

/-- R112: ADD's sum is `(a + b) mod 2^16` for both modes, the same read as unsigned or as two's complement, and
overflow raises nothing: its only trace is COND, from the wrapped sign; nothing but DR and COND changes. -/
def Obligations.AddIgnoresOverflow : Prop :=
  ∀ (dr sr1 sr2 : RegIdx) (imm : BitVec 5) (s : State),
    (∃ t, exec (.addR dr sr1 sr2) s = .next t ∧ WroteResult dr (t.reg dr) s t ∧
      (t.reg dr).toNat = ((s.reg sr1).toNat + (s.reg sr2).toNat) % 2 ^ 16 ∧
      (t.reg dr).toInt = ((s.reg sr1).toInt + (s.reg sr2).toInt).bmod (2 ^ 16) ∧
      (t.cond = .N ↔ (t.reg dr).toInt < 0) ∧ (t.cond = .Z ↔ (t.reg dr).toInt = 0) ∧
      (t.cond = .P ↔ 0 < (t.reg dr).toInt)) ∧
    (∃ t, exec (.addI dr sr1 imm) s = .next t ∧ WroteResult dr (t.reg dr) s t ∧
      (t.reg dr).toNat = ((s.reg sr1).toNat + (imm.signExtend 16).toNat) % 2 ^ 16 ∧
      (t.reg dr).toInt = ((s.reg sr1).toInt + imm.toInt).bmod (2 ^ 16) ∧
      (t.cond = .N ↔ (t.reg dr).toInt < 0) ∧ (t.cond = .Z ↔ (t.reg dr).toInt = 0) ∧
      (t.cond = .P ↔ 0 < (t.reg dr).toInt))

/-- AND, both modes (spec/40_operate.md, AND): bit by bit, imm5 sign-extended first; COND is N exactly when both
operands have bit 15 set. -/
def Obligations.AndWritesTheBitwiseAnd : Prop :=
  ∀ (dr sr1 sr2 : RegIdx) (imm : BitVec 5) (s : State),
    (∃ t v, exec (.andR dr sr1 sr2) s = .next t ∧ WroteResult dr v s t ∧
      (∀ k, v.getLsbD k = ((s.reg sr1).getLsbD k && (s.reg sr2).getLsbD k)) ∧
      (t.cond = .N ↔ (s.reg sr1).getLsbD 15 = true ∧ (s.reg sr2).getLsbD 15 = true)) ∧
    (∃ t v, exec (.andI dr sr1 imm) s = .next t ∧ WroteResult dr v s t ∧
      (∀ k, k < 16 → v.getLsbD k = ((s.reg sr1).getLsbD k && imm.getLsbD (min k 4))))

/-- NOT (spec/40_operate.md, NOT): `~v = 0xFFFF - v`, COND from it, N exactly when SR's bit 15 is 0. -/
def Obligations.NotWritesTheComplement : Prop :=
  ∀ (dr sr : RegIdx) (s : State),
    ∃ t, exec (.not dr sr) s = .next t ∧ WroteResult dr (0xFFFF#16 - s.reg sr) s t ∧
      (t.cond = .N ↔ (s.reg sr).getLsbD 15 = false)

/-! ### Loads and stores -/

/-- LEA (spec/41_load_store.md, LEA): the incremented PC plus the sign-extended offset, modulo 2^16, with COND from it
and no memory access. -/
def Obligations.LeaWritesTheAddress : Prop :=
  ∀ (dr : RegIdx) (off : BitVec 9) (s : State),
    ∃ t, exec (.lea dr off) s = .next t ∧
      WroteResult dr (BitVec.ofInt 16 ((s.pc.toNat : Int) + off.toInt)) s t

/-- LD, LDR and LDI at addresses that do not poll (spec/41_load_store.md): the whole Word of the cell, COND from it,
nothing else changed.  `DR = BaseR` is included. -/
def Obligations.LoadsFromPlainCells : Prop :=
  ∀ (dr base : RegIdx) (off9 : BitVec 9) (off6 : BitVec 6) (s : State),
    (s.params.triggers (s.pc + off9.signExtend 16) = false →
      ∃ t, exec (.ld dr off9) s = .next t ∧ WroteResult dr (s.cell (s.pc + off9.signExtend 16)) s t) ∧
    (s.params.triggers (s.reg base + off6.signExtend 16) = false →
      ∃ t, exec (.ldr dr base off6) s = .next t ∧ WroteResult dr (s.cell (s.reg base + off6.signExtend 16)) s t) ∧
    (s.params.triggers (s.pc + off9.signExtend 16) = false →
      s.params.triggers (s.cell (s.pc + off9.signExtend 16)) = false →
      ∃ t, exec (.ldi dr off9) s = .next t ∧ WroteResult dr (s.cell (s.cell (s.pc + off9.signExtend 16))) s t)

/-- LD, LDR and LDI at every address, polled ones too (spec/41_load_store.md): what MemRead answers is the result, and
where it fails DeviceError is raised with DR and COND unchanged.  LDI reads twice, in order. -/
def Obligations.LoadsThroughMemRead : Prop :=
  ∀ (dr base : RegIdx) (off9 : BitVec 9) (off6 : BitVec 6) (s : State),
    (∀ v u, memRead (s.pc + off9.signExtend 16) s = .ok v u →
      (∃ t, exec (.ld dr off9) s = .next t ∧ WroteResult dr v u t) ∧
      (∀ x w, memRead v u = .ok x w → ∃ t, exec (.ldi dr off9) s = .next t ∧ WroteResult dr x w t) ∧
      (∀ op w, memRead v u = .failed op w →
        ∃ t, exec (.ldi dr off9) s = .next t ∧ OnlyRaised (.deviceError (s.pc - 1#16) op) w t ∧
          RegsKept (fun _ => false) s t ∧ t.cond = s.cond)) ∧
    (∀ op u, memRead (s.pc + off9.signExtend 16) s = .failed op u →
      ∃ t, exec (.ld dr off9) s = .next t ∧ exec (.ldi dr off9) s = .next t ∧
        OnlyRaised (.deviceError (s.pc - 1#16) op) u t ∧ RegsKept (fun _ => false) s t ∧ t.cond = s.cond) ∧
    (∀ v u, memRead (s.reg base + off6.signExtend 16) s = .ok v u →
      ∃ t, exec (.ldr dr base off6) s = .next t ∧ WroteResult dr v u t) ∧
    (∀ op u, memRead (s.reg base + off6.signExtend 16) s = .failed op u →
      ∃ t, exec (.ldr dr base off6) s = .next t ∧ OnlyRaised (.deviceError (s.pc - 1#16) op) u t ∧
        RegsKept (fun _ => false) s t ∧ t.cond = s.cond)

/-- ST and STR (spec/41_load_store.md): a plain store of SR at the effective address, at every address, with no flag,
register or console changed. -/
def Obligations.StoresWriteOneCell : Prop :=
  ∀ (sr base : RegIdx) (off9 : BitVec 9) (off6 : BitVec 6) (s : State), s.mem.wf = true →
    (∃ t, exec (.st sr off9) s = .next t ∧ WroteCell (s.pc + off9.signExtend 16) (s.reg sr) s t) ∧
    (∃ t, exec (.str sr base off6) s = .next t ∧ WroteCell (s.reg base + off6.signExtend 16) (s.reg sr) s t)

/-- STI (spec/41_load_store.md): the pointer is what MemRead answers; SR is stored there, and where the read fails
DeviceError is raised and no store happens. -/
def Obligations.StiStoresThroughThePointer : Prop :=
  ∀ (sr : RegIdx) (off : BitVec 9) (s : State), s.mem.wf = true →
    (s.params.triggers (s.pc + off.signExtend 16) = false →
      ∃ t, exec (.sti sr off) s = .next t ∧ WroteCell (s.cell (s.pc + off.signExtend 16)) (s.reg sr) s t) ∧
    (∀ ptr u, memRead (s.pc + off.signExtend 16) s = .ok ptr u →
      ∃ t, exec (.sti sr off) s = .next t ∧ WroteCell ptr (s.reg sr) u t) ∧
    (∀ op u, memRead (s.pc + off.signExtend 16) s = .failed op u →
      ∃ t, exec (.sti sr off) s = .next t ∧ OnlyRaised (.deviceError (s.pc - 1#16) op) u t)

/-- R139: every store writes the whole 16-bit Word of SR, and no store modifies a register or COND. -/
def Obligations.StoresKeepRegistersAndCond : Prop :=
  ∀ (i : Instr) (s t : State), isStore i = true → s.mem.wf = true → s.fault = none → exec i s = .next t →
    RegsKept (fun _ => false) s t ∧ t.cond = s.cond ∧
    (t.fault = none → ∃ a, (∀ sr off, i = .st sr off → a = s.pc + off.signExtend 16 ∧ t.cell a = s.reg sr) ∧
      (∀ sr base off, i = .str sr base off → a = s.reg base + off.signExtend 16 ∧ t.cell a = s.reg sr) ∧
      (∀ sr off, i = .sti sr off →
        (∃ u, memRead (s.pc + off.signExtend 16) s = .ok a u) ∧ t.cell a = s.reg sr))

/-! ### Control transfer -/

/-- BR (spec/42_control.md section 2): taken when a requested condition holds, to the incremented PC plus the offset
modulo 2^16; nothing else changes.  Field 000 is never taken, 111 always. -/
def Obligations.BranchFollowsCond : Prop :=
  ∀ (n z p : Bool) (off : BitVec 9) (s : State),
    ∃ t, exec (.br n z p off) s = .next t ∧ OnlyRegsAndPc (fun _ => false) s t ∧
      t.pc = (if (n = true ∧ s.cond = .N) ∨ (z = true ∧ s.cond = .Z) ∨ (p = true ∧ s.cond = .P)
        then BitVec.ofInt 16 ((s.pc.toNat : Int) + off.toInt) else s.pc)

/-- JMP and RET (spec/42_control.md section 3): PC takes the register's value, used as it is; nothing else changes. -/
def Obligations.JumpTakesTheRegister : Prop :=
  ∀ (base : RegIdx) (s : State),
    (∃ t, exec (.jmp base) s = .next t ∧ OnlyRegsAndPc (fun _ => false) s t ∧ t.pc = s.reg base) ∧
    (∃ t, exec .ret s = .next t ∧ OnlyRegsAndPc (fun _ => false) s t ∧ t.pc = s.reg 7#3)

/-- JSR and JSRR (spec/42_control.md section 4): R7 receives the incremented PC; JSR goes to that PC plus the offset,
JSRR to BaseR as read after the R7 write, so `JSRR R7` goes on at the next instruction (90_conflicts.md C5). -/
def Obligations.CallsLinkThroughR7 : Prop :=
  ∀ (base : RegIdx) (off : BitVec 11) (s : State),
    (∃ t, exec (.jsr off) s = .next t ∧ OnlyRegsAndPc (· == 7#3) s t ∧ t.reg 7#3 = s.pc ∧
      t.pc = BitVec.ofInt 16 ((s.pc.toNat : Int) + off.toInt)) ∧
    (∃ t, exec (.jsrr base) s = .next t ∧ OnlyRegsAndPc (· == 7#3) s t ∧ t.reg 7#3 = s.pc ∧
      t.pc = if base = 7#3 then s.pc else s.reg base)

/-- RTI and 1101 (spec/44_unimplemented.md, decision D12): BadOpcode with the instruction's address and word, and no
other change. -/
def Obligations.IllegalOpcodesRaise : Prop :=
  (∀ (low : BitVec 12) (s : State),
    exec (.rti low) s = .next { s with fault := some (.badOpcode (s.pc - 1#16) (0b1000#4 ++ low)) } ∧
    exec (.reserved low) s = .next { s with fault := some (.badOpcode (s.pc - 1#16) (0b1101#4 ++ low)) }) ∧
  (∀ s : State, s.fetches → s.params.triggers s.pc = false →
    ((s.cell s.pc).extractLsb 15 12 = 8#4 ∨ (s.cell s.pc).extractLsb 15 12 = 13#4) →
    step s = .next { s with pc := s.pc + 1#16, fault := some (.badOpcode s.pc (s.cell s.pc)) })

/-! ### Traps -/

/-- TRAP (spec/43_trap.md sections 1 and 3): the 8-bit vector selects the routine (R181), and every other vector raises
BadTrap with R7 already written, PC at the next word and no device touched (R196); what the error reports and the state
it leaves is the spec's decision D12 (notes/assumptions/15.md). -/
def Obligations.TrapDispatchesByVector : Prop :=
  ∀ s : State,
    exec (.trap 0x20#8) s = exec .getc s ∧ exec (.trap 0x21#8) s = exec .out s ∧ exec (.trap 0x22#8) s = exec .puts s ∧
    exec (.trap 0x23#8) s = exec .inp s ∧ exec (.trap 0x24#8) s = exec .putsp s ∧ exec (.trap 0x25#8) s = exec .halt s ∧
    (∀ v : Byte, v.toNat < 0x20 ∨ 0x25 < v.toNat →
      ∃ t, exec (.trap v) s = .next t ∧ t.fault = some (.badTrap (s.pc - 1#16) v) ∧ t.reg 7#3 = s.pc ∧
        RegsKept (· == 7#3) s t ∧ t.cond = s.cond ∧ t.pc = s.pc ∧ MemKept (fun _ => false) s t ∧
        t.running = s.running ∧ t.held = s.held ∧ t.params = s.params ∧ t.console = s.console)

/-- R183: GETC reads one character with no echo from the console's one input sequence into R0's low byte, upper byte
clear; COND only where TRAP_INPUT_SETS_COND is true. -/
def Obligations.GetcReadsOneByte : Prop :=
  ∀ (s : State) (c : Byte) (rest : List Byte), s.console.input = c :: rest →
    ∃ t, exec .getc s = .next t ∧ t.reg 0#3 = 0x00#8 ++ c ∧ t.reg 7#3 = s.pc ∧
      RegsKept (fun r => r == 0#3 || r == 7#3) s t ∧
      t.cond = (if s.params.trapInputSetsCond then condOf (0x00#8 ++ c) else s.cond) ∧ t.pc = s.pc ∧
      MemKept (fun _ => false) s t ∧ ControlKept s t ∧ t.console = { s.console with input := rest }

/-- Routines whose step holds (spec/43_trap.md sections 2 and 3): GETC and IN hold while no byte is there, with R7 already
written; a byte the host delivers lets each finish as it would have at once, an input that is closed fails the read; and
a PUTS or PUTSP still under way goes on at its pointer up to its terminator.  That one long step is several of the
model's is notes/assumptions/4.md. -/
def Obligations.InputRoutinesHoldUntilAByte : Prop :=
  (∀ s : State, s.console.input = [] → s.console.inputClosed = false →
    exec .getc s = .next { s.setReg 7#3 s.pc with held := some .getc }) ∧
  (∀ s : State, s.console.input = [] → s.console.inputClosed = false → s.console.acceptsAll →
    ∃ t, exec .inp s = .next t ∧ t.held = some .inp ∧ t.reg 7#3 = s.pc ∧ RegsKept (· == 7#3) s t ∧ t.cond = s.cond ∧
      t.pc = s.pc ∧ t.fault = s.fault ∧ MemKept (fun _ => false) s t ∧
      t.console.output = s.console.output ++ s.params.inPrompt.map .char ++ [.flushed]) ∧
  (∀ s : State, s.fault = none → s.running = true →
    (s.held = some .getc ∨ s.held = some .inp → s.console.input = [] →
      (s.console.inputClosed = false → step s = .next s) ∧
      (s.console.inputClosed = true →
        step s = .next { s with held := none, fault := some (.deviceError (s.pc - 1#16) .readChar) })) ∧
    (∀ b, s.held = some .getc → s.console.input = [] →
      ∃ t, step (s.deliver b) = .next t ∧ t.reg 0#3 = 0x00#8 ++ b ∧ RegsKept (· == 0#3) s t ∧
        t.cond = (if s.params.trapInputSetsCond then condOf (0x00#8 ++ b) else s.cond) ∧ t.held = none ∧ t.pc = s.pc ∧
        MemKept (fun _ => false) s t ∧ t.fault = none ∧ t.running = true ∧ t.params = s.params ∧
        t.console = s.console) ∧
    (∀ b, s.held = some .inp → s.console.input = [] → s.console.acceptsAll →
      ∃ t, step (s.deliver b) = .next t ∧ t.reg 0#3 = 0x00#8 ++ b ∧ RegsKept (· == 0#3) s t ∧
        t.cond = (if s.params.trapInputSetsCond then condOf (0x00#8 ++ b) else s.cond) ∧ t.held = none ∧ t.pc = s.pc ∧
        MemKept (fun _ => false) s t ∧ t.fault = none ∧ t.running = true ∧ t.params = s.params ∧
        t.console.input = [] ∧ t.console.output = s.console.output ++ [.char b, .flushed]) ∧
    (∀ (p : Word) (ws : List Word), ws.length < 65536 → s.console.acceptsAll →
      (s.held = some (.puts p) → s.holdsWords p (ws ++ [0x0000#16]) → (∀ w ∈ ws, w ≠ 0x0000#16) →
        ∃ t, step s = .next t ∧ RoutineFinished ((putsBytes ws).map .char ++ [.flushed]) s t) ∧
      (s.held = some (.putsp p) → s.params.putspMode = .wordwise → s.holdsWords p (ws ++ [0x0000#16]) →
        (∀ w ∈ ws, w ≠ 0x0000#16) →
        ∃ t, step s = .next t ∧ RoutineFinished ((wordwiseBytes ws).map .char ++ [.flushed]) s t) ∧
      (∀ last, s.held = some (.putsp p) → s.params.putspMode = .literal → s.holdsWords p (ws ++ [last]) →
        (∀ w ∈ ws, lowByte w ≠ 0x00#8 ∧ highByte w ≠ 0x00#8) → (lowByte last = 0x00#8 ∨ highByte last = 0x00#8) →
        ∃ t, step s = .next t ∧ RoutineFinished ((literalBytes ws last).map .char ++ [.flushed]) s t)))

/-- R184: OUT writes R0's low byte, whatever the high byte, and flushes; no register or COND changes but R7. -/
def Obligations.OutWritesOneByte : Prop :=
  ∀ s : State, s.console.writes.head = .ok → s.console.flushes.head = .ok →
    ∃ t, exec .out s = .next t ∧ OnlyRegsAndPc (· == 7#3) s { t with console := s.console } ∧ t.reg 7#3 = s.pc ∧
      t.pc = s.pc ∧ t.console.output = s.console.output ++ [.char ((s.reg 0#3).extractLsb 7 0), .flushed] ∧
      t.console.input = s.console.input

/-- PUTS (spec/43_trap.md section 2, decision D17): the low byte of each Word from R0's address up to the first zero
Word, the pointer wrapping, then a flush; R0 is unchanged.  A Word such as 0x0100 writes 0x00 and does not end it. -/
def Obligations.PutsWritesTheString : Prop :=
  ∀ (s : State) (ws : List Word), (∀ w ∈ ws, w ≠ 0x0000#16) → s.holdsWords (s.reg 0#3) (ws ++ [0x0000#16]) →
    ws.length < 65536 → s.console.acceptsAll →
    ∃ t, exec .puts s = .next t ∧ OnlyRegsAndPc (· == 7#3) s { t with console := s.console } ∧ t.reg 7#3 = s.pc ∧
      t.pc = s.pc ∧ t.console.output = s.console.output ++ ws.map (fun w => .char (lowByte w)) ++ [.flushed] ∧
      t.console.input = s.console.input

/-- The first Word of PUTS, at any cell, a polled one too (spec/43_trap.md sections 2 and 3): it is what MemRead answers;
a zero Word ends the string, the low byte of any other is written and the next Word follows, and a failing read or write
raises DeviceError with R7 written.  Every later Word is StringLoopsTakeOneWordAtATime. -/
def Obligations.PutsReadsThroughMemRead : Prop :=
  ∀ s : State,
    (∀ u, memRead (s.reg 0#3) (s.setReg 7#3 s.pc) = .ok 0x0000#16 u → u.console.flushes.head = .ok →
      ∃ t, exec .puts s = .next t ∧ t.console.output = u.console.output ++ [.flushed] ∧ t.mem = u.mem ∧
        t.regs = u.regs ∧ t.fault = u.fault ∧ t.held = u.held) ∧
    (∀ w u, memRead (s.reg 0#3) (s.setReg 7#3 s.pc) = .ok w u → w ≠ 0x0000#16 → u.console.writes.head = .ok →
      exec .puts s = putsLoop 65535 (s.reg 0#3 + 1#16) (u.wrote (lowByte w)) ∧
      ∃ t, exec .puts s = .next t ∧ u.console.output ++ [.char (lowByte w)] <+: t.console.output) ∧
    (∀ op u, memRead (s.reg 0#3) (s.setReg 7#3 s.pc) = .failed op u →
      ∃ t, exec .puts s = .next t ∧ OnlyRaised (.deviceError (s.pc - 1#16) op) u t ∧ t.reg 7#3 = s.pc) ∧
    (∀ w u, memRead (s.reg 0#3) (s.setReg 7#3 s.pc) = .ok w u → w ≠ 0x0000#16 → u.console.writes.head = .fails →
      ∃ t, exec .puts s = .next t ∧ t.fault = some (.deviceError (s.pc - 1#16) .writeChar) ∧ t.reg 7#3 = s.pc ∧
        t.console.output = u.console.output)

/-- PUTS with no zero Word in memory never ends (spec/43_trap.md section 2, decision D17: a hang, not a fault): every
later step of the model finds it still held (notes/assumptions/4.md). -/
def Obligations.UnterminatedPutsNeverReturns : Prop :=
  ∀ s : State, s.fetches → (∀ a, s.cell a ≠ 0x0000#16) → s.params.pollOnKbsr = false → s.params.pollOnKbdr = false →
    s.console.acceptsAll → s.cell s.pc = 0xF022#16 →
    ∀ k, ∃ t, Sys2Proof.core.run (k + 1) s = .next t ∧ t.held = some (.puts (s.reg 0#3)) ∧ t.fault = none ∧
      t.stepReturned = none

/-- IN (spec/43_trap.md section 2, decision D16): the prompt, a flush, one byte read, its echo, a flush, and R0. -/
def Obligations.InPromptsReadsAndEchoes : Prop :=
  ∀ (s : State) (c : Byte) (rest : List Byte), s.console.input = c :: rest → s.console.acceptsAll →
    ∃ t, exec .inp s = .next t ∧ t.reg 0#3 = 0x00#8 ++ c ∧ t.reg 7#3 = s.pc ∧
      RegsKept (fun r => r == 0#3 || r == 7#3) s t ∧
      t.cond = (if s.params.trapInputSetsCond then condOf (0x00#8 ++ c) else s.cond) ∧ t.pc = s.pc ∧
      MemKept (fun _ => false) s t ∧ ControlKept s t ∧ t.console.input = rest ∧
      t.console.output =
        s.console.output ++ s.params.inPrompt.map .char ++ [.flushed, .char c, .flushed]

/-- PUTSP under LITERAL (spec/43_trap.md section 2, decision D18): the low then the high byte of each Word, up to the
first zero byte, then a flush. -/
def Obligations.LiteralPutspStopsAtAZeroByte : Prop :=
  ∀ (s : State) (ws : List Word) (last : Word), s.params.putspMode = .literal →
    (∀ w ∈ ws, lowByte w ≠ 0x00#8 ∧ highByte w ≠ 0x00#8) → (lowByte last = 0x00#8 ∨ highByte last = 0x00#8) →
    s.holdsWords (s.reg 0#3) (ws ++ [last]) → ws.length < 65536 → s.console.acceptsAll →
    ∃ t, exec .putsp s = .next t ∧ OnlyRegsAndPc (· == 7#3) s { t with console := s.console } ∧ t.reg 7#3 = s.pc ∧
      t.pc = s.pc ∧ t.console.input = s.console.input ∧
      t.console.output = s.console.output ++ (ws.flatMap fun w => [.char (lowByte w), .char (highByte w)]) ++
        (if lowByte last = 0x00#8 then [] else [.char (lowByte last)]) ++ [.flushed]

/-- PUTSP under WORDWISE (spec/43_trap.md section 2, decision D18): every Word up to a zero Word, a zero high byte
skipped, then a flush. -/
def Obligations.WordwisePutspStopsAtAZeroWord : Prop :=
  ∀ (s : State) (ws : List Word), s.params.putspMode = .wordwise → (∀ w ∈ ws, w ≠ 0x0000#16) →
    s.holdsWords (s.reg 0#3) (ws ++ [0x0000#16]) → ws.length < 65536 → s.console.acceptsAll →
    ∃ t, exec .putsp s = .next t ∧ OnlyRegsAndPc (· == 7#3) s { t with console := s.console } ∧ t.reg 7#3 = s.pc ∧
      t.pc = s.pc ∧ t.console.input = s.console.input ∧
      t.console.output = s.console.output ++
        (ws.flatMap fun w => if highByte w = 0x00#8 then [.char (lowByte w)] else [.char (lowByte w), .char (highByte w)]) ++
        [.flushed]

/-- The two readings of PUTSP (spec/43_trap.md section 2) write the same bytes for every sequence that ends with a zero
Word, in which only the last nonzero Word has a zero high byte and no nonzero Word has a zero low byte. -/
def Obligations.PutspModesAgreeOnPackedStrings : Prop :=
  ∀ (s : State) (ws : List Word), (∀ w ∈ ws, lowByte w ≠ 0x00#8) → (∀ w ∈ ws.dropLast, highByte w ≠ 0x00#8) →
    s.holdsWords (s.reg 0#3) (ws ++ [0x0000#16]) → ws.length < 65536 → s.console.acceptsAll →
    ∃ t u, exec .putsp { s with params := { s.params with putspMode := .literal } } = .next t ∧
      exec .putsp { s with params := { s.params with putspMode := .wordwise } } = .next u ∧
      { t with params := s.params } = { u with params := s.params } ∧
      t.console.output = s.console.output ++
        (ws.flatMap fun w => if highByte w = 0x00#8 then [.char (lowByte w)] else [.char (lowByte w), .char (highByte w)]) ++
        [.flushed]

/-- HALT (spec/43_trap.md section 2, decision D23): a flush, RUNNING false, R7 and nothing else; no byte is written. -/
def Obligations.HaltStopsTheMachine : Prop :=
  ∀ s : State, s.console.flushes.head = .ok →
    ∃ t, exec .halt s = .next t ∧ t.running = false ∧ t.reg 7#3 = s.pc ∧ RegsKept (· == 7#3) s t ∧ t.cond = s.cond ∧
      t.pc = s.pc ∧ MemKept (fun _ => false) s t ∧ t.fault = s.fault ∧ t.held = s.held ∧ t.params = s.params ∧
      t.console = { s.console with flushes := s.console.flushes.tail, output := s.console.output ++ [.flushed] }

/-- A failing console operation inside a routine (spec/43_trap.md section 3, decision D20) raises DeviceError at the
TRAP's address at once, wherever in the routine it comes: R7 is written, what was output stays, nothing after it runs,
R0 is unchanged, and RUNNING stays true where HALT's flush fails.  That the failing operation itself outputs nothing is
notes/assumptions/3.md.  For PUTS and PUTSP the strings are those of their own statements, and a failing read is that of
the first Word (of any other: StringLoopsTakeOneWordAtATime). -/
def Obligations.RoutineFailuresAreDeviceErrors : Prop :=
  ∀ s : State,
    (s.console.input = [] → s.console.inputClosed = true →
      exec .getc s = .next { s.setReg 7#3 s.pc with fault := some (.deviceError (s.pc - 1#16) .readChar) }) ∧
    (s.console.writes.head = .fails → ∃ t, exec .out s = .next t ∧ RoutineFailed .writeChar [] s t) ∧
    (s.console.writes.head = .ok → s.console.flushes.head = .fails →
      ∃ t, exec .out s = .next t ∧ RoutineFailed .flush [.char (lowByte (s.reg 0#3))] s t) ∧
    (s.console.flushes.head = .fails → ∃ t, exec .halt s = .next t ∧ RoutineFailed .flush [] s t) ∧
    -- IN: the prompt, its flush, the read, the echo, the last flush
    (∀ n, n < s.params.inPrompt.length → s.console.firstBadWrite n →
      ∃ t, exec .inp s = .next t ∧ RoutineFailed .writeChar ((s.params.inPrompt.take n).map .char) s t ∧
        t.console.input = s.console.input) ∧
    (s.console.takes s.params.inPrompt.length → s.console.flushes.nth 0 = .fails →
      ∃ t, exec .inp s = .next t ∧ RoutineFailed .flush (s.params.inPrompt.map .char) s t ∧
        t.console.input = s.console.input) ∧
    (s.console.takes s.params.inPrompt.length → s.console.flushes.nth 0 = .ok → s.console.input = [] →
      s.console.inputClosed = true →
      ∃ t, exec .inp s = .next t ∧ RoutineFailed .readChar (s.params.inPrompt.map .char ++ [.flushed]) s t) ∧
    (∀ c rest, s.console.input = c :: rest → s.console.firstBadWrite s.params.inPrompt.length →
      s.console.flushes.nth 0 = .ok →
      ∃ t, exec .inp s = .next t ∧ RoutineFailed .writeChar (s.params.inPrompt.map .char ++ [.flushed]) s t ∧
        t.console.input = rest) ∧
    (∀ c rest, s.console.input = c :: rest → s.console.takes (s.params.inPrompt.length + 1) →
      s.console.flushes.nth 0 = .ok → s.console.flushes.nth 1 = .fails →
      ∃ t, exec .inp s = .next t ∧
        RoutineFailed .flush (s.params.inPrompt.map .char ++ [.flushed, .char c]) s t ∧ t.console.input = rest) ∧
    -- PUTS and PUTSP: the read, a write, the flush
    (∀ op u, memRead (s.reg 0#3) (s.setReg 7#3 s.pc) = .failed op u →
      exec .puts s = .next { u with fault := some (.deviceError (s.pc - 1#16) op) } ∧
      exec .putsp s = .next { u with fault := some (.deviceError (s.pc - 1#16) op) } ∧ u.reg 7#3 = s.pc) ∧
    (∀ ws : List Word, (∀ w ∈ ws, w ≠ 0x0000#16) → s.holdsWords (s.reg 0#3) (ws ++ [0x0000#16]) → ws.length < 65536 →
      (∀ n, n < (putsBytes ws).length → s.console.firstBadWrite n →
        ∃ t, exec .puts s = .next t ∧ RoutineFailed .writeChar (((putsBytes ws).take n).map .char) s t) ∧
      (s.console.takes (putsBytes ws).length → s.console.flushes.nth 0 = .fails →
        ∃ t, exec .puts s = .next t ∧ RoutineFailed .flush ((putsBytes ws).map .char) s t) ∧
      (s.params.putspMode = .wordwise →
        (∀ n, n < (wordwiseBytes ws).length → s.console.firstBadWrite n →
          ∃ t, exec .putsp s = .next t ∧ RoutineFailed .writeChar (((wordwiseBytes ws).take n).map .char) s t) ∧
        (s.console.takes (wordwiseBytes ws).length → s.console.flushes.nth 0 = .fails →
          ∃ t, exec .putsp s = .next t ∧ RoutineFailed .flush ((wordwiseBytes ws).map .char) s t))) ∧
    (∀ (ws : List Word) (last : Word), s.params.putspMode = .literal →
      (∀ w ∈ ws, lowByte w ≠ 0x00#8 ∧ highByte w ≠ 0x00#8) → (lowByte last = 0x00#8 ∨ highByte last = 0x00#8) →
      s.holdsWords (s.reg 0#3) (ws ++ [last]) → ws.length < 65536 →
      (∀ n, n < (literalBytes ws last).length → s.console.firstBadWrite n →
        ∃ t, exec .putsp s = .next t ∧ RoutineFailed .writeChar (((literalBytes ws last).take n).map .char) s t) ∧
      (s.console.takes (literalBytes ws last).length → s.console.flushes.nth 0 = .fails →
        ∃ t, exec .putsp s = .next t ∧ RoutineFailed .flush ((literalBytes ws last).map .char) s t))

/-! ### The loader -/

/-- A successful load (spec/70_reset_and_hazards.md sections 1 and 2, decisions D9 and D21): the image words from the
origin on, every other cell as it was, RUNNING true, and PC, registers, COND and console unchanged, whatever the origin.
That memory is then canonical is the model's form of it (notes/assumptions/6.md), and that every further load is refused
with `secondLoad` is the model's answer where the spec gives none (decision D25, notes/assumptions/12.md). -/
def Obligations.LoaderStoresTheImage : Prop :=
  ∀ (s : State) (origin : Word) (ws : List Word), s.unloaded = true → origin.toNat + ws.length ≤ 65536 →
    ∃ t, loadImage (imageBytes (origin :: ws)) s = .next t ∧
      (∀ k (h : k < ws.length), t.cell (origin + BitVec.ofNat 16 k) = ws[k]) ∧
      (∀ a, (∀ k, k < ws.length → a ≠ origin + BitVec.ofNat 16 k) → t.cell a = 0x0000#16) ∧
      t.mem.wf = true ∧ t = { s with mem := t.mem, running := true } ∧
      (∀ image, loadImage image t = .refused .secondLoad)

/-- Loader errors (spec/70_reset_and_hazards.md section 2, decision D21): an empty stream, an odd length, and an image
that would run past address 65535 fail, and no state is left behind. -/
def Obligations.LoaderRejectsBadImages : Prop :=
  ∀ s : State, s.unloaded = true →
    loadImage [] s = .fault .empty ∧
    (∀ image : List Byte, image.length % 2 = 1 → loadImage image s = .fault .truncated) ∧
    (∀ (origin : Word) (ws : List Word), 65536 < origin.toNat + ws.length →
      loadImage (imageBytes (origin :: ws)) s = .fault .pastEnd)

/-! ### Runs -/

/-- How a run ends (spec/70_reset_and_hazards.md section 3): whatever the host does between the steps, a run that starts
with RUNNING true and no error ends in exactly one of the outcomes halted, faulted and hung, unless it is cut off.  It
halts only in the step that executes a HALT, with no error, and nothing but the console moves after that; the machine as
created, with RUNNING false, has not halted and cannot halt before a load.  Runs of the model's steps, in which a held
step of the spec is several, are notes/assumptions/4.md. -/
def Obligations.RunsEndInOneOfThreeWays : Prop :=
  ∀ (env : Env) (s : State),
    (s.running = true → s.fault = none →
      ((∃ t, s.endsAs env (.halted t)) ∨ (∃ e t, s.endsAs env (.faulted e t)) ∨ s.endsAs env .hung) ∧
      ((∃ t, s.endsAs env (.halted t)) → (∀ e t, ¬ s.endsAs env (.faulted e t)) ∧ ¬ s.endsAs env .hung) ∧
      ((∃ e t, s.endsAs env (.faulted e t)) → ¬ s.endsAs env .hung)) ∧
    (s.running = false → ∀ t, ¬ s.endsAs env (.halted t)) ∧
    (∀ t, s.endsAs env (.halted t) → t.fault = none ∧
      ∃ k u w v, runIn env k s = .next u ∧ u.running = true ∧ u.held = none ∧
        fetch (u.hostMoves (env k)) = .ok w v ∧ decode w = .halt ∧
        ∀ j, k < j → ∃ t', runIn env j s = .next t' ∧ t' = { t with console := t'.console })

/-- One turn of the loops of PUTS and PUTSP, at any pointer and any cell, a polled one too, and at any point of the string
(spec/43_trap.md section 2, decisions D6, D17, D18 and D20): the Word is what MemRead answers, its bytes are written in
order, and the first operation that fails raises DeviceError and ends it.  That a loop hands over after 65536 Words is
notes/assumptions/4.md, and that a failing operation outputs nothing is notes/assumptions/3.md. -/
def Obligations.StringLoopsTakeOneWordAtATime : Prop :=
  (∀ s : State, exec .puts s = putsLoop 65536 (s.reg 0#3) (s.setReg 7#3 s.pc) ∧
    (s.params.putspMode = .literal → exec .putsp s = putspLiteral 65536 (s.reg 0#3) (s.setReg 7#3 s.pc)) ∧
    (s.params.putspMode = .wordwise → exec .putsp s = putspWordwise 65536 (s.reg 0#3) (s.setReg 7#3 s.pc))) ∧
  (∀ (p : Word) (s : State), putsLoop 0 p s = .next { s with held := some (.puts p) } ∧
    putspLiteral 0 p s = .next { s with held := some (.putsp p) } ∧
    putspWordwise 0 p s = .next { s with held := some (.putsp p) }) ∧
  ∀ (n : Nat) (p : Word) (s : State),
    (∀ op u, memRead p s = .failed op u →
      putsLoop (n + 1) p s = .next { u with fault := some (.deviceError (s.pc - 1#16) op) } ∧
      putspLiteral (n + 1) p s = .next { u with fault := some (.deviceError (s.pc - 1#16) op) } ∧
      putspWordwise (n + 1) p s = .next { u with fault := some (.deviceError (s.pc - 1#16) op) }) ∧
    (∀ w u, memRead p s = .ok w u →
      -- a zero Word ends all three, a zero low byte the literal one
      ((w = 0x0000#16 → u.console.flushes.head = .ok →
          putsLoop (n + 1) p s = .next u.flushedOut ∧ putspWordwise (n + 1) p s = .next u.flushedOut) ∧
        (w = 0x0000#16 → u.console.flushes.head = .fails →
          putsLoop (n + 1) p s = .next u.flushFailed ∧ putspWordwise (n + 1) p s = .next u.flushFailed) ∧
        (lowByte w = 0x00#8 → u.console.flushes.head = .ok → putspLiteral (n + 1) p s = .next u.flushedOut) ∧
        (lowByte w = 0x00#8 → u.console.flushes.head = .fails → putspLiteral (n + 1) p s = .next u.flushFailed)) ∧
      -- otherwise the low byte is written
      (u.console.writes.head = .fails →
        (w ≠ 0x0000#16 →
          putsLoop (n + 1) p s = .next u.writeFailed ∧ putspWordwise (n + 1) p s = .next u.writeFailed) ∧
        (lowByte w ≠ 0x00#8 → putspLiteral (n + 1) p s = .next u.writeFailed)) ∧
      (u.console.writes.head = .ok →
        (w ≠ 0x0000#16 → putsLoop (n + 1) p s = putsLoop n (p + 1#16) (u.wrote (lowByte w))) ∧
        -- then PUTSP's high byte, where it is not zero
        (w ≠ 0x0000#16 → highByte w = 0x00#8 →
          putspWordwise (n + 1) p s = putspWordwise n (p + 1#16) (u.wrote (lowByte w))) ∧
        (lowByte w ≠ 0x00#8 → highByte w = 0x00#8 →
          (u.console.flushes.head = .ok → putspLiteral (n + 1) p s = .next (u.wrote (lowByte w)).flushedOut) ∧
          (u.console.flushes.head = .fails → putspLiteral (n + 1) p s = .next (u.wrote (lowByte w)).flushFailed)) ∧
        (highByte w ≠ 0x00#8 → (u.wrote (lowByte w)).console.writes.head = .fails →
          putspWordwise (n + 1) p s = .next (u.wrote (lowByte w)).writeFailed ∧
          (lowByte w ≠ 0x00#8 → putspLiteral (n + 1) p s = .next (u.wrote (lowByte w)).writeFailed)) ∧
        (highByte w ≠ 0x00#8 → (u.wrote (lowByte w)).console.writes.head = .ok →
          putspWordwise (n + 1) p s =
            putspWordwise n (p + 1#16) ((u.wrote (lowByte w)).wrote (highByte w)) ∧
          (lowByte w ≠ 0x00#8 → putspLiteral (n + 1) p s =
            putspLiteral n (p + 1#16) ((u.wrote (lowByte w)).wrote (highByte w))))))
end

