-- ==== Sys2Proof/Laws/State.lean ====
section
/-! SUPPORT. For each update of the state, what each field holds after it (true by rfl), so that no later proof unfolds a
record update. -/

namespace Sys2Proof.Machine

variable (s : State)

/-! ### setReg -/

@[simp] theorem State.setReg_regs (i : RegIdx) (v : Word) : (s.setReg i v).regs = s.regs.set i v := rfl
@[simp] theorem State.setReg_pc (i : RegIdx) (v : Word) : (s.setReg i v).pc = s.pc := rfl
@[simp] theorem State.setReg_cond (i : RegIdx) (v : Word) : (s.setReg i v).cond = s.cond := rfl
@[simp] theorem State.setReg_mem (i : RegIdx) (v : Word) : (s.setReg i v).mem = s.mem := rfl
@[simp] theorem State.setReg_running (i : RegIdx) (v : Word) : (s.setReg i v).running = s.running := rfl
@[simp] theorem State.setReg_fault (i : RegIdx) (v : Word) : (s.setReg i v).fault = s.fault := rfl
@[simp] theorem State.setReg_held (i : RegIdx) (v : Word) : (s.setReg i v).held = s.held := rfl
@[simp] theorem State.setReg_console (i : RegIdx) (v : Word) : (s.setReg i v).console = s.console := rfl
@[simp] theorem State.setReg_params (i : RegIdx) (v : Word) : (s.setReg i v).params = s.params := rfl

/-! ### setPc -/

@[simp] theorem State.setPc_regs (v : Word) : (s.setPc v).regs = s.regs := rfl
@[simp] theorem State.setPc_pc (v : Word) : (s.setPc v).pc = v := rfl
@[simp] theorem State.setPc_cond (v : Word) : (s.setPc v).cond = s.cond := rfl
@[simp] theorem State.setPc_mem (v : Word) : (s.setPc v).mem = s.mem := rfl
@[simp] theorem State.setPc_running (v : Word) : (s.setPc v).running = s.running := rfl
@[simp] theorem State.setPc_fault (v : Word) : (s.setPc v).fault = s.fault := rfl
@[simp] theorem State.setPc_held (v : Word) : (s.setPc v).held = s.held := rfl
@[simp] theorem State.setPc_console (v : Word) : (s.setPc v).console = s.console := rfl
@[simp] theorem State.setPc_params (v : Word) : (s.setPc v).params = s.params := rfl

/-! ### setCC -/

@[simp] theorem State.setCC_regs (v : Word) : (s.setCC v).regs = s.regs := rfl
@[simp] theorem State.setCC_pc (v : Word) : (s.setCC v).pc = s.pc := rfl
@[simp] theorem State.setCC_cond (v : Word) : (s.setCC v).cond = condOf v := rfl
@[simp] theorem State.setCC_mem (v : Word) : (s.setCC v).mem = s.mem := rfl
@[simp] theorem State.setCC_running (v : Word) : (s.setCC v).running = s.running := rfl
@[simp] theorem State.setCC_fault (v : Word) : (s.setCC v).fault = s.fault := rfl
@[simp] theorem State.setCC_held (v : Word) : (s.setCC v).held = s.held := rfl
@[simp] theorem State.setCC_console (v : Word) : (s.setCC v).console = s.console := rfl
@[simp] theorem State.setCC_params (v : Word) : (s.setCC v).params = s.params := rfl

/-! ### setResult -/

@[simp] theorem State.setResult_regs (dr : RegIdx) (v : Word) : (s.setResult dr v).regs = s.regs.set dr v := rfl
@[simp] theorem State.setResult_pc (dr : RegIdx) (v : Word) : (s.setResult dr v).pc = s.pc := rfl
@[simp] theorem State.setResult_cond (dr : RegIdx) (v : Word) : (s.setResult dr v).cond = condOf v := rfl
@[simp] theorem State.setResult_mem (dr : RegIdx) (v : Word) : (s.setResult dr v).mem = s.mem := rfl
@[simp] theorem State.setResult_running (dr : RegIdx) (v : Word) : (s.setResult dr v).running = s.running := rfl
@[simp] theorem State.setResult_fault (dr : RegIdx) (v : Word) : (s.setResult dr v).fault = s.fault := rfl
@[simp] theorem State.setResult_held (dr : RegIdx) (v : Word) : (s.setResult dr v).held = s.held := rfl
@[simp] theorem State.setResult_console (dr : RegIdx) (v : Word) : (s.setResult dr v).console = s.console := rfl
@[simp] theorem State.setResult_params (dr : RegIdx) (v : Word) : (s.setResult dr v).params = s.params := rfl

/-! ### store -/

@[simp] theorem State.store_regs (a v : Word) : (s.store a v).regs = s.regs := rfl
@[simp] theorem State.store_pc (a v : Word) : (s.store a v).pc = s.pc := rfl
@[simp] theorem State.store_cond (a v : Word) : (s.store a v).cond = s.cond := rfl
@[simp] theorem State.store_mem (a v : Word) : (s.store a v).mem = s.mem.write a.toNat v := rfl
@[simp] theorem State.store_running (a v : Word) : (s.store a v).running = s.running := rfl
@[simp] theorem State.store_fault (a v : Word) : (s.store a v).fault = s.fault := rfl
@[simp] theorem State.store_held (a v : Word) : (s.store a v).held = s.held := rfl
@[simp] theorem State.store_console (a v : Word) : (s.store a v).console = s.console := rfl
@[simp] theorem State.store_params (a v : Word) : (s.store a v).params = s.params := rfl

/-! ### advance -/

@[simp] theorem State.advance_regs : (s.advance).regs = s.regs := rfl
@[simp] theorem State.advance_pc : (s.advance).pc = s.pc + 1 := rfl
@[simp] theorem State.advance_cond : (s.advance).cond = s.cond := rfl
@[simp] theorem State.advance_mem : (s.advance).mem = s.mem := rfl
@[simp] theorem State.advance_running : (s.advance).running = s.running := rfl
@[simp] theorem State.advance_fault : (s.advance).fault = s.fault := rfl
@[simp] theorem State.advance_held : (s.advance).held = s.held := rfl
@[simp] theorem State.advance_console : (s.advance).console = s.console := rfl
@[simp] theorem State.advance_params : (s.advance).params = s.params := rfl

/-! ### trapEntry -/

@[simp] theorem State.trapEntry_regs : (s.trapEntry).regs = s.regs.set 7#3 s.pc := rfl
@[simp] theorem State.trapEntry_pc : (s.trapEntry).pc = s.pc := rfl
@[simp] theorem State.trapEntry_cond : (s.trapEntry).cond = s.cond := rfl
@[simp] theorem State.trapEntry_mem : (s.trapEntry).mem = s.mem := rfl
@[simp] theorem State.trapEntry_running : (s.trapEntry).running = s.running := rfl
@[simp] theorem State.trapEntry_fault : (s.trapEntry).fault = s.fault := rfl
@[simp] theorem State.trapEntry_held : (s.trapEntry).held = s.held := rfl
@[simp] theorem State.trapEntry_console : (s.trapEntry).console = s.console := rfl
@[simp] theorem State.trapEntry_params : (s.trapEntry).params = s.params := rfl

/-! ### linkReturn -/

@[simp] theorem State.linkReturn_regs : (s.linkReturn).regs = s.regs := rfl
@[simp] theorem State.linkReturn_pc : (s.linkReturn).pc = s.reg 7#3 := rfl
@[simp] theorem State.linkReturn_cond : (s.linkReturn).cond = s.cond := rfl
@[simp] theorem State.linkReturn_mem : (s.linkReturn).mem = s.mem := rfl
@[simp] theorem State.linkReturn_running : (s.linkReturn).running = s.running := rfl
@[simp] theorem State.linkReturn_fault : (s.linkReturn).fault = s.fault := rfl
@[simp] theorem State.linkReturn_held : (s.linkReturn).held = s.held := rfl
@[simp] theorem State.linkReturn_console : (s.linkReturn).console = s.console := rfl
@[simp] theorem State.linkReturn_params : (s.linkReturn).params = s.params := rfl

/-! ### derived reads -/

@[simp] theorem State.setPc_reg (v : Word) (i : RegIdx) : (s.setPc v).reg i = s.reg i := rfl
@[simp] theorem State.setCC_reg (v : Word) (i : RegIdx) : (s.setCC v).reg i = s.reg i := rfl
@[simp] theorem State.store_reg (a v : Word) (i : RegIdx) : (s.store a v).reg i = s.reg i := rfl
@[simp] theorem State.advance_reg (i : RegIdx) : s.advance.reg i = s.reg i := rfl
@[simp] theorem State.linkReturn_reg (i : RegIdx) : s.linkReturn.reg i = s.reg i := rfl
@[simp] theorem State.setReg_cell (i : RegIdx) (v a : Word) : (s.setReg i v).cell a = s.cell a := rfl
@[simp] theorem State.setPc_cell (v a : Word) : (s.setPc v).cell a = s.cell a := rfl
@[simp] theorem State.setCC_cell (v a : Word) : (s.setCC v).cell a = s.cell a := rfl
@[simp] theorem State.setResult_cell (dr : RegIdx) (v a : Word) : (s.setResult dr v).cell a = s.cell a := rfl
@[simp] theorem State.advance_cell (a : Word) : s.advance.cell a = s.cell a := rfl
@[simp] theorem State.trapEntry_cell (a : Word) : s.trapEntry.cell a = s.cell a := rfl
@[simp] theorem State.linkReturn_cell (a : Word) : s.linkReturn.cell a = s.cell a := rfl
@[simp] theorem State.instrAddr_setReg (i : RegIdx) (v : Word) : (s.setReg i v).instrAddr = s.instrAddr := rfl
@[simp] theorem State.instrAddr_store (a v : Word) : (s.store a v).instrAddr = s.instrAddr := rfl
@[simp] theorem State.instrAddr_trapEntry : s.trapEntry.instrAddr = s.instrAddr := rfl
@[simp] theorem State.instrAddr_advance : s.advance.instrAddr = s.pc := BitVec.add_sub_cancel _ _

/-! ### storeInput, whose COND depends on TRAP_INPUT_SETS_COND -/

variable (c : Byte)

theorem State.storeInput_eq : s.storeInput c = { s.setReg 0#3 (zext16 c) with
    cond := if s.params.trapInputSetsCond then condOf (zext16 c) else s.cond } := by
  unfold State.storeInput; split <;> rfl

@[simp] theorem State.storeInput_regs : (s.storeInput c).regs = s.regs.set 0#3 (zext16 c) := by
  rw [State.storeInput_eq]; rfl
@[simp] theorem State.storeInput_pc : (s.storeInput c).pc = s.pc := by
  rw [State.storeInput_eq]; rfl
@[simp] theorem State.storeInput_cond : (s.storeInput c).cond = if s.params.trapInputSetsCond then condOf (zext16 c) else s.cond := by
  rw [State.storeInput_eq]
@[simp] theorem State.storeInput_mem : (s.storeInput c).mem = s.mem := by
  rw [State.storeInput_eq]; rfl
@[simp] theorem State.storeInput_running : (s.storeInput c).running = s.running := by
  rw [State.storeInput_eq]; rfl
@[simp] theorem State.storeInput_fault : (s.storeInput c).fault = s.fault := by
  rw [State.storeInput_eq]; rfl
@[simp] theorem State.storeInput_held : (s.storeInput c).held = s.held := by
  rw [State.storeInput_eq]; rfl
@[simp] theorem State.storeInput_console : (s.storeInput c).console = s.console := by
  rw [State.storeInput_eq]; rfl
@[simp] theorem State.storeInput_params : (s.storeInput c).params = s.params := by
  rw [State.storeInput_eq]; rfl

/-! ### Creation -/

variable (p : Params) (g : Regs) (k : Cond) (con : Console)

@[simp] theorem State.created_regs : (State.created p g k con).regs = g := rfl
@[simp] theorem State.created_pc : (State.created p g k con).pc = Config.resetPc := rfl
@[simp] theorem State.created_cond : (State.created p g k con).cond = k := rfl
@[simp] theorem State.created_mem : (State.created p g k con).mem = [] := rfl
@[simp] theorem State.created_running : (State.created p g k con).running = false := rfl
@[simp] theorem State.created_fault : (State.created p g k con).fault = none := rfl
@[simp] theorem State.created_held : (State.created p g k con).held = none := rfl
@[simp] theorem State.created_console : (State.created p g k con).console = con := rfl
@[simp] theorem State.created_params : (State.created p g k con).params = p := rfl

/-! ### deliver and closeInput -/

variable (b : Byte)

@[simp] theorem State.deliver_regs : (s.deliver b).regs = s.regs := rfl
@[simp] theorem State.deliver_pc : (s.deliver b).pc = s.pc := rfl
@[simp] theorem State.deliver_cond : (s.deliver b).cond = s.cond := rfl
@[simp] theorem State.deliver_mem : (s.deliver b).mem = s.mem := rfl
@[simp] theorem State.deliver_running : (s.deliver b).running = s.running := rfl
@[simp] theorem State.deliver_fault : (s.deliver b).fault = s.fault := rfl
@[simp] theorem State.deliver_held : (s.deliver b).held = s.held := rfl
@[simp] theorem State.deliver_params : (s.deliver b).params = s.params := rfl
@[simp] theorem State.closeInput_regs : (s.closeInput).regs = s.regs := rfl
@[simp] theorem State.closeInput_pc : (s.closeInput).pc = s.pc := rfl
@[simp] theorem State.closeInput_cond : (s.closeInput).cond = s.cond := rfl
@[simp] theorem State.closeInput_mem : (s.closeInput).mem = s.mem := rfl
@[simp] theorem State.closeInput_running : (s.closeInput).running = s.running := rfl
@[simp] theorem State.closeInput_fault : (s.closeInput).fault = s.fault := rfl
@[simp] theorem State.closeInput_held : (s.closeInput).held = s.held := rfl
@[simp] theorem State.closeInput_params : (s.closeInput).params = s.params := rfl

end Sys2Proof.Machine
end

