-- ==== Sys2Proof/Laws/Operands.lean ====
section
/-! SUPPORT. Laws of the operand forms: a register file is read as it was written, and what SetCC and BR see. -/

namespace Sys2Proof.Machine

/-- A case split over the eight register indices. -/
theorem RegIdx.cases8 {motive : RegIdx → Prop} (h0 : motive 0#3) (h1 : motive 1#3) (h2 : motive 2#3)
    (h3 : motive 3#3) (h4 : motive 4#3) (h5 : motive 5#3) (h6 : motive 6#3) (h7 : motive 7#3) (i : RegIdx) :
    motive i := by
  obtain ⟨⟨n, hn⟩⟩ := i
  interval_cases n <;> assumption

@[simp] theorem Regs.get_set_self (r : Regs) (i : RegIdx) (v : Word) : (r.set i v).get i = v := by
  induction i using RegIdx.cases8 <;> rfl

theorem Regs.get_set_ne (r : Regs) {i j : RegIdx} (v : Word) (h : j ≠ i) : (r.set i v).get j = r.get j := by
  induction i using RegIdx.cases8 <;> induction j using RegIdx.cases8 <;> first | rfl | exact absurd rfl h

theorem Regs.get_set (r : Regs) (i j : RegIdx) (v : Word) : (r.set i v).get j = if j = i then v else r.get j := by
  split
  · subst j; exact Regs.get_set_self r i v
  · exact Regs.get_set_ne r v ‹_›

/-- Two register files that read alike are equal. -/
theorem Regs.ext_get {r q : Regs} (h : ∀ i, r.get i = q.get i) : r = q := by
  obtain ⟨_, _, _, _, _, _, _, _⟩ := r
  obtain ⟨_, _, _, _, _, _, _, _⟩ := q
  have a := h 0#3; have b := h 1#3; have c := h 2#3; have d := h 3#3
  have e := h 4#3; have f := h 5#3; have g := h 6#3; have k := h 7#3
  simp only [Regs.get] at a b c d e f g k
  subst_vars; rfl

theorem State.setReg_reg (s : State) (i j : RegIdx) (v : Word) :
    (s.setReg i v).reg j = if j = i then v else s.reg j := Regs.get_set s.regs i j v

theorem State.setResult_reg (s : State) (i j : RegIdx) (v : Word) :
    (s.setResult i v).reg j = if j = i then v else s.reg j := Regs.get_set s.regs i j v

theorem State.trapEntry_reg (s : State) (j : RegIdx) :
    s.trapEntry.reg j = if j = 7#3 then s.pc else s.reg j := Regs.get_set s.regs 7#3 j s.pc

theorem State.storeInput_reg (s : State) (c : Byte) (j : RegIdx) :
    (s.storeInput c).reg j = if j = 0#3 then zext16 c else s.reg j := by
  unfold State.storeInput
  split
  · exact State.setResult_reg s 0#3 j _
  · exact State.setReg_reg s 0#3 j _

@[simp] theorem State.storeInput_cell (s : State) (c : Byte) (a : Word) : (s.storeInput c).cell a = s.cell a := by
  simp only [State.cell, State.storeInput_mem]

/-- The branch test on the one-hot COND (R30) is the test on the flags by name (R160). -/
theorem branchTaken_eq (n z p : Bool) (c : Cond) :
    branchTaken n z p c = ((n && decide (c = .N)) || (z && decide (c = .Z)) || (p && decide (c = .P))) := by
  revert n z p; cases c <;> decide

end Sys2Proof.Machine
end

