-- ==== Sys2Proof/Laws/Memory.lean ====
section
/-! SUPPORT. Laws of memory: read after write, the canonical form is kept, and equal contents are equal lists. -/

namespace Sys2Proof.Machine

@[simp] theorem Memory.read_nil (a : Nat) : Memory.read [] a = 0x0000#16 := rfl

theorem Memory.wfFrom_cons {lo k : Nat} {v : Word} {m : Memory} :
    Memory.wfFrom lo ((k, v) :: m) = true ↔
      lo ≤ k ∧ k < Config.memWords ∧ v ≠ 0x0000#16 ∧ Memory.wfFrom (k + 1) m = true := by
  simp [Memory.wfFrom, and_assoc]

theorem Memory.wfFrom_mono {m : Memory} {lo hi : Nat} (hle : lo ≤ hi) (h : Memory.wfFrom hi m = true) :
    Memory.wfFrom lo m = true := by
  cases m with
  | nil => rfl
  | cons kv m =>
    rw [Memory.wfFrom_cons] at h ⊢
    exact ⟨hle.trans h.1, h.2⟩

/-- Below the first address of a canonical list nothing is listed. -/
theorem Memory.read_below {m : Memory} {lo a : Nat} (h : Memory.wfFrom lo m = true) (ha : a < lo) :
    Memory.read m a = 0x0000#16 := by
  induction m generalizing lo with
  | nil => rfl
  | cons kv m ih =>
    obtain ⟨hlo, -, -, hm⟩ := Memory.wfFrom_cons.1 h
    rw [Memory.read, if_neg (by omega)]
    exact ih hm (by omega)

/-- A write keeps the canonical form. -/
theorem Memory.wfFrom_write {m : Memory} {lo a : Nat} {v : Word} (h : Memory.wfFrom lo m = true) (hlo : lo ≤ a)
    (ha : a < Config.memWords) : Memory.wfFrom lo (Memory.write m a v) = true := by
  induction m generalizing lo with
  | nil =>
    rw [Memory.write]
    split
    · rfl
    · exact Memory.wfFrom_cons.2 ⟨hlo, ha, ‹_›, rfl⟩
  | cons kv m ih =>
    obtain ⟨hk, hkm, hv, hm⟩ := Memory.wfFrom_cons.1 h
    rw [Memory.write]
    split
    · split
      · exact h
      · exact Memory.wfFrom_cons.2 ⟨hlo, ha, ‹_›, Memory.wfFrom_cons.2 ⟨by omega, hkm, hv, hm⟩⟩
    · split
      · subst a
        split
        · exact Memory.wfFrom_mono (by omega) hm
        · exact Memory.wfFrom_cons.2 ⟨hlo, hkm, ‹_›, hm⟩
      · exact Memory.wfFrom_cons.2 ⟨hk, hkm, hv, ih hm (by omega)⟩

theorem Memory.wf_write {m : Memory} (h : m.wf = true) (a v : Word) : (m.write a.toNat v).wf = true :=
  Memory.wfFrom_write h (Nat.zero_le _) a.isLt

/-- On a canonical memory, a read after a write gives the value written there and the old value elsewhere. -/
theorem Memory.read_write {m : Memory} {lo : Nat} (h : Memory.wfFrom lo m = true) (a b : Nat) (v : Word) :
    Memory.read (Memory.write m a v) b = if b = a then v else Memory.read m b := by
  induction m generalizing lo with
  | nil =>
    rw [Memory.write]
    split
    · simp_all
    · simp only [Memory.read, eq_comm]
  | cons kv m ih =>
    obtain ⟨hk, hkm, hv, hm⟩ := Memory.wfFrom_cons.1 h
    rw [Memory.write]
    split
    · have hbelow : b = a → Memory.read (kv :: m) b = 0x0000#16 := fun e =>
        Memory.read_below (Memory.wfFrom_cons.2 ⟨Nat.le_refl _, hkm, hv, hm⟩) (by omega)
      split
      · split
        · simp_all
        · rfl
      · rw [Memory.read]
        simp only [eq_comm]
    · split
      · subst a
        split
        · rw [Memory.read]
          by_cases hb : b = kv.1
          · subst hb; simp_all [Memory.read_below hm (Nat.lt_succ_self _)]
          · simp [hb, eq_comm]
        · simp only [Memory.read, eq_comm]
          split <;> rfl
      · rw [Memory.read, Memory.read, ih hm]
        by_cases hb : kv.1 = b
        · simp [hb, show ¬ b = a by omega]
        · simp [hb]

/-- A write changes no other cell, whatever the list. -/
theorem Memory.read_write_ne {m : Memory} {a b : Nat} (v : Word) (h : b ≠ a) :
    Memory.read (Memory.write m a v) b = Memory.read m b := by
  induction m with
  | nil =>
    rw [Memory.write]
    split
    · rfl
    · simp [Memory.read, Ne.symm h]
  | cons kv m ih =>
    rw [Memory.write]
    split
    · split
      · rfl
      · rw [Memory.read, if_neg (Ne.symm h)]
    · split
      · subst a
        split <;> simp [Memory.read, Ne.symm h]
      · rw [Memory.read, Memory.read, ih]

/-- Two canonical memories that read alike are the same list. -/
theorem Memory.ext_read {m q : Memory} {lo : Nat} (hm : Memory.wfFrom lo m = true) (hq : Memory.wfFrom lo q = true)
    (h : ∀ a, Memory.read m a = Memory.read q a) : m = q := by
  induction m generalizing q lo with
  | nil =>
    cases q with
    | nil => rfl
    | cons kv q =>
      obtain ⟨-, -, hv, -⟩ := Memory.wfFrom_cons.1 hq
      have := h kv.1
      simp [Memory.read] at this
      exact absurd this.symm hv
  | cons kv m ih =>
    obtain ⟨hk, hkm, hv, hwm⟩ := Memory.wfFrom_cons.1 hm
    cases q with
    | nil =>
      have := h kv.1
      simp [Memory.read] at this
      exact absurd this hv
    | cons kw q =>
      obtain ⟨hk', hkm', hv', hwq⟩ := Memory.wfFrom_cons.1 hq
      have hkeys : kv.1 = kw.1 := by
        rcases Nat.lt_trichotomy kv.1 kw.1 with hlt | heq | hgt
        · have := h kv.1
          rw [Memory.read, if_pos rfl, Memory.read_below (Memory.wfFrom_cons.2 ⟨Nat.le_refl _, hkm', hv', hwq⟩) hlt] at this
          exact absurd this hv
        · exact heq
        · have := h kw.1
          rw [Memory.read_below (Memory.wfFrom_cons.2 ⟨Nat.le_refl _, hkm, hv, hwm⟩) hgt, Memory.read, if_pos rfl] at this
          exact absurd this.symm hv'
      have hvals : kv.2 = kw.2 := by
        have := h kv.1
        rwa [Memory.read, if_pos rfl, Memory.read, if_pos hkeys.symm] at this
      have htail : m = q := by
        refine ih hwm (hkeys ▸ hwq) fun a => ?_
        by_cases ha : a = kv.1
        · rw [Memory.read_below hwm (by omega), Memory.read_below hwq (by omega)]
        · have := h a
          rwa [Memory.read, if_neg (fun e => ha e.symm), Memory.read, if_neg (fun e => ha (by omega))] at this
      rw [Prod.ext hkeys hvals, htail]

/-- MemWrite and M[a] of the state, on a canonical memory. -/
theorem State.store_cell {s : State} (h : s.mem.wf = true) (a b v : Word) :
    (s.store a v).cell b = if b = a then v else s.cell b := by
  rw [State.cell, State.store_mem, Memory.read_write h, State.cell]
  simp only [BitVec.toNat_inj]

theorem State.store_cell_ne (s : State) {a b : Word} (v : Word) (h : b ≠ a) : (s.store a v).cell b = s.cell b :=
  Memory.read_write_ne v fun e => h (BitVec.eq_of_toNat_eq e)

theorem State.store_wf {s : State} (h : s.mem.wf = true) (a v : Word) : (s.store a v).mem.wf = true :=
  Memory.wf_write h a v

end Sys2Proof.Machine
end

