-- ==== Sys2Proof/Laws/Console.lean ====
section
/-! SUPPORT. What the console primitives, the poll and MemRead can do, each said once. -/

namespace Sys2Proof.Machine

/-- `t` is `s` after some use of the console: only the console and the two mapped cells may differ, output has only
grown and input has only been consumed, and memory keeps its canonical form. -/
structure ConsoleEffect (s t : State) : Prop where
  regs : t.regs = s.regs
  pc : t.pc = s.pc
  cond : t.cond = s.cond
  running : t.running = s.running
  fault : t.fault = s.fault
  held : t.held = s.held
  params : t.params = s.params
  cells : ∀ a, a ≠ s.params.kbsrAddr → a ≠ s.params.kbdrAddr → t.cell a = s.cell a
  wf : s.mem.wf = true → t.mem.wf = true
  output : s.console.output <+: t.console.output
  input : t.console.input <:+ s.console.input
  closed : t.console.inputClosed = s.console.inputClosed

theorem ConsoleEffect.refl (s : State) : ConsoleEffect s s where
  regs := rfl
  pc := rfl
  cond := rfl
  running := rfl
  fault := rfl
  held := rfl
  params := rfl
  cells _ _ _ := rfl
  wf h := h
  output := List.prefix_rfl
  input := List.suffix_rfl
  closed := rfl

theorem ConsoleEffect.trans {s t u : State} (h : ConsoleEffect s t) (k : ConsoleEffect t u) : ConsoleEffect s u where
  regs := k.regs.trans h.regs
  pc := k.pc.trans h.pc
  cond := k.cond.trans h.cond
  running := k.running.trans h.running
  fault := k.fault.trans h.fault
  held := k.held.trans h.held
  params := k.params.trans h.params
  cells a h1 h2 := (k.cells a (h.params ▸ h1) (h.params ▸ h2)).trans (h.cells a h1 h2)
  wf w := k.wf (h.wf w)
  output := h.output.trans k.output
  input := k.input.trans h.input
  closed := k.closed.trans h.closed

theorem ConsoleEffect.reg {s t : State} (h : ConsoleEffect s t) (i : RegIdx) : t.reg i = s.reg i :=
  congrArg (Regs.get · i) h.regs

theorem ConsoleEffect.instrAddr {s t : State} (h : ConsoleEffect s t) : t.instrAddr = s.instrAddr :=
  congrArg (· - 1) h.pc

/-- A change of the console alone, which consumes input and appends output. -/
theorem ConsoleEffect.ofConsole (s : State) (c : Console) (ho : s.console.output <+: c.output)
    (hi : c.input <:+ s.console.input) (hc : c.inputClosed = s.console.inputClosed) :
    ConsoleEffect s { s with console := c } where
  regs := rfl
  pc := rfl
  cond := rfl
  running := rfl
  fault := rfl
  held := rfl
  params := rfl
  cells _ _ _ := rfl
  wf h := h
  output := ho
  input := hi
  closed := hc

/-- A store to one of the mapped cells, as the poll makes it. -/
theorem ConsoleEffect.ofStore (s : State) (a v : Word) (h : a = s.params.kbsrAddr ∨ a = s.params.kbdrAddr) :
    ConsoleEffect s (s.store a v) where
  regs := rfl
  pc := rfl
  cond := rfl
  running := rfl
  fault := rfl
  held := rfl
  params := rfl
  cells b h1 h2 := State.store_cell_ne s v (by rintro rfl; rcases h with h | h <;> contradiction)
  wf w := State.store_wf w a v
  output := List.prefix_rfl
  input := List.suffix_rfl
  closed := rfl

/-- The state an operation leaves, whether it succeeded or failed. -/
def Dev.state {α : Type} : Dev α → State
  | .ok _ s => s
  | .failed _ s => s

@[simp] theorem Dev.state_ok {α : Type} (a : α) (s : State) : (Dev.ok a s).state = s := rfl
@[simp] theorem Dev.state_failed {α : Type} (op : DevOp) (s : State) : (Dev.failed op s : Dev α).state = s := rfl

theorem devPollReady_effect (s : State) : ConsoleEffect s (devPollReady s).state := by
  unfold devPollReady
  split <;> exact ConsoleEffect.ofConsole s _ List.prefix_rfl List.suffix_rfl rfl

/-- A poll that answers true finds a byte, or a closed input: the read after it does not block (R55). -/
theorem devPollReady_true {s t : State} (h : devPollReady s = .ok true t) :
    t = { s with console := { s.console with polls := s.console.polls.tail } } ∧ devReadChar t ≠ .waits := by
  unfold devPollReady at h
  split at h
  · simp only [Dev.ok.injEq, Console.answersRead] at h
    obtain ⟨ha, rfl⟩ := h
    refine ⟨rfl, ?_⟩
    unfold devReadChar
    split
    · simp
    · simp_all
  · simp at h
  · simp at h

theorem devReadChar_got {s t : State} {c : Byte} (h : devReadChar s = .got c t) :
    ∃ rest, s.console.input = c :: rest ∧ t = { s with console := { s.console with input := rest } } := by
  unfold devReadChar at h
  split at h
  · simp only [ReadAnswer.got.injEq] at h
    obtain ⟨rfl, rfl⟩ := h
    exact ⟨_, ‹_›, rfl⟩
  · split at h <;> simp at h

theorem devReadChar_effect {s t : State} {c : Byte} (h : devReadChar s = .got c t) : ConsoleEffect s t := by
  obtain ⟨rest, hi, rfl⟩ := devReadChar_got h
  exact ConsoleEffect.ofConsole s _ List.prefix_rfl (hi ▸ List.suffix_cons c rest) rfl

theorem devWriteChar_effect (b : Byte) (s : State) : ConsoleEffect s (devWriteChar b s).state := by
  unfold devWriteChar
  split
  · exact ConsoleEffect.ofConsole s _ (List.prefix_append _ _) List.suffix_rfl rfl
  · exact ConsoleEffect.ofConsole s _ List.prefix_rfl List.suffix_rfl rfl

theorem devFlush_effect (s : State) : ConsoleEffect s (devFlush s).state := by
  unfold devFlush
  split
  · exact ConsoleEffect.ofConsole s _ (List.prefix_append _ _) List.suffix_rfl rfl
  · exact ConsoleEffect.ofConsole s _ List.prefix_rfl List.suffix_rfl rfl

theorem poll_effect (s : State) : ConsoleEffect s (poll s).state := by
  have hp := devPollReady_effect s
  unfold poll
  split
  · rename_i h; rwa [h] at hp
  · rename_i h; rw [h] at hp
    exact hp.trans (ConsoleEffect.ofStore _ _ _ (.inl rfl))
  · rename_i u h; rw [h] at hp
    split
    · rename_i hr
      exact (hp.trans (devReadChar_effect hr)).trans
        ((ConsoleEffect.ofStore _ _ _ (.inl rfl)).trans (ConsoleEffect.ofStore _ _ _ (.inr rfl)))
    · exact hp
    · exact hp

theorem memRead_effect (a : Word) (s : State) : ConsoleEffect s (memRead a s).state := by
  have hp := poll_effect s
  unfold memRead
  split
  · split <;> (rename_i h; rwa [h] at hp)
  · exact ConsoleEffect.refl s

/-- A MemRead that succeeds returns the cell as it leaves it (D4). -/
theorem memRead_value {a v : Word} {s t : State} (h : memRead a s = .ok v t) : v = t.cell a := by
  unfold memRead at h
  split at h
  · split at h
    · simp only [Dev.ok.injEq] at h; rw [← h.1, h.2]
    · simp at h
  · simp only [Dev.ok.injEq] at h; rw [← h.1, h.2]

/-- Outside POLL_TRIGGER a read has no side effect (R60). -/
theorem memRead_plain {a : Word} {s : State} (h : s.params.triggers a = false) : memRead a s = .ok (s.cell a) s := by
  simp [memRead, h]

theorem memRead_ok_effect {a v : Word} {s t : State} (h : memRead a s = .ok v t) : ConsoleEffect s t := by
  have := memRead_effect a s; rwa [h] at this

theorem memRead_failed_effect {a : Word} {op : DevOp} {s t : State} (h : memRead a s = .failed op t) :
    ConsoleEffect s t := by
  have := memRead_effect a s; rwa [h] at this

theorem writeBytes_effect (bs : List Byte) (s : State) : ConsoleEffect s (writeBytes bs s).state := by
  induction bs generalizing s with
  | nil => exact ConsoleEffect.refl s
  | cons b bs ih =>
    have hb := devWriteChar_effect b s
    rw [writeBytes]
    split <;> (rename_i h; rw [h] at hb)
    · exact hb.trans (ih _)
    · exact hb

end Sys2Proof.Machine
end

