-- ==== Sys2Proof/Laws/Decode.lean ====
section
/-! SUPPORT. The decoder read opcode by opcode: what a word decodes to once its bits 15..12 are known (R81, R87). -/

namespace Sys2Proof

variable {w : Word}

theorem decode_op_br (h : w.extractLsb 15 12 = 0b0000#4) :
    decode w = .br (w.getLsbD 11) (w.getLsbD 10) (w.getLsbD 9) (w.extractLsb 8 0) := by
  unfold decode; rw [h]; rfl

theorem decode_op_add (h : w.extractLsb 15 12 = 0b0001#4) :
    decode w = if w.getLsbD 5 then .addI (w.extractLsb 11 9) (w.extractLsb 8 6) (w.extractLsb 4 0)
      else .addR (w.extractLsb 11 9) (w.extractLsb 8 6) (w.extractLsb 2 0) := by
  unfold decode; rw [h]; rfl

theorem decode_op_ld (h : w.extractLsb 15 12 = 0b0010#4) :
    decode w = .ld (w.extractLsb 11 9) (w.extractLsb 8 0) := by
  unfold decode; rw [h]; rfl

theorem decode_op_st (h : w.extractLsb 15 12 = 0b0011#4) :
    decode w = .st (w.extractLsb 11 9) (w.extractLsb 8 0) := by
  unfold decode; rw [h]; rfl

theorem decode_op_jsr (h : w.extractLsb 15 12 = 0b0100#4) :
    decode w = if w.getLsbD 11 then .jsr (w.extractLsb 10 0) else .jsrr (w.extractLsb 8 6) := by
  unfold decode; rw [h]; rfl

theorem decode_op_and (h : w.extractLsb 15 12 = 0b0101#4) :
    decode w = if w.getLsbD 5 then .andI (w.extractLsb 11 9) (w.extractLsb 8 6) (w.extractLsb 4 0)
      else .andR (w.extractLsb 11 9) (w.extractLsb 8 6) (w.extractLsb 2 0) := by
  unfold decode; rw [h]; rfl

theorem decode_op_ldr (h : w.extractLsb 15 12 = 0b0110#4) :
    decode w = .ldr (w.extractLsb 11 9) (w.extractLsb 8 6) (w.extractLsb 5 0) := by
  unfold decode; rw [h]; rfl

theorem decode_op_str (h : w.extractLsb 15 12 = 0b0111#4) :
    decode w = .str (w.extractLsb 11 9) (w.extractLsb 8 6) (w.extractLsb 5 0) := by
  unfold decode; rw [h]; rfl

theorem decode_op_rti (h : w.extractLsb 15 12 = 0b1000#4) :
    decode w = .rti (w.extractLsb 11 0) := by
  unfold decode; rw [h]; rfl

theorem decode_op_not (h : w.extractLsb 15 12 = 0b1001#4) :
    decode w = .not (w.extractLsb 11 9) (w.extractLsb 8 6) := by
  unfold decode; rw [h]; rfl

theorem decode_op_ldi (h : w.extractLsb 15 12 = 0b1010#4) :
    decode w = .ldi (w.extractLsb 11 9) (w.extractLsb 8 0) := by
  unfold decode; rw [h]; rfl

theorem decode_op_sti (h : w.extractLsb 15 12 = 0b1011#4) :
    decode w = .sti (w.extractLsb 11 9) (w.extractLsb 8 0) := by
  unfold decode; rw [h]; rfl

theorem decode_op_jmp (h : w.extractLsb 15 12 = 0b1100#4) :
    decode w = decodeJump (w.extractLsb 8 6) := by
  unfold decode; rw [h]; rfl

theorem decode_op_reserved (h : w.extractLsb 15 12 = 0b1101#4) :
    decode w = .reserved (w.extractLsb 11 0) := by
  unfold decode; rw [h]; rfl

theorem decode_op_lea (h : w.extractLsb 15 12 = 0b1110#4) :
    decode w = .lea (w.extractLsb 11 9) (w.extractLsb 8 0) := by
  unfold decode; rw [h]; rfl

theorem decode_op_trap (h : w.extractLsb 15 12 = 0b1111#4) :
    decode w = decodeTrap (w.extractLsb 7 0) := by
  unfold decode; rw [h]; rfl

end Sys2Proof
end

