-- ==== Sys2Proof/Laws/Routines.lean ====
section
/-! SUPPORT. What a service routine can do, said once for each routine (R182, R190, R193): it always answers a next
state, and that state is related to the one before by `RoutineEffect`. -/

namespace Sys2Proof.Machine

/-- `t` is what a service routine leaves of `s`.  `inp` says that the routine is one of the two that read a byte into
R0 (R183, R187), `stops` that it is HALT. -/
structure RoutineEffect (inp stops : Bool) (s t : State) : Prop where
  regs : t.regs = s.regs ∨ (inp = true ∧ ∃ c, t.regs = s.regs.set 0#3 (zext16 c))
  cond : t.cond = s.cond ∨ (inp = true ∧ s.params.trapInputSetsCond = true)
  pc : t.pc = s.pc
  running : t.running = s.running ∨ (stops = true ∧ t.running = false)
  fault : t.fault = s.fault ∨ ∃ op, t.fault = some (.deviceError s.instrAddr op)
  held : t.held = s.held ∨ (stops = false ∧ t.held.isSome = true)
  params : t.params = s.params
  cells : ∀ a, a ≠ s.params.kbsrAddr → a ≠ s.params.kbdrAddr → t.cell a = s.cell a
  wf : s.mem.wf = true → t.mem.wf = true
  output : s.console.output <+: t.console.output
  input : t.console.input <:+ s.console.input
  closed : t.console.inputClosed = s.console.inputClosed

theorem RoutineEffect.ofConsole {inp stops : Bool} {s t : State} (h : ConsoleEffect s t) :
    RoutineEffect inp stops s t where
  regs := .inl h.regs
  cond := .inl h.cond
  pc := h.pc
  running := .inl h.running
  fault := .inl h.fault
  held := .inl h.held
  params := h.params
  cells := h.cells
  wf := h.wf
  output := h.output
  input := h.input
  closed := h.closed

theorem RoutineEffect.after {inp stops : Bool} {s t u : State} (h : ConsoleEffect s t)
    (k : RoutineEffect inp stops t u) : RoutineEffect inp stops s u where
  regs := by rw [← h.regs]; exact k.regs
  cond := by rw [← h.cond, ← h.params]; exact k.cond
  pc := k.pc.trans h.pc
  running := by rw [← h.running]; exact k.running
  fault := by rw [← h.fault, ← h.instrAddr]; exact k.fault
  held := by rw [← h.held]; exact k.held
  params := k.params.trans h.params
  cells a h1 h2 := (k.cells a (h.params ▸ h1) (h.params ▸ h2)).trans (h.cells a h1 h2)
  wf w := k.wf (h.wf w)
  output := h.output.trans k.output
  input := k.input.trans h.input
  closed := k.closed.trans h.closed

/-- The routine raises `DeviceError` (R195). -/
theorem RoutineEffect.ofRaise {inp stops : Bool} (s : State) (op : DevOp) :
    RoutineEffect inp stops s { s with fault := some (.deviceError s.instrAddr op) } where
  regs := .inl rfl
  cond := .inl rfl
  pc := rfl
  running := .inl rfl
  fault := .inr ⟨op, rfl⟩
  held := .inl rfl
  params := rfl
  cells _ _ _ := rfl
  wf h := h
  output := List.prefix_rfl
  input := List.suffix_rfl
  closed := rfl

/-- The routine holds its step (R194, R186). -/
theorem RoutineEffect.ofHold {inp : Bool} (s : State) (h : Held) :
    RoutineEffect inp false s { s with held := some h } where
  regs := .inl rfl
  cond := .inl rfl
  pc := rfl
  running := .inl rfl
  fault := .inl rfl
  held := .inr ⟨rfl, rfl⟩
  params := rfl
  cells _ _ _ := rfl
  wf h := h
  output := List.prefix_rfl
  input := List.suffix_rfl
  closed := rfl

/-- The routine stores its byte into R0 (R183, R187). -/
theorem RoutineEffect.ofInput {stops : Bool} (s : State) (c : Byte) : RoutineEffect true stops s (s.storeInput c) where
  regs := .inr ⟨rfl, c, s.storeInput_regs c⟩
  cond := by
    rw [State.storeInput_cond]
    cases h : s.params.trapInputSetsCond
    · exact .inl rfl
    · exact .inr ⟨rfl, rfl⟩
  pc := s.storeInput_pc c
  running := .inl (s.storeInput_running c)
  fault := .inl (s.storeInput_fault c)
  held := .inl (s.storeInput_held c)
  params := s.storeInput_params c
  cells a _ _ := State.storeInput_cell s c a
  wf h := by rwa [State.storeInput_mem]
  output := by rw [State.storeInput_console]
  input := by rw [State.storeInput_console]
  closed := by rw [State.storeInput_console]

/-- A result is a next state with a property. -/
def Leads (r : Result) (P : State → Prop) : Prop := ∃ t, r = .next t ∧ P t

theorem Leads.next {P : State → Prop} {t : State} (h : P t) : Leads (.next t) P := ⟨t, rfl, h⟩

/-- Going on after an operation of a routine: the error of a failed primitive is a routine's effect too. -/
theorem Leads.andThen {α : Type} {inp stops : Bool} {s : State} {d : Dev α} {k : α → State → Result}
    (hd : ConsoleEffect s d.state)
    (hk : ∀ a t, d = .ok a t → ConsoleEffect s t → Leads (k a t) (RoutineEffect inp stops s)) :
    Leads (d.andThen s.instrAddr k) (RoutineEffect inp stops s) := by
  cases d with
  | ok a t => exact hk a t rfl hd
  | failed op t =>
    refine ⟨_, rfl, ?_⟩
    have hd' : ConsoleEffect s t := hd
    have := RoutineEffect.after (inp := inp) (stops := stops) hd' (RoutineEffect.ofRaise t op)
    rwa [hd'.instrAddr] at this

theorem Leads.after {inp stops : Bool} {s t : State} {r : Result} (h : ConsoleEffect s t)
    (k : Leads r (RoutineEffect inp stops t)) : Leads r (RoutineEffect inp stops s) := by
  obtain ⟨u, hu, e⟩ := k
  exact ⟨u, hu, RoutineEffect.after h e⟩

theorem flushEnd_leads {inp stops : Bool} (s : State) : Leads (flushEnd s) (RoutineEffect inp stops s) :=
  Leads.andThen (devFlush_effect s) fun _ _ _ h => Leads.next (RoutineEffect.ofConsole h)

theorem serveGetc_leads (s : State) : Leads (serveGetc s) (RoutineEffect true false s) := by
  unfold serveGetc
  split
  · rename_i h; exact Leads.next (RoutineEffect.after (devReadChar_effect h) (RoutineEffect.ofInput _ _))
  · exact Leads.next (RoutineEffect.ofHold s _)
  · exact Leads.next (RoutineEffect.ofRaise s _)

theorem serveOut_leads (s : State) : Leads (serveOut s) (RoutineEffect false false s) :=
  Leads.andThen (devWriteChar_effect _ s) fun _ t _ h => Leads.after h (flushEnd_leads t)

theorem putsLoop_leads (n : Nat) (p : Word) (s : State) :
    Leads (putsLoop n p s) (RoutineEffect false false s) := by
  induction n generalizing p s with
  | zero => exact Leads.next (RoutineEffect.ofHold s _)
  | succ n ih =>
    refine Leads.andThen (memRead_effect p s) fun w t _ h => ?_
    split
    · exact Leads.after h (flushEnd_leads t)
    · rw [← h.instrAddr]
      exact Leads.after h (Leads.andThen (devWriteChar_effect _ t) fun _ u _ k => Leads.after k (ih _ u))

theorem serveInRead_leads (s : State) : Leads (serveInRead s) (RoutineEffect true false s) := by
  unfold serveInRead
  split
  · rename_i c t h
    have ht := devReadChar_effect h
    rw [← ht.instrAddr]
    refine Leads.after ht (Leads.andThen (devWriteChar_effect c t) fun _ u _ k => ?_)
    rw [← k.instrAddr]
    exact Leads.after k (Leads.andThen (devFlush_effect u) fun _ v _ l =>
      Leads.next (RoutineEffect.after l (RoutineEffect.ofInput v c)))
  · exact Leads.next (RoutineEffect.ofHold s _)
  · exact Leads.next (RoutineEffect.ofRaise s _)

theorem serveIn_leads (s : State) : Leads (serveIn s) (RoutineEffect true false s) := by
  refine Leads.andThen (writeBytes_effect _ s) fun _ t _ h => ?_
  rw [← h.instrAddr]
  exact Leads.after h (Leads.andThen (devFlush_effect t) fun _ u _ k => Leads.after k (serveInRead_leads u))

theorem putspLiteral_leads (n : Nat) (p : Word) (s : State) :
    Leads (putspLiteral n p s) (RoutineEffect false false s) := by
  induction n generalizing p s with
  | zero => exact Leads.next (RoutineEffect.ofHold s _)
  | succ n ih =>
    refine Leads.andThen (memRead_effect p s) fun w t _ h => ?_
    split
    · exact Leads.after h (flushEnd_leads t)
    · rw [← h.instrAddr]
      refine Leads.after h (Leads.andThen (devWriteChar_effect _ t) fun _ u _ k => ?_)
      split
      · exact Leads.after k (flushEnd_leads u)
      · rw [← k.instrAddr]
        exact Leads.after k (Leads.andThen (devWriteChar_effect _ u) fun _ v _ l => Leads.after l (ih _ v))

theorem putspWordwise_leads (n : Nat) (p : Word) (s : State) :
    Leads (putspWordwise n p s) (RoutineEffect false false s) := by
  induction n generalizing p s with
  | zero => exact Leads.next (RoutineEffect.ofHold s _)
  | succ n ih =>
    refine Leads.andThen (memRead_effect p s) fun w t _ h => ?_
    split
    · exact Leads.after h (flushEnd_leads t)
    · rw [← h.instrAddr]
      refine Leads.after h (Leads.andThen (devWriteChar_effect _ t) fun _ u _ k => ?_)
      split
      · exact Leads.after k (ih _ u)
      · rw [← k.instrAddr]
        exact Leads.after k (Leads.andThen (devWriteChar_effect _ u) fun _ v _ l => Leads.after l (ih _ v))

theorem putspFrom_leads (p : Word) (s : State) : Leads (putspFrom p s) (RoutineEffect false false s) := by
  unfold putspFrom
  split
  · exact putspLiteral_leads _ p s
  · exact putspWordwise_leads _ p s

theorem serveHalt_leads (s : State) : Leads (serveHalt s) (RoutineEffect false true s) := by
  refine Leads.andThen (devFlush_effect s) fun _ t _ h => Leads.next (RoutineEffect.after h ?_)
  exact
    { regs := .inl rfl
      cond := .inl rfl
      pc := rfl
      running := .inr ⟨rfl, rfl⟩
      fault := .inl rfl
      held := .inl rfl
      params := rfl
      cells := fun _ _ _ => rfl
      wf := id
      output := List.prefix_rfl
      input := List.suffix_rfl
      closed := rfl }

/-- One MemRead into DR (R132, R134, R136): the value and SetCC, or the error with DR and COND as they were. -/
theorem loadResult_cases (dr : RegIdx) (a : Word) (s : State) :
    (∃ v t, memRead a s = .ok v t ∧ loadResult dr a s = .next (t.setResult dr v)) ∨
    (∃ op t, memRead a s = .failed op t ∧
      loadResult dr a s = .next { t with fault := some (.deviceError s.instrAddr op) }) := by
  unfold loadResult
  cases h : memRead a s with
  | ok v t => exact .inl ⟨v, t, rfl, rfl⟩
  | failed op t => exact .inr ⟨op, t, rfl, rfl⟩

end Sys2Proof.Machine
end

