-- ==== Sys2Proof/Laws/Exec.lean ====
section
/-! SUPPORT. What an instruction can do to the state as a whole, said once for all instructions: the inversion lemma
`exec_effect`, from which the invariants of the step are derived. -/

namespace Sys2Proof.Machine

/-- `t` is what some instruction leaves of `s`, a state whose PC is the incremented one: memory keeps its canonical
form, the trace only grows, RUNNING is never set, an error names the instruction, and a routine that holds has R7 = PC. -/
structure ExecEffect (s t : State) : Prop where
  params : t.params = s.params
  wf : s.mem.wf = true → t.mem.wf = true
  output : s.console.output <+: t.console.output
  input : t.console.input <:+ s.console.input
  running : t.running = true → s.running = true
  fault : t.fault = s.fault ∨ ∃ e, t.fault = some e ∧ e.pc = s.pc - 1#16 ∧ t.pc = s.pc
  held : t.held = s.held ∨
    (t.held.isSome = true ∧ t.running = s.running ∧ t.reg 7#3 = s.pc ∧ t.pc = s.pc)

/-- An instruction that changes registers, PC and COND alone. -/
theorem ExecEffect.ofRegs {s t : State} (hp : t.params = s.params) (hm : t.mem = s.mem)
    (hc : t.console = s.console) (hr : t.running = s.running) (hf : t.fault = s.fault) (hh : t.held = s.held) :
    ExecEffect s t where
  params := hp
  wf h := hm ▸ h
  output := hc ▸ List.prefix_rfl
  input := hc ▸ List.suffix_rfl
  running h := hr ▸ h
  fault := .inl hf
  held := .inl hh

/-- A plain store. -/
theorem ExecEffect.ofStore (s : State) (a v : Word) : ExecEffect s (s.store a v) where
  params := rfl
  wf h := State.store_wf h a v
  output := List.prefix_rfl
  input := List.suffix_rfl
  running := id
  fault := .inl rfl
  held := .inl rfl

/-- A fatal error that names the instruction. -/
theorem ExecEffect.ofRaise (s : State) {e : ExecError} (h : e.pc = s.pc - 1#16) :
    ExecEffect s { s with fault := some e } where
  params := rfl
  wf := id
  output := List.prefix_rfl
  input := List.suffix_rfl
  running := id
  fault := .inr ⟨e, rfl, h, rfl⟩
  held := .inl rfl

theorem ExecEffect.after {s t u : State} (h : ConsoleEffect s t) (k : ExecEffect t u) : ExecEffect s u where
  params := k.params.trans h.params
  wf w := k.wf (h.wf w)
  output := h.output.trans k.output
  input := k.input.trans h.input
  running r := h.running ▸ k.running r
  fault := by
    rcases k.fault with f | ⟨e, he, hpc, ht⟩
    · exact .inl (f.trans h.fault)
    · exact .inr ⟨e, he, h.pc ▸ hpc, h.pc ▸ ht⟩
  held := by
    rcases k.held with f | ⟨hs, hr, h7, hpc⟩
    · exact .inl (f.trans h.held)
    · exact .inr ⟨hs, hr.trans h.running, h.pc ▸ h7, h.pc ▸ hpc⟩

/-- A service routine, run after the trap entry. -/
theorem ExecEffect.ofRoutine {inp stops : Bool} {s t : State} (h : RoutineEffect inp stops s.trapEntry t) :
    ExecEffect s t where
  params := h.params
  wf := h.wf
  output := h.output
  input := h.input
  running k := by
    rcases h.running with r | ⟨-, r⟩
    · exact r ▸ k
    · rw [r] at k; cases k
  fault := by
    rcases h.fault with f | ⟨op, f⟩
    · exact .inl f
    · exact .inr ⟨_, f, rfl, h.pc⟩
  held := by
    rcases h.held with f | ⟨hstop, f⟩
    · exact .inl f
    · refine .inr ⟨f, ?_, ?_, h.pc⟩
      · rcases h.running with r | ⟨r, -⟩
        · exact r
        · rw [r] at hstop; cases hstop
      · rcases h.regs with r | ⟨-, c, r⟩ <;> simp [State.reg, r, Regs.get_set]

theorem Leads.inv {r : Result} {P : State → Prop} {t : State} (h : Leads r P) (e : r = .next t) : P t := by
  obtain ⟨u, hu, hp⟩ := h
  rw [hu] at e; cases e; exact hp

theorem Leads.routine {inp stops : Bool} {r : Result} {s t : State}
    (h : Leads r (RoutineEffect inp stops s.trapEntry)) (e : r = .next t) : ExecEffect s t :=
  ExecEffect.ofRoutine (h.inv e)

/-- An instruction that begins with a MemRead. -/
theorem memRead_andThen_effect {a : Word} {s t : State} {k : Word → State → Result}
    (h : (memRead a s).andThen s.instrAddr k = .next t)
    (hk : ∀ v u, memRead a s = .ok v u → ConsoleEffect s u → k v u = .next t → ExecEffect u t) :
    ExecEffect s t := by
  cases hm : memRead a s with
  | ok v u =>
    rw [hm] at h
    exact ExecEffect.after (memRead_ok_effect hm) (hk v u hm (memRead_ok_effect hm) h)
  | failed op u =>
    have hc := memRead_failed_effect hm
    rw [hm] at h
    cases h
    exact ExecEffect.after hc (ExecEffect.ofRaise u (hc.instrAddr.symm))

theorem loadResult_effect {dr : RegIdx} {a : Word} {s t : State} (h : loadResult dr a s = .next t) :
    ExecEffect s t :=
  memRead_andThen_effect h fun _ u _ _ e => by
    cases e; exact ExecEffect.ofRegs rfl rfl rfl rfl rfl rfl

theorem dispatchTrap_effect {v : Byte} {s t : State} (h : dispatchTrap v s.trapEntry = .next t) :
    ExecEffect s t := by
  unfold dispatchTrap at h
  split at h
  · exact (serveGetc_leads _).routine h
  split at h
  · exact (serveOut_leads _).routine h
  split at h
  · exact (putsLoop_leads _ _ _).routine h
  split at h
  · exact (serveIn_leads _).routine h
  split at h
  · exact (putspFrom_leads _ _).routine h
  split at h
  · exact (serveHalt_leads _).routine h
  cases h
  exact
    { params := rfl
      wf := id
      output := List.prefix_rfl
      input := List.suffix_rfl
      running := id
      fault := .inr ⟨_, rfl, rfl, rfl⟩
      held := .inl rfl }

/-- Whatever instruction is executed, the next state is an `ExecEffect` of the state before. -/
theorem exec_effect {i : Instr} {s t : State} (h : exec i s = .next t) : ExecEffect s t := by
  cases i with
  | br =>
    cases h
    split <;> exact ExecEffect.ofRegs rfl rfl rfl rfl rfl rfl
  | addR | addI | andR | andI | not | lea | jmp | jsr | jsrr | ret =>
    cases h; exact ExecEffect.ofRegs rfl rfl rfl rfl rfl rfl
  | ld => exact loadResult_effect h
  | ldr => exact loadResult_effect h
  | ldi => exact memRead_andThen_effect h fun _ _ _ _ e => loadResult_effect e
  | st | str => cases h; exact ExecEffect.ofStore _ _ _
  | sti => exact memRead_andThen_effect h fun _ u _ _ e => by cases e; exact ExecEffect.ofStore _ _ _
  | rti | reserved => cases h; exact ExecEffect.ofRaise s rfl
  | trap => exact dispatchTrap_effect h
  | getc => exact (serveGetc_leads _).routine h
  | out => exact (serveOut_leads _).routine h
  | puts => exact (putsLoop_leads _ _ _).routine h
  | inp => exact (serveIn_leads _).routine h
  | putsp => exact (putspFrom_leads _ _).routine h
  | halt => exact (serveHalt_leads _).routine h

end Sys2Proof.Machine
end

