-- ==== Sys2Proof/Laws/PerInstr.lean ====
section
/-! SUPPORT. The per-instruction law `EncodingMatchesRow`: an instruction's word matches its row of the opcode table
(R94), one lemma per constructor. -/

namespace Sys2Proof.Laws.EncodingMatchesRow

/-- The word of an instruction matches the row it stands for: `(w & mask) = match` (R94). -/
def Statement (i : Instr) : Prop := encode i &&& i.row.mask = i.row.pattern

theorem br (n z p : Bool) (off : BitVec 9) : Statement (.br n z p off) := by
  unfold Statement Instr.row encode
  apply BitVec.eq_of_getLsbD_eq
  intro k hk
  simp only [BitVec.getLsbD_and, BitVec.getLsbD_append]
  interval_cases k <;> simp

theorem addR (dr sr1 sr2 : RegIdx) : Statement (.addR dr sr1 sr2) := by
  unfold Statement Instr.row encode
  apply BitVec.eq_of_getLsbD_eq
  intro k hk
  simp only [BitVec.getLsbD_and, BitVec.getLsbD_append]
  interval_cases k <;> simp

theorem addI (dr sr1 : RegIdx) (imm : BitVec 5) : Statement (.addI dr sr1 imm) := by
  unfold Statement Instr.row encode
  apply BitVec.eq_of_getLsbD_eq
  intro k hk
  simp only [BitVec.getLsbD_and, BitVec.getLsbD_append]
  interval_cases k <;> simp

theorem ld (dr : RegIdx) (off : BitVec 9) : Statement (.ld dr off) := by
  unfold Statement Instr.row encode
  apply BitVec.eq_of_getLsbD_eq
  intro k hk
  simp only [BitVec.getLsbD_and, BitVec.getLsbD_append]
  interval_cases k <;> simp

theorem st (sr : RegIdx) (off : BitVec 9) : Statement (.st sr off) := by
  unfold Statement Instr.row encode
  apply BitVec.eq_of_getLsbD_eq
  intro k hk
  simp only [BitVec.getLsbD_and, BitVec.getLsbD_append]
  interval_cases k <;> simp

theorem jsr (off : BitVec 11) : Statement (.jsr off) := by
  unfold Statement Instr.row encode
  apply BitVec.eq_of_getLsbD_eq
  intro k hk
  simp only [BitVec.getLsbD_and, BitVec.getLsbD_append]
  interval_cases k <;> simp

theorem jsrr (base : RegIdx) : Statement (.jsrr base) := by
  unfold Statement Instr.row encode
  apply BitVec.eq_of_getLsbD_eq
  intro k hk
  simp only [BitVec.getLsbD_and, BitVec.getLsbD_append]
  interval_cases k <;> simp

theorem andR (dr sr1 sr2 : RegIdx) : Statement (.andR dr sr1 sr2) := by
  unfold Statement Instr.row encode
  apply BitVec.eq_of_getLsbD_eq
  intro k hk
  simp only [BitVec.getLsbD_and, BitVec.getLsbD_append]
  interval_cases k <;> simp

theorem andI (dr sr1 : RegIdx) (imm : BitVec 5) : Statement (.andI dr sr1 imm) := by
  unfold Statement Instr.row encode
  apply BitVec.eq_of_getLsbD_eq
  intro k hk
  simp only [BitVec.getLsbD_and, BitVec.getLsbD_append]
  interval_cases k <;> simp

theorem ldr (dr base : RegIdx) (off : BitVec 6) : Statement (.ldr dr base off) := by
  unfold Statement Instr.row encode
  apply BitVec.eq_of_getLsbD_eq
  intro k hk
  simp only [BitVec.getLsbD_and, BitVec.getLsbD_append]
  interval_cases k <;> simp

theorem str (sr base : RegIdx) (off : BitVec 6) : Statement (.str sr base off) := by
  unfold Statement Instr.row encode
  apply BitVec.eq_of_getLsbD_eq
  intro k hk
  simp only [BitVec.getLsbD_and, BitVec.getLsbD_append]
  interval_cases k <;> simp

theorem rti (low : BitVec 12) : Statement (.rti low) := by
  unfold Statement Instr.row encode
  apply BitVec.eq_of_getLsbD_eq
  intro k hk
  simp only [BitVec.getLsbD_and, BitVec.getLsbD_append]
  interval_cases k <;> simp

theorem not (dr sr : RegIdx) : Statement (.not dr sr) := by
  unfold Statement Instr.row encode
  apply BitVec.eq_of_getLsbD_eq
  intro k hk
  simp only [BitVec.getLsbD_and, BitVec.getLsbD_append]
  interval_cases k <;> simp

theorem ldi (dr : RegIdx) (off : BitVec 9) : Statement (.ldi dr off) := by
  unfold Statement Instr.row encode
  apply BitVec.eq_of_getLsbD_eq
  intro k hk
  simp only [BitVec.getLsbD_and, BitVec.getLsbD_append]
  interval_cases k <;> simp

theorem sti (sr : RegIdx) (off : BitVec 9) : Statement (.sti sr off) := by
  unfold Statement Instr.row encode
  apply BitVec.eq_of_getLsbD_eq
  intro k hk
  simp only [BitVec.getLsbD_and, BitVec.getLsbD_append]
  interval_cases k <;> simp

theorem jmp (base : RegIdx) : Statement (.jmp base) := by
  unfold Statement Instr.row encode
  apply BitVec.eq_of_getLsbD_eq
  intro k hk
  simp only [BitVec.getLsbD_and, BitVec.getLsbD_append]
  interval_cases k <;> simp

theorem reserved (low : BitVec 12) : Statement (.reserved low) := by
  unfold Statement Instr.row encode
  apply BitVec.eq_of_getLsbD_eq
  intro k hk
  simp only [BitVec.getLsbD_and, BitVec.getLsbD_append]
  interval_cases k <;> simp

theorem lea (dr : RegIdx) (off : BitVec 9) : Statement (.lea dr off) := by
  unfold Statement Instr.row encode
  apply BitVec.eq_of_getLsbD_eq
  intro k hk
  simp only [BitVec.getLsbD_and, BitVec.getLsbD_append]
  interval_cases k <;> simp

theorem trap (vect : Byte) : Statement (.trap vect) := by
  unfold Statement Instr.row encode
  apply BitVec.eq_of_getLsbD_eq
  intro k hk
  simp only [BitVec.getLsbD_and, BitVec.getLsbD_append]
  interval_cases k <;> simp

theorem getc : Statement (.getc) := rfl

theorem out : Statement (.out) := rfl

theorem puts : Statement (.puts) := rfl

theorem inp : Statement (.inp) := rfl

theorem putsp : Statement (.putsp) := rfl

theorem halt : Statement (.halt) := rfl

theorem ret : Statement (.ret) := rfl

end Sys2Proof.Laws.EncodingMatchesRow
end

