-- ==== Sys2Proof/Laws/Step.lean ====
section
/-! SUPPORT. The cases of one step (R170), a run's first step, and that reset memory is canonical. -/

namespace Sys2Proof.Machine

/-- The memory of the reset state lists nothing, so it is canonical. -/
theorem reset_mem_wf : State.reset.mem.wf = true := rfl

/-- What a step that answers a next state did: nothing, on a halted machine; a held routine's continuation; an
instruction after its fetch; or a fetch that failed. -/
theorem step_cases {s t : State} (h : step s = .next t) :
    s.fault = none ∧
      ((s.running = false ∧ t = s) ∨
       (∃ k, s.running = true ∧ s.held = some k ∧ resume k s = .next t) ∨
       (∃ w u, s.running = true ∧ s.held = none ∧ memRead s.pc s = .ok w u ∧ exec (decode w) u.advance = .next t) ∨
       (∃ op u, s.running = true ∧ s.held = none ∧ memRead s.pc s = .failed op u ∧
         t = { u with fault := some (.deviceError s.pc op) })) := by
  unfold step at h
  split at h
  · cases h
  refine ⟨‹_›, ?_⟩
  split at h
  · split at h
    · exact .inr (.inl ⟨_, ‹_›, ‹_›, h⟩)
    · unfold fetch at h
      cases hm : memRead s.pc s with
      | ok w u => rw [hm] at h; exact .inr (.inr (.inl ⟨w, u, ‹_›, ‹_›, rfl, h⟩))
      | failed op u => rw [hm] at h; cases h; exact .inr (.inr (.inr ⟨op, u, ‹_›, ‹_›, rfl, rfl⟩))
  · cases h
    exact .inl ⟨by simpa using ‹¬ s.running = true›, rfl⟩

/-- A held routine is one of the routines, on the state without the hold. -/
theorem resume_effect {k : Held} {s t : State} (h : resume k s = .next t) :
    ∃ inp, RoutineEffect inp false { s with held := none } t := by
  cases k with
  | getc => exact ⟨true, (serveGetc_leads _).inv h⟩
  | inp => exact ⟨true, (serveInRead_leads _).inv h⟩
  | puts p => exact ⟨false, (putsLoop_leads _ _ _).inv h⟩
  | putsp p => exact ⟨false, (putspFrom_leads _ _).inv h⟩

theorem core_run_succ_of (M : Host.Core) (k : Nat) (s t : M.State) (h : M.step s = .next t) :
    M.run (k + 1) s = M.run k t := by
  rw [Host.Core.run, h]

/-- A run of k+1 steps is a step and a run of k. -/
theorem run_succ {k : Nat} {s t : State} (h : step s = .next t) :
    Sys2Proof.core.run (k + 1) s = Sys2Proof.core.run k t := core_run_succ_of Sys2Proof.core k s t h

/-! ### Runs among the host's moves -/

/-- One move changes the console alone. -/
theorem HostMove.apply_console (m : HostMove) (s : State) : m.apply s = { s with console := (m.apply s).console } := by
  cases m with
  | deliver b => by_cases h : s.console.inputClosed = true <;> simp [HostMove.apply, h, State.deliver]
  | closeInput | polls | writes | flushes => rfl

theorem State.hostMoves_cons (s : State) (m : HostMove) (ms : List HostMove) :
    s.hostMoves (m :: ms) = (m.apply s).hostMoves ms := rfl

/-- The host's moves change the console alone (D27). -/
theorem State.hostMoves_console (s : State) (ms : List HostMove) :
    s.hostMoves ms = { s with console := (s.hostMoves ms).console } := by
  induction ms generalizing s with
  | nil => rfl
  | cons m ms ih =>
    have h := ih (m.apply s)
    have hm := m.apply_console s
    rw [State.hostMoves_cons]
    generalize (m.apply s).hostMoves ms = v at h ⊢
    rw [h, hm]

@[simp] theorem State.hostMoves_running (s : State) (ms : List HostMove) : (s.hostMoves ms).running = s.running := by
  rw [s.hostMoves_console ms]
@[simp] theorem State.hostMoves_fault (s : State) (ms : List HostMove) : (s.hostMoves ms).fault = s.fault := by
  rw [s.hostMoves_console ms]
@[simp] theorem State.hostMoves_held (s : State) (ms : List HostMove) : (s.hostMoves ms).held = s.held := by
  rw [s.hostMoves_console ms]

theorem runIn_succ {env : Env} {k : Nat} {s t : State} (h : runIn env k s = .next t) :
    runIn env (k + 1) s = step (t.hostMoves (env k)) := by
  rw [runIn, h]

/-- A run of k+1 steps that is there has a run of k before it. -/
theorem runIn_prev {env : Env} {k : Nat} {s t : State} (h : runIn env (k + 1) s = .next t) :
    ∃ u, runIn env k s = .next u ∧ step (u.hostMoves (env k)) = .next t := by
  rw [runIn] at h
  split at h
  · exact ⟨_, ‹_›, h⟩
  · cases h
  · cases h

/-- A run that is there is there at every earlier step. -/
theorem runIn_earlier {env : Env} {j k : Nat} {s t : State} (hjk : j ≤ k) (h : runIn env k s = .next t) :
    ∃ u, runIn env j s = .next u := by
  induction k generalizing t with
  | zero => exact ⟨t, Nat.le_zero.1 hjk ▸ h⟩
  | succ k ih =>
    rcases Nat.le_succ_iff.1 hjk with hj | rfl
    · obtain ⟨u, hu, -⟩ := runIn_prev h
      exact ih hj hu
    · exact ⟨t, h⟩

end Sys2Proof.Machine
end

