-- ==== Sys2Proof/Laws/Strings.lean ====
section
/-! SUPPORT. Writing a byte string, and the loops of PUTS and PUTSP over a string that stands in plain cells, each said
once: the loop writes the string's bytes and ends with the flush (R185, R188, R189). -/

namespace Sys2Proof.Machine

theorem Draws.nth_zero {α : Type} (d : Draws α) : d.nth 0 = d.head := by
  cases h : d.pending <;> simp [Draws.nth, Draws.head, h]

theorem Draws.nth_tail {α : Type} (d : Draws α) (n : Nat) : d.tail.nth n = d.nth (n + 1) := by
  cases h : d.pending <;> simp [Draws.nth, Draws.tail, h]

/-- A console whose output operations all succeed takes any number of bytes. -/
theorem Console.acceptsAll.nth_ok {c : Console} (h : c.acceptsAll) (n : Nat) :
    c.writes.nth n = .ok ∧ c.flushes.nth n = .ok := by
  obtain ⟨hw, hwr, hf, hfr⟩ := h
  simp only [Draws.nth, List.getD_eq_getElem?_getD]
  constructor
  · cases e : c.writes.pending[n]? with
    | none => simpa using hwr
    | some x => simpa using hw x (List.mem_of_getElem? e)
  · cases e : c.flushes.pending[n]? with
    | none => simpa using hfr
    | some x => simpa using hf x (List.mem_of_getElem? e)

theorem Console.acceptsAll.takes {c : Console} (h : c.acceptsAll) (n : Nat) : c.takes n :=
  fun k _ => (h.nth_ok k).1

theorem devWriteChar_ok {s : State} (b : Byte) (h : s.console.writes.head = .ok) :
    devWriteChar b s = .ok () (s.wrote b) := by
  simp [devWriteChar, h, State.wrote]

theorem devWriteChar_fails {s : State} (b : Byte) (h : s.console.writes.head = .fails) :
    devWriteChar b s = .failed .writeChar { s with console := { s.console with writes := s.console.writes.tail } } := by
  simp [devWriteChar, h]

theorem flushEnd_ok {s : State} (h : s.console.flushes.head = .ok) : flushEnd s = .next s.flushedOut := by
  simp [flushEnd, devFlush, h, State.flushedOut, Dev.andThen]

theorem flushEnd_fails {s : State} (h : s.console.flushes.head = .fails) : flushEnd s = .next s.flushFailed := by
  simp [flushEnd, devFlush, h, State.flushFailed, Dev.andThen, raise, State.instrAddr]

theorem writeBytes_append (bs cs : List Byte) (s : State) :
    writeBytes (bs ++ cs) s =
      match writeBytes bs s with
      | .ok _ t => writeBytes cs t
      | .failed op t => .failed op t := by
  induction bs generalizing s with
  | nil => rfl
  | cons b bs ih =>
    rw [List.cons_append, writeBytes, writeBytes]
    cases devWriteChar b s with
    | ok _ t => exact ih t
    | failed op t => rfl

/-- `t` is `s` with the bytes `out` written, each in an output operation that succeeded. -/
structure WroteBytes (out : List Byte) (s t : State) : Prop where
  rest : t = { s with console := t.console }
  output : t.console.output = s.console.output ++ out.map .char
  input : t.console.input = s.console.input
  closed : t.console.inputClosed = s.console.inputClosed
  flushes : t.console.flushes = s.console.flushes

theorem WroteBytes.cons {b : Byte} {out : List Byte} {s t : State} (h : WroteBytes out (s.wrote b) t) :
    WroteBytes (b :: out) s t where
  rest := h.rest
  output := by simp [h.output, State.wrote]
  input := h.input
  closed := h.closed
  flushes := h.flushes

/-- A byte string is written whole where the console takes that many bytes. -/
theorem writeBytes_takes {bs : List Byte} {s : State} (h : s.console.takes bs.length) :
    ∃ t, writeBytes bs s = .ok () t ∧ WroteBytes bs s t ∧
      ∀ k, t.console.writes.nth k = s.console.writes.nth (k + bs.length) := by
  induction bs generalizing s with
  | nil => exact ⟨s, rfl, ⟨rfl, by simp, rfl, rfl, rfl⟩, fun _ => rfl⟩
  | cons b bs ih =>
    have h0 : s.console.writes.head = .ok := Draws.nth_zero s.console.writes ▸ h 0 (by simp)
    obtain ⟨t, ht, hw, hn⟩ := ih (s := s.wrote b) fun k hk => by
      rw [State.wrote, Draws.nth_tail]; exact h (k + 1) (by simpa using hk)
    refine ⟨t, by rw [writeBytes, devWriteChar_ok b h0]; exact ht, hw.cons, fun k => ?_⟩
    rw [hn, State.wrote, Draws.nth_tail, List.length_cons]
    rfl

/-- Where the first output that fails is that of byte `n`, the bytes before it are written and the write fails. -/
theorem writeBytes_fails {bs : List Byte} {s : State} {n : Nat} (hn : n < bs.length)
    (h : s.console.firstBadWrite n) :
    ∃ t, writeBytes bs s = .failed .writeChar t ∧ WroteBytes (bs.take n) s t := by
  induction bs generalizing s n with
  | nil => exact absurd hn (by simp)
  | cons b bs ih =>
    obtain ⟨hok, hbad⟩ := h
    cases n with
    | zero =>
      rw [Draws.nth_zero] at hbad
      exact ⟨{ s with console := { s.console with writes := s.console.writes.tail } },
        by rw [writeBytes, devWriteChar_fails b hbad], ⟨rfl, by simp, rfl, rfl, rfl⟩⟩
    | succ n =>
      have h0 : s.console.writes.head = .ok := Draws.nth_zero s.console.writes ▸ hok 0 (by simp)
      obtain ⟨t, ht, hw⟩ := ih (s := s.wrote b) (n := n) (by simpa using hn)
        ⟨fun k hk => by rw [State.wrote, Draws.nth_tail]; exact hok (k + 1) (by omega),
          by rw [State.wrote, Draws.nth_tail]; exact hbad⟩
      exact ⟨t, by rw [writeBytes, devWriteChar_ok b h0]; exact ht, hw.cons⟩

/-! ### Strings in plain cells -/

/-- The first Word of a string, and the string after it. -/
theorem State.holdsWords.head {s : State} {p w : Word} {ws : List Word} (h : s.holdsWords p (w :: ws)) :
    s.cell p = w ∧ s.params.triggers p = false := by
  obtain ⟨hc, ht⟩ := h 0 (by simp)
  rw [BitVec.add_zero] at hc ht
  exact ⟨hc, ht⟩

theorem State.holdsWords.tail {s : State} {p w : Word} {ws : List Word} (h : s.holdsWords p (w :: ws)) :
    s.holdsWords (p + 1#16) ws := by
  intro k hk
  have e : p + 1#16 + BitVec.ofNat 16 k = p + BitVec.ofNat 16 (k + 1) := by
    rw [BitVec.add_assoc, Nat.add_comm k 1, BitVec.ofNat_add]
  rw [e]
  exact h (k + 1) (by simpa using hk)

/-- A string stands in memory whatever the console and the control state are. -/
theorem State.holdsWords.congr {s t : State} {p : Word} {ws : List Word} (h : s.holdsWords p ws)
    (hm : t.mem = s.mem) (hp : t.params = s.params) : t.holdsWords p ws := by
  intro k hk
  have := h k hk
  simpa only [State.cell, hm, hp] using this

theorem State.holdsWords.read {s : State} {p w : Word} {ws : List Word} (h : s.holdsWords p (w :: ws)) :
    memRead p s = .ok w s := by
  rw [memRead_plain h.head.2, h.head.1]

/-- How a routine that writes a byte string goes on: the string, then a flush. -/
def writeThenFlush (bs : List Byte) (s : State) : Result :=
  (writeBytes bs s).andThen s.instrAddr fun _ t => flushEnd t

@[simp] theorem State.wrote_instrAddr (s : State) (b : Byte) : (s.wrote b).instrAddr = s.instrAddr := rfl

theorem writeThenFlush_cons (b : Byte) (bs : List Byte) (s : State) :
    writeThenFlush (b :: bs) s =
      (devWriteChar b s).andThen s.instrAddr fun _ t => writeThenFlush bs t := by
  unfold writeThenFlush
  rw [writeBytes]
  cases h : s.console.writes.head with
  | ok => rw [devWriteChar_ok b h]; rfl
  | fails => rw [devWriteChar_fails b h]; rfl

/-- The string and the flush succeed. -/
theorem writeThenFlush_takes {bs : List Byte} {s : State} (h : s.console.takes bs.length)
    (hf : s.console.flushes.nth 0 = .ok) :
    ∃ t, writeThenFlush bs s = .next t.flushedOut ∧ WroteBytes bs s t := by
  obtain ⟨t, ht, hw, -⟩ := writeBytes_takes h
  refine ⟨t, ?_, hw⟩
  rw [writeThenFlush, ht]
  exact flushEnd_ok (by rw [← Draws.nth_zero, hw.flushes]; exact hf)

/-- The output of byte `n` is the first that fails. -/
theorem writeThenFlush_badWrite {bs : List Byte} {s : State} {n : Nat} (hn : n < bs.length)
    (h : s.console.firstBadWrite n) :
    ∃ t, writeThenFlush bs s = .next { t with fault := some (.deviceError (s.pc - 1#16) .writeChar) } ∧
      WroteBytes (bs.take n) s t := by
  obtain ⟨t, ht, hw⟩ := writeBytes_fails hn h
  exact ⟨t, by rw [writeThenFlush, ht]; rfl, hw⟩

/-- The string is written, and the flush fails. -/
theorem writeThenFlush_badFlush {bs : List Byte} {s : State} (h : s.console.takes bs.length)
    (hf : s.console.flushes.nth 0 = .fails) :
    ∃ t, writeThenFlush bs s = .next t.flushFailed ∧ WroteBytes bs s t := by
  obtain ⟨t, ht, hw, -⟩ := writeBytes_takes h
  refine ⟨t, ?_, hw⟩
  rw [writeThenFlush, ht]
  exact flushEnd_fails (by rw [← Draws.nth_zero, hw.flushes]; exact hf)

/-- Going on alike after a write is going on alike in the state after a byte written. -/
theorem devWriteChar_andThen_congr {b : Byte} {s : State} {pc : Word} {k l : Unit → State → Result}
    (h : k () (s.wrote b) = l () (s.wrote b)) :
    (devWriteChar b s).andThen pc k = (devWriteChar b s).andThen pc l := by
  cases hw : s.console.writes.head with
  | ok => rw [devWriteChar_ok b hw]; exact h
  | fails => rw [devWriteChar_fails b hw]; rfl

/-- PUTS over a string that ends within the loop's count writes the string and flushes (R185). -/
theorem putsLoop_string {ws : List Word} {n : Nat} {p : Word} {s : State} (h0 : ∀ w ∈ ws, w ≠ 0x0000#16)
    (h : s.holdsWords p (ws ++ [0x0000#16])) (hn : ws.length < n) :
    putsLoop n p s = writeThenFlush (putsBytes ws) s := by
  induction ws generalizing n p s with
  | nil =>
    cases n with
    | zero => exact absurd hn (by simp)
    | succ n => rw [putsLoop, h.read]; rfl
  | cons w ws ih =>
    cases n with
    | zero => exact absurd hn (by simp)
    | succ n =>
      have hw : w ≠ 0x0000#16 := h0 w (by simp)
      rw [putsLoop, State.holdsWords.read (by simpa using h), putsBytes, List.map_cons, writeThenFlush_cons]
      simp only [Dev.andThen, if_neg hw]
      exact devWriteChar_andThen_congr
        (ih (fun v hv => h0 v (by simp [hv])) (State.holdsWords.congr (State.holdsWords.tail h) rfl rfl)
          (by simpa using hn))

/-- PUTSP under WORDWISE over a string that ends within the loop's count (R189). -/
theorem putspWordwise_string {ws : List Word} {n : Nat} {p : Word} {s : State} (h0 : ∀ w ∈ ws, w ≠ 0x0000#16)
    (h : s.holdsWords p (ws ++ [0x0000#16])) (hn : ws.length < n) :
    putspWordwise n p s = writeThenFlush (wordwiseBytes ws) s := by
  induction ws generalizing n p s with
  | nil =>
    cases n with
    | zero => exact absurd hn (by simp)
    | succ n => rw [putspWordwise, h.read]; rfl
  | cons w ws ih =>
    cases n with
    | zero => exact absurd hn (by simp)
    | succ n =>
      have hw : w ≠ 0x0000#16 := h0 w (by simp)
      have next : ∀ t : State, t.mem = s.mem → t.params = s.params →
          putspWordwise n (p + 1#16) t = writeThenFlush (wordwiseBytes ws) t := fun t hm hp =>
        ih (fun v hv => h0 v (by simp [hv])) (State.holdsWords.congr (State.holdsWords.tail h) hm hp)
          (by simpa using hn)
      rw [putspWordwise, State.holdsWords.read (by simpa using h)]
      simp only [Dev.andThen, if_neg hw]
      by_cases hh : highByte w = 0x00#8
      · rw [wordwiseBytes, List.flatMap_cons, if_pos hh, List.singleton_append, writeThenFlush_cons]
        exact devWriteChar_andThen_congr (by simp only [if_pos hh]; exact next _ rfl rfl)
      · rw [wordwiseBytes, List.flatMap_cons, if_neg hh, List.cons_append, List.singleton_append,
          writeThenFlush_cons]
        refine devWriteChar_andThen_congr ?_
        simp only [if_neg hh]
        rw [writeThenFlush_cons]
        exact devWriteChar_andThen_congr (next _ rfl rfl)

/-- PUTSP under LITERAL over a string that ends within the loop's count (R188). -/
theorem putspLiteral_string {ws : List Word} {last : Word} {n : Nat} {p : Word} {s : State}
    (h0 : ∀ w ∈ ws, lowByte w ≠ 0x00#8 ∧ highByte w ≠ 0x00#8)
    (hl : lowByte last = 0x00#8 ∨ highByte last = 0x00#8) (h : s.holdsWords p (ws ++ [last]))
    (hn : ws.length < n) : putspLiteral n p s = writeThenFlush (literalBytes ws last) s := by
  induction ws generalizing n p s with
  | nil =>
    cases n with
    | zero => exact absurd hn (by simp)
    | succ n =>
      rw [putspLiteral, h.read]
      simp only [Dev.andThen, literalBytes, List.flatMap_nil, List.nil_append]
      by_cases hz : lowByte last = 0x00#8
      · simp only [if_pos hz]; rfl
      · have hh : highByte last = 0x00#8 := hl.resolve_left hz
        simp only [if_neg hz]
        rw [writeThenFlush_cons]
        exact devWriteChar_andThen_congr (by simp only [if_pos hh]; rfl)
  | cons w ws ih =>
    cases n with
    | zero => exact absurd hn (by simp)
    | succ n =>
      obtain ⟨hlo, hhi⟩ := h0 w (by simp)
      rw [putspLiteral, State.holdsWords.read (by simpa using h)]
      simp only [Dev.andThen, if_neg hlo]
      have e : literalBytes (w :: ws) last = lowByte w :: highByte w :: literalBytes ws last := by
        simp [literalBytes]
      rw [e, writeThenFlush_cons]
      refine devWriteChar_andThen_congr ?_
      simp only [if_neg hhi]
      rw [writeThenFlush_cons]
      exact devWriteChar_andThen_congr
        (ih (fun v hv => h0 v (by simp [hv])) (State.holdsWords.congr (State.holdsWords.tail h) rfl rfl)
          (by simpa using hn))

end Sys2Proof.Machine
end

