-- ==== Sys2Proof/Tests/Slice0.lean ====
section
/-! SUPPORT. Tests: ill-formed terms are refused, words written out from the spec's encodings decode, single steps give
the spec's worked results (spec/95_test_vectors.md, ids in the comments), and for every statement with hypotheses a
concrete witness meets them. -/

namespace Sys2Proof.Tests

open Sys2Proof Sys2Proof.Machine

/-! ### WellFormed refuses -/

theorem test_wf_refuses_trap_getc : (Instr.trap 0x20).wf = false := by decide
theorem test_wf_refuses_trap_halt : (Instr.trap 0x25).wf = false := by decide
theorem test_wf_refuses_jmp_r7 : (Instr.jmp 7).wf = false := by decide
theorem test_wf_accepts_trap_x1f_x26 : (Instr.trap 0x1F).wf = true ∧ (Instr.trap 0x26).wf = true := by decide

/-! ### Decoding words written out bit by bit (R82, R93; words of spec/95_test_vectors.md) -/

theorem test_decode_br : decode 0b0000_100_000000001#16 = .br true false false 1 := by decide
theorem test_decode_addR : decode 0b0001_000_001_0_11_010#16 = .addR 0 1 2 := by decide
theorem test_decode_addI : decode 0b0001_010_010_1_10000#16 = .addI 2 2 0b10000 := by decide
theorem test_decode_ld : decode 0b0010_000_100000000#16 = .ld 0 0x100 := by decide
theorem test_decode_st : decode 0b0011_010_111111111#16 = .st 2 0x1FF := by decide
theorem test_decode_jsr : decode 0b0100_1_10000000000#16 = .jsr 0x400 := by decide
theorem test_decode_jsrr : decode 0b0100_0_00_010_000000#16 = .jsrr 2 := by decide
theorem test_decode_andR : decode 0b0101_000_001_0_00_010#16 = .andR 0 1 2 := by decide
theorem test_decode_andI : decode 0b0101_000_001_1_11111#16 = .andI 0 1 0x1F := by decide
theorem test_decode_ldr : decode 0b0110_000_001_100000#16 = .ldr 0 1 0x20 := by decide
theorem test_decode_str : decode 0b0111_000_001_011111#16 = .str 0 1 31 := by decide
theorem test_decode_rti : decode 0b1000_111111111111#16 = .rti 0xFFF := by decide
theorem test_decode_not : decode 0b1001_101_011_111111#16 = .not 5 3 := by decide
theorem test_decode_ldi : decode 0b1010_000_111101111#16 = .ldi 0 0x1EF := by decide
theorem test_decode_sti : decode 0b1011_101_000000010#16 = .sti 5 2 := by decide
theorem test_decode_jmp : decode 0b1100_000_011_000000#16 = .jmp 3 := by decide
theorem test_decode_reserved : decode 0b1101_000100100011#16 = .reserved 0x123 := by decide
theorem test_decode_lea : decode 0b1110_001_111111110#16 = .lea 1 0x1FE := by decide
theorem test_decode_trap : decode 0b1111_0000_00100110#16 = .trap 0x26 := by decide
theorem test_decode_getc : decode 0b1111_0000_00100000#16 = .getc := by decide
theorem test_decode_out : decode 0b1111_0000_00100001#16 = .out := by decide
theorem test_decode_puts : decode 0b1111_0000_00100010#16 = .puts := by decide
theorem test_decode_in : decode 0b1111_0000_00100011#16 = .inp := by decide
theorem test_decode_putsp : decode 0b1111_0000_00100100#16 = .putsp := by decide
theorem test_decode_halt_ignored : decode 0b1111_0111_00100101#16 = .halt := by decide
theorem test_decode_ret_ignored : decode 0b1100_111_111_111111#16 = .ret := by decide
theorem test_decode_bytes : decodeBytes [0x10, 0x61, 0xF0] = .ok (.addI 0 1 1, [0xF0]) ∧
    decodeBytes [0x10] = .error .truncated := by decide

/-! ### Single steps -/

/-- A running machine with the word `w` at the address `a`, PC there, registers and other cells given. -/
def machineAt (a w : Word) (regs : Regs) (mem : Memory) : State :=
  { State.reset with regs := regs, pc := a, running := true, mem := mem.write a.toNat w }

/-- The next state of a result, or the reset state where there is none (a test then fails). -/
def nextOf (r : Result) : State :=
  match r with
  | .next t => t
  | .fault _ => State.reset
  | .refused _ => State.reset

/-- The registers all zero but one. -/
def one (i : RegIdx) (v : Word) : Regs := (State.reset.regs).set i v

/-- One step of `machineAt`. -/
def ran (a w : Word) (regs : Regs) (mem : Memory) : State := nextOf (step (machineAt a w regs mem))

-- V1, V3
theorem test_addR_overflow :
    (ran 0x3000 0x1042 ((one 1 0x7FFF).set 2 1) []).reg 0 = 0x8000 ∧
    (ran 0x3000 0x1042 ((one 1 0x7FFF).set 2 1) []).cond = .N := by decide
theorem test_addR_same_register : (ran 0x3000 0x16C3 (one 3 0x4000) []).reg 3 = 0x8000 := by decide
-- V2, V4
theorem test_addI_carry_lost :
    (ran 0x3000 0x1061 (one 1 0xFFFF) []).reg 0 = 0 ∧ (ran 0x3000 0x1061 (one 1 0xFFFF) []).cond = .Z := by decide
theorem test_addI_negative : (ran 0x3000 0x14B0 (one 2 0x0010) []).reg 2 = 0 := by decide
-- V8, V7
theorem test_andR : (ran 0x3000 0x5042 ((one 1 0xF0F0).set 2 0x0FF0) []).reg 0 = 0x00F0 := by decide
theorem test_andI_mask_extended : (ran 0x3000 0x507F (one 1 0x8001) []).reg 0 = 0x8001 := by decide
-- V12, V11
theorem test_not :
    (ran 0x3000 0x9AFF (one 3 0x8000) []).reg 5 = 0x7FFF ∧ (ran 0x3000 0x9AFF (one 3 0x8000) []).cond = .P := by decide
theorem test_not_ignored_bits : (ran 0x3000 0x9040 (one 1 0xFFFF) []).cond = .Z := by decide
-- V14, V15
theorem test_lea_wraps : (ran 0x0000 0xE3FE State.reset.regs []).reg 1 = 0xFFFF := by decide
theorem test_lea_at_top : (ran 0xFFFF 0xE000 State.reset.regs []).cond = .Z := by decide
-- V17, V58
theorem test_ld_wraps : (ran 0x0010 0x2100 State.reset.regs [(0xFF11, 0x1234)]).reg 0 = 0x1234 := by decide
theorem test_ld_polls :
    (nextOf (step { machineAt 0xFE01 0x2000 State.reset.regs [] with
      console := { Console.quiet with polls := ⟨[.ready], .fails⟩, input := [0x6B] } })).mem =
      [(0xFE00, 0x8000), (0xFE01, 0x2000), (0xFE02, 0x006B)] := by decide
-- E8, V18
theorem test_ldi : (ran 0x3010 0xA1EF State.reset.regs [(0x3000, 0x3002), (0x3002, 0x00AB)]).reg 0 = 0x00AB := by decide
theorem test_ldi_zero : (ran 0x3010 0xA1EF (one 0 7) [(0x3000, 0x3002)]).cond = .Z := by decide
-- V20, V61 (a KBSR read does not poll)
theorem test_ldr_base_is_dr : (ran 0x3000 0x6241 (one 1 0x4000) [(0x4001, 5)]).reg 1 = 5 := by decide
theorem test_ldr_kbsr_does_not_poll :
    (nextOf (step { machineAt 0x3000 0x6040 (one 1 0xFE00) [] with
      console := { Console.quiet with polls := ⟨[.ready], .ready⟩, input := [0x6B] } })).console.input = [0x6B] := by decide
-- V21
theorem test_st_over_itself :
    (ran 0x3000 0x35FF (one 2 0x1234) []).cell 0x3000 = 0x1234 ∧ (ran 0x3000 0x35FF (one 2 0x1234) []).pc = 0x3001 := by decide
-- V22
theorem test_sti :
    (ran 0x3000 0xBA02 (one 5 0xBEEF) [(0x3003, 0x4000)]).cell 0x4000 = 0xBEEF ∧
    (ran 0x3000 0xBA02 (one 5 0xBEEF) [(0x3003, 0x4000)]).cell 0x3003 = 0x4000 := by decide
-- V23, V24 (a plain store to the data cell, no console access)
theorem test_str_wraps : (ran 0x3000 0x705F ((one 1 0xFFF0).set 0 0x00AA) []).cell 0x000F = 0x00AA := by decide
theorem test_str_to_kbdr : (ran 0x3000 0x7042 ((one 1 0xFE00).set 0 0x0041) []).cell 0xFE02 = 0x0041 := by decide
-- V27 to V29
theorem test_brz_taken : (ran 0x3000 0x04FF State.reset.regs []).pc = 0x3100 := by decide
theorem test_br_wraps : (ran 0xFFFE 0x0E05 State.reset.regs []).pc = 0x0004 := by decide
-- V32, V33
theorem test_jmp : (ran 0x3000 0xC0C0 (one 3 0x1234) []).pc = 0x1234 := by decide
theorem test_ret : (ran 0x3004 0xC1C0 (one 7 0x3002) []).pc = 0x3002 := by decide
-- V36
theorem test_jsr_wraps :
    (ran 0xFC00 0x4BFF State.reset.regs []).reg 7 = 0xFC01 ∧ (ran 0xFC00 0x4BFF State.reset.regs []).pc = 0 := by decide
-- V37, V38
theorem test_jsrr : (ran 0x3000 0x4080 (one 2 0x5000) []).pc = 0x5000 := by decide
theorem test_jsrr_r7 :
    (ran 0x3000 0x41C0 (one 7 0x5000) []).pc = 0x3001 ∧ (ran 0x3000 0x41C0 (one 7 0x5000) []).reg 7 = 0x3001 := by decide
-- V55, V57
theorem test_rti :
    ran 0x3000 0x8000 State.reset.regs [] =
      { machineAt 0x3000 0x8000 State.reset.regs [] with
        pc := 0x3001, fault := some (.badOpcode 0x3000 0x8000) } := by decide
theorem test_rti_reports_its_word : (ran 0x3000 0x8FFF State.reset.regs []).fault = some (.badOpcode 0x3000 0x8FFF) := by
  decide
-- V56
theorem test_reserved :
    (ran 0x4000 0xD123 State.reset.regs []).fault = some (.badOpcode 0x4000 0xD123) ∧
    (ran 0x4000 0xD123 State.reset.regs []).pc = 0x4001 := by decide
-- V51, V52
theorem test_trap_bad_vector :
    (ran 0x3000 0xF026 State.reset.regs []).fault = some (.badTrap 0x3000 0x26) ∧
    (ran 0x3000 0xF026 State.reset.regs []).reg 7 = 0x3001 := by decide
theorem test_trap_x00 : (ran 0x3000 0xF000 State.reset.regs []).fault = some (.badTrap 0x3000 0x00) := by decide

/-- `ran` with a console and parameters. -/
def ranWith (con : Console) (p : Params) (w : Word) (regs : Regs) (mem : Memory) : State :=
  nextOf (step { machineAt 0x3000 w regs mem with console := con, params := p })

-- V39, V40
theorem test_getc :
    (ranWith { Console.quiet with input := [0x61] } Params.recommended 0xF020 State.reset.regs []).reg 0 = 0x0061 ∧
    (ranWith { Console.quiet with input := [0x61] } Params.recommended 0xF020 State.reset.regs []).cond = .Z := by decide
theorem test_getc_sets_cond :
    (ranWith { Console.quiet with input := [0x61] } { Params.recommended with trapInputSetsCond := true } 0xF020
      State.reset.regs []).cond = .P := by decide
-- V41, V54
theorem test_out :
    (ran 0x3000 0xF021 (one 0 0x1241) []).console.output = [.char 0x41, .flushed] := by decide
theorem test_out_write_fails :
    (ranWith { Console.quiet with writes := ⟨[.fails], .ok⟩ } Params.recommended 0xF021 State.reset.regs []).fault =
      some (.deviceError 0x3000 .writeChar) := by decide
-- V42, V43
theorem test_puts :
    (ran 0x3000 0xF022 (one 0 0x4000) [(0x4000, 0x41), (0x4001, 0x0100), (0x4002, 0x42)]).console.bytesOut =
      [0x41, 0x00, 0x42] := by decide
theorem test_puts_wraps : (ran 0x3000 0xF022 (one 0 0xFFFF) [(0xFFFF, 0x58)]).console.bytesOut = [0x58] := by decide
-- V48
theorem test_in :
    (ranWith { Console.quiet with input := [0x78] } { Params.recommended with inPrompt := [0x3F, 0x20] } 0xF023
      State.reset.regs []).console.bytesOut = [0x3F, 0x20, 0x78] ∧
    (ranWith { Console.quiet with input := [0x78] } { Params.recommended with inPrompt := [0x3F, 0x20] } 0xF023
      State.reset.regs []).reg 0 = 0x0078 := by decide
-- V45 in both modes
theorem test_putsp_literal :
    (ran 0x3000 0xF024 (one 0 0x4000) [(0x4000, 0x0021), (0x4001, 0x0042)]).console.bytesOut = [0x21] := by decide
theorem test_putsp_wordwise :
    (ranWith Console.quiet { Params.recommended with putspMode := .wordwise } 0xF024 (one 0 0x4000)
      [(0x4000, 0x0021), (0x4001, 0x0042)]).console.bytesOut = [0x21, 0x42] := by decide
-- V49, V71
theorem test_halt :
    (ran 0x3000 0xF025 State.reset.regs []).running = false ∧ (ran 0x3000 0xF025 State.reset.regs []).pc = 0x3001 ∧
    nextOf (step (ran 0x3000 0xF025 State.reset.regs [])) = ran 0x3000 0xF025 State.reset.regs [] := by decide
-- V62: the fetch polls, and the polled value is what runs
theorem test_fetch_polls :
    (nextOf (step { machineAt 0xFE02 0x1234 State.reset.regs [] with
      console := { Console.quiet with polls := ⟨[.ready], .fails⟩, input := [0x41] } })).pc = 0xFE03 := by decide
-- V70 and E9
theorem test_step_before_load : nextOf (step State.reset) = State.reset := by decide
theorem test_pc_wraps : (ran 0xFFFF 0x0000 State.reset.regs []).pc = 0x0000 := by decide
-- E3, V67, V64 to V66
theorem test_load_round_trip :
    loadImage [0x30, 0x00, 0x12, 0x34, 0x56, 0x78] State.reset =
      .next { State.reset with mem := [(0x3000, 0x1234), (0x3001, 0x5678)], running := true } := by rfl
theorem test_load_at_the_top :
    loadImage [0xFF, 0xFF, 0x12, 0x34] State.reset =
      .next { State.reset with mem := [(0xFFFF, 0x1234)], running := true } := by rfl
theorem test_load_errors :
    loadImage [] State.reset = .fault .empty ∧ loadImage [0x30, 0x00, 0x12] State.reset = .fault .truncated ∧
    loadImage [0xFF, 0xFF, 0x12, 0x34, 0x56, 0x78] State.reset = .fault .pastEnd := ⟨rfl, rfl, rfl⟩
-- R10, E2
theorem test_sext : sext16 0b10000#5 = 0xFFF0 ∧ sext16 0b01111#5 = 0x000F ∧ sext16 0x400#11 = 0xFC00 := by decide

/-! ### Witnesses: concrete states and operands that meet the hypotheses of each statement, clause by clause -/

/-- A running machine with nothing in memory. -/
def running : State := { State.reset with running := true }

/-- `running` with a console. -/
def withConsole (con : Console) : State := { running with console := con }

/-- `running` with the parameters changed to poll at both cells. -/
def pollsBoth : State := { running with params := { Params.recommended with pollOnKbsr := true } }

/-- A console that accepts output and has the byte 0x6B ready. -/
def keyReady : Console := { Console.quiet with polls := ⟨[.ready], .notReady⟩, input := [0x6B] }

/-- A console every operation of which fails. -/
def broken : Console where
  input := []
  inputClosed := true
  polls := ⟨[], .fails⟩
  writes := ⟨[], .fails⟩
  flushes := ⟨[], .fails⟩
  output := []

theorem quiet_accepts : Console.quiet.acceptsAll := ⟨by simp [Console.quiet], rfl, by simp [Console.quiet], rfl⟩

theorem witness_DecodeInvertsEncode :
    (Instr.jmp 6).wf = true ∧ (Instr.trap 0x1F).wf = true ∧ (Instr.trap 0x26).wf = true ∧ Instr.ret.wf = true := by decide

theorem witness_EncodeInvertsDecodeButIgnoredBits :
    BitVec.extractLsb 15 12 0x8FFF#16 = 8#4 ∧ BitVec.extractLsb 15 12 0xD000#16 = 13#4 := by decide

theorem witness_IgnoredBitsHaveNoEffect :
    (BitVec.extractLsb 15 12 0x8000#16 = 8#4 ∧ ignoredBits 0x8000 ≠ 0) ∧
    (¬ (BitVec.extractLsb 15 12 0xC1C0#16 = 8#4 ∨ BitVec.extractLsb 15 12 0xC1C0#16 = 13#4) ∧ ignoredBits 0xC1C0 ≠ 0) := by
  decide

theorem witness_FormatsDecodeFieldByField :
    definedVector 0x1F = false ∧ definedVector 0x26 = false ∧ definedVector 0x00 = false ∧ definedVector 0xFF = false := by
  decide

theorem witness_OnlyShortInputIsRejected :
    ([0x10] : List Byte).length < 2 ∧ ¬ ([0x10, 0x61] : List Byte).length < 2 := by decide

theorem witness_ExtensionIsTheOrOfTheHighBits : (0 < 1 ∧ 1 ≤ 16) ∧ (0 < 16 ∧ 16 ≤ 16) := by decide

theorem witness_MemoryReadsWhatWasStored :
    running.mem.wf = true ∧ Memory.wf [(0, 1), (0xFFFF, 2)] = true := by decide

theorem witness_MemReadPollsTheTriggerCells_plain :
    running.mem.wf = true ∧ running.params.wf = true ∧ running.params.triggers 0xFE00 = false ∧
    running.params.triggers 0xFE01 = false := by decide
theorem witness_MemReadPollsTheTriggerCells_key :
    (withConsole keyReady).mem.wf = true ∧ (withConsole keyReady).params.wf = true ∧
    (withConsole keyReady).params.triggers 0xFE02 = true ∧ (withConsole keyReady).console.polls.head = .ready ∧
    (withConsole keyReady).console.input = [0x6B] := by decide
theorem witness_MemReadPollsTheTriggerCells_noKey :
    (pollsBoth.mem.wf = true ∧ pollsBoth.params.wf = true ∧ pollsBoth.params.triggers 0xFE00 = true ∧
      pollsBoth.console.polls.head = .notReady) ∧
    ((withConsole { Console.quiet with polls := ⟨[], .ready⟩ }).mem.wf = true ∧
      (withConsole { Console.quiet with polls := ⟨[], .ready⟩ }).params.triggers 0xFE02 = true ∧
      (withConsole { Console.quiet with polls := ⟨[], .ready⟩ }).console.polls.head = .ready ∧
      (withConsole { Console.quiet with polls := ⟨[], .ready⟩ }).console.input = [] ∧
      (withConsole { Console.quiet with polls := ⟨[], .ready⟩ }).console.inputClosed = false) := by decide
theorem witness_MemReadPollsTheTriggerCells_fails :
    ((withConsole { broken with polls := ⟨[], .ready⟩ }).params.triggers 0xFE02 = true ∧
      (withConsole { broken with polls := ⟨[], .ready⟩ }).console.polls.head = .ready ∧
      (withConsole { broken with polls := ⟨[], .ready⟩ }).console.input = [] ∧
      (withConsole { broken with polls := ⟨[], .ready⟩ }).console.inputClosed = true) ∧
    ((withConsole broken).params.triggers 0xFE02 = true ∧ (withConsole broken).console.polls.head = .fails) := by decide

theorem running_fetches : running.fetches := ⟨rfl, rfl, rfl⟩

theorem witness_StepRunsTheDecodedInstruction :
    (machineAt 0xFFFF 0x1061 (one 1 1) []).fetches ∧
    (machineAt 0xFFFF 0x1061 (one 1 1) []).params.triggers (machineAt 0xFFFF 0x1061 (one 1 1) []).pc = false :=
  ⟨⟨rfl, rfl, rfl⟩, by decide⟩

theorem witness_FetchPollsAtATriggerCell :
    ({ withConsole keyReady with pc := 0xFE02 } : State).fetches ∧
    (∃ t, memRead 0xFE02 { withConsole keyReady with pc := 0xFE02 } = .ok 0x006B t) ∧
    ({ withConsole broken with pc := 0xFE02 } : State).fetches ∧
    (∃ t, memRead 0xFE02 { withConsole broken with pc := 0xFE02 } = .failed .pollReady t) :=
  ⟨⟨rfl, rfl, rfl⟩, ⟨_, rfl⟩, ⟨rfl, rfl, rfl⟩, ⟨_, rfl⟩⟩

theorem witness_StoredWordIsFetched :
    running.mem.wf = true ∧ running.fetches ∧ running.params.triggers 0xFE00 = false := ⟨rfl, ⟨rfl, rfl, rfl⟩, by decide⟩

theorem witness_PlacedWordRunsNext : State.reset.mem.wf = true := rfl

theorem witness_StoppedMachineDoesNotMove :
    (State.reset.fault = none ∧ State.reset.running = false) ∧
    ({ running with fault := some (.badTrap 0x3000 0x26) } : State).fault = some (.badTrap 0x3000 0x26) := by decide

theorem witness_StepKeepsTheInvariant :
    (withConsole keyReady).Inv ∧
    step (withConsole keyReady) = .next { withConsole keyReady with pc := 0x3001 } := ⟨⟨rfl, rfl, rfl, rfl⟩, rfl⟩

theorem witness_StepKeepsTheInvariant_held :
    ({ running with held := some .getc, regs := one 7 0x3000 } : State).Inv ∧
    step { running with held := some .getc, regs := one 7 0x3000 } =
      .next { running with held := some .getc, regs := one 7 0x3000 } := ⟨⟨rfl, rfl, rfl, rfl⟩, rfl⟩

theorem witness_CreationMeetsTheInvariant : Params.recommended.wf = true := rfl

theorem witness_OnlyResultInstructionsSetCond :
    (resultReg (.addI 0 0 0x1F) = some 0 ∧ running.fault = none ∧
      exec (.addI 0 0 0x1F) running = .next (nextOf (exec (.addI 0 0 0x1F) running)) ∧
      (nextOf (exec (.addI 0 0 0x1F) running)).fault = none) ∧
    (resultReg .getc = none ∧ readsInput .getc = true ∧ (withConsole keyReady).params.trapInputSetsCond = false ∧
      exec .getc (withConsole keyReady) = .next (nextOf (exec .getc (withConsole keyReady)))) ∧
    (resultReg (.jmp 3) = none ∧ readsInput (.jmp 3) = false ∧ exec (.jmp 3) running = .next { running with pc := 0 }) ∧
    ((withConsole broken).fault = none ∧
      exec (.ldi 0 0) { withConsole broken with pc := 0xFE02 } =
        .next (nextOf (exec (.ldi 0 0) { withConsole broken with pc := 0xFE02 })) ∧
      (nextOf (exec (.ldi 0 0) { withConsole broken with pc := 0xFE02 })).fault ≠ none) :=
  ⟨⟨rfl, rfl, rfl, rfl⟩, ⟨rfl, rfl, rfl, rfl⟩, ⟨rfl, rfl, rfl⟩, ⟨rfl, rfl, by decide⟩⟩

theorem witness_OnlyBrReadsCond :
    (∀ n z p off, Instr.addR 0 1 2 ≠ .br n z p off) ∧ exec (.addR 0 1 2) running = .next running ∧
    (∀ n z p off, Instr.jmp 0 ≠ .br n z p off) ∧ exec (.jmp 0) running = .next { running with pc := 0 } :=
  ⟨by simp, rfl, by simp, rfl⟩

theorem witness_OnlyBrReadsCond_fetch_resume_step_load :
    fetch running = .ok 0x0000 running ∧
    (∃ u, fetch { withConsole broken with pc := 0xFE02 } = .failed .pollReady u) ∧
    (∃ t, resume .getc (withConsole keyReady) = .next t) ∧
    (step (machineAt 0x3000 0xC000 State.reset.regs []) = .next (ran 0x3000 0xC000 State.reset.regs []) ∧
      ∀ w u, fetch (machineAt 0x3000 0xC000 State.reset.regs []) = .ok w u → ∀ n z p off, decode w ≠ .br n z p off) ∧
    (∃ t, loadImage [0x30, 0x00] State.reset = .next t) ∧ loadImage [] State.reset = .fault .empty ∧
    loadImage [] running = .refused .secondLoad := by
  refine ⟨rfl, ⟨_, rfl⟩, ⟨_, rfl⟩, ⟨rfl, fun w u h n z p off => ?_⟩, ⟨_, rfl⟩, rfl, rfl⟩
  have hw : w = 0xC000#16 := (congrArg (fun d : Dev Word => match d with | .ok v _ => v | .failed _ _ => 0) h).symm
  subst hw
  decide +revert

theorem witness_RegisterWriters :
    exec (.jsr 0) running = .next { running with regs := one 7 0x3000 } ∧ resultReg (.jsr 0) = none ∧
    mayWriteReg (.jsr 0) 7 = true := ⟨rfl, rfl, rfl⟩

theorem witness_PcAfterEachInstruction :
    exec (.br false true false 0x1FF) running = .next { running with pc := 0x2FFF } ∧
    exec (.br true false true 0x1FF) running = .next running := ⟨rfl, rfl⟩

theorem witness_OnlyStoresAndPollsWriteMemory :
    (isStore (.ld 0 0) = false ∧
      exec (.ld 0 0) { withConsole keyReady with pc := 0xFE02 } =
        .next (nextOf (exec (.ld 0 0) { withConsole keyReady with pc := 0xFE02 }))) ∧
    (isStore (.ld 0 0) = false ∧ running.readsNoTrigger (.ld 0 0) ∧ exec (.ld 0 0) running = .next running) ∧
    (isStore (.jmp 0) = false ∧ running.readsNoTrigger (.jmp 0)) ∧
    (isStore (.sti 7 0x100) = true ∧ running.mem.wf = true ∧ running.readsNoTrigger (.sti 7 0x100) ∧
      exec (.sti 7 0x100) running = .next running ∧
      0x0000#16 = running.cell (running.pc + (0x100 : BitVec 9).signExtend 16)) :=
  ⟨⟨rfl, rfl⟩, ⟨rfl, rfl, rfl⟩, ⟨rfl, trivial⟩, rfl, rfl, rfl, rfl, rfl⟩

theorem witness_OnlyStoresAndPollsWriteMemory_strings :
    running.readsNoTrigger .puts ∧ running.readsNoTrigger .putsp ∧ running.readsNoTrigger (.trap 0x26) ∧
    exec .puts running = .next (nextOf (exec .puts running)) ∧
    ({ running with params := { Params.recommended with pollOnKbdr := false } } : State).readsNoTrigger .puts := by
  refine ⟨.inr ⟨0, rfl, fun k h => ?_⟩, .inr ⟨0, rfl, fun k h => ?_⟩, ⟨fun h => ?_, fun h => ?_⟩, rfl, .inl fun a => rfl⟩
  · obtain rfl : k = 0 := by omega
    rfl
  · obtain rfl : k = 0 := by omega
    rfl
  · exact absurd h (by decide)
  · exact absurd h (by decide)

theorem witness_OnlyOutputRoutinesWriteBytes :
    writesOutput .halt = false ∧ exec .halt running = .next (nextOf (exec .halt running)) ∧
    writesOutput (.trap 0x20) = false ∧
    exec (.trap 0x20) running = .next (nextOf (exec (.trap 0x20) running)) := ⟨rfl, rfl, rfl, rfl⟩

theorem witness_StepOnlyExtendsTheTrace :
    step (machineAt 0x3000 0xF021 (one 0 0x41) []) = .next (ran 0x3000 0xF021 (one 0 0x41) []) := rfl

theorem witness_ErrorsNameTheirCause :
    running.fault = none ∧
    exec (.rti 0xFFF) running = .next { running with fault := some (.badOpcode 0x2FFF 0x8FFF) } ∧
    exec (.trap 0x26) running =
      .next { running with regs := one 7 0x3000, fault := some (.badTrap 0x2FFF 0x26) } ∧
    (withConsole broken).fault = none ∧
    exec .getc (withConsole broken) =
      .next { withConsole broken with regs := one 7 0x3000, fault := some (.deviceError 0x2FFF .readChar) } :=
  ⟨rfl, rfl, rfl, rfl, rfl⟩

theorem witness_HaltIsFinal :
    (running.fault = none ∧ running.console.flushes.head = .ok ∧
      exec .halt running = .next (nextOf (exec .halt running))) ∧
    (exec (.jmp 0) running = .next { running with pc := 0 } ∧ ({ running with pc := 0 } : State).running = true) ∧
    (step running = .next { running with pc := 0x3001 } ∧ ({ running with pc := 0x3001 } : State).running = true) :=
  ⟨⟨rfl, rfl, rfl⟩, ⟨rfl, rfl⟩, ⟨rfl, rfl⟩⟩

theorem witness_LoadsFromPlainCells :
    running.params.triggers (running.pc + (0x0FF : BitVec 9).signExtend 16) = false ∧
    running.params.triggers (running.reg 0 + (0x20 : BitVec 6).signExtend 16) = false ∧
    running.params.triggers (running.cell (running.pc + (0x0FF : BitVec 9).signExtend 16)) = false := by decide

theorem witness_LoadsThroughMemRead_ok :
    (∃ u, memRead (0xFE02 + (0 : BitVec 9).signExtend 16) { withConsole keyReady with pc := 0xFE02 } = .ok 0x006B u ∧
      ∃ w, memRead 0x006B u = .ok 0x0000 w) ∧
    (∃ u, memRead ((withConsole keyReady).reg 0 + (0x20 : BitVec 6).signExtend 16) (withConsole keyReady) =
      .ok 0x0000 u) := ⟨⟨_, rfl, _, rfl⟩, _, rfl⟩
theorem witness_LoadsThroughMemRead_fails :
    (∃ u, memRead (0xFE02 + (0 : BitVec 9).signExtend 16) { withConsole broken with pc := 0xFE02 } =
      .failed .pollReady u) ∧
    (∃ u, memRead (0x3000 + (1 : BitVec 9).signExtend 16) { withConsole broken with mem := [(0x3001, 0xFE02)] } =
        .ok 0xFE02 u ∧ ∃ w, memRead 0xFE02 u = .failed .pollReady w) ∧
    (∃ u, memRead (({ withConsole broken with regs := one 0 0xFE02 } : State).reg 0 + (0 : BitVec 6).signExtend 16)
      { withConsole broken with regs := one 0 0xFE02 } = .failed .pollReady u) := ⟨⟨_, rfl⟩, ⟨_, rfl, _, rfl⟩, _, rfl⟩

theorem witness_StoresWriteOneCell : running.mem.wf = true := rfl

theorem witness_StiStoresThroughThePointer :
    (running.mem.wf = true ∧ running.params.triggers (running.pc + (2 : BitVec 9).signExtend 16) = false) ∧
    (∃ u, memRead (0xFE02 + (0 : BitVec 9).signExtend 16) { withConsole keyReady with pc := 0xFE02 } = .ok 0x006B u) ∧
    (∃ u, memRead (0xFE02 + (0 : BitVec 9).signExtend 16) { withConsole broken with pc := 0xFE02 } =
      .failed .pollReady u) := ⟨by decide, ⟨_, rfl⟩, _, rfl⟩

theorem witness_StoresKeepRegistersAndCond :
    isStore (.st 7 0x1FF) = true ∧ isStore (.str 7 6 0x20) = true ∧ isStore (.sti 7 0x100) = true ∧
    running.mem.wf = true ∧ running.fault = none ∧
    exec (.st 7 0x1FF) running = .next running ∧ exec (.str 7 6 0x20) running = .next running ∧
    exec (.sti 7 0x100) running = .next running := ⟨rfl, rfl, rfl, rfl, rfl, rfl, rfl, rfl⟩

theorem witness_IllegalOpcodesRaise :
    (machineAt 0x3000 0x8000 State.reset.regs []).fetches ∧
    (machineAt 0x3000 0x8000 State.reset.regs []).params.triggers 0x3000 = false ∧
    ((machineAt 0x3000 0x8000 State.reset.regs []).cell 0x3000).extractLsb 15 12 = 8#4 ∧
    ((machineAt 0x3000 0xDFFF State.reset.regs []).cell 0x3000).extractLsb 15 12 = 13#4 :=
  ⟨⟨rfl, rfl, rfl⟩, by decide, by decide, by decide⟩

theorem witness_TrapDispatchesByVector :
    (0x1F#8).toNat < 0x20 ∧ 0x25 < (0x26#8).toNat := by decide

theorem witness_GetcReadsOneByte : (withConsole keyReady).console.input = 0x6B :: [] := rfl

theorem witness_InputRoutinesHoldUntilAByte :
    (running.console.input = [] ∧ running.console.inputClosed = false ∧ running.console.acceptsAll) ∧
    (({ running with held := some .getc } : State).fault = none ∧
      ({ running with held := some .getc } : State).running = true ∧
      ({ running with held := some .getc } : State).held = some .getc ∧
      ({ running with held := some .inp } : State).held = some .inp) ∧
    (({ withConsole { Console.quiet with inputClosed := true } with held := some .inp } : State).held = some .inp ∧
      ({ withConsole { Console.quiet with inputClosed := true } with held := some .inp } : State).console.input = [] ∧
      ({ withConsole { Console.quiet with inputClosed := true } with held := some .inp } : State).console.inputClosed =
        true) :=
  ⟨⟨rfl, rfl, quiet_accepts⟩, ⟨rfl, rfl, rfl, rfl⟩, rfl, rfl, rfl⟩

theorem witness_OutWritesOneByte :
    running.console.writes.head = .ok ∧ running.console.flushes.head = .ok := by decide

/-- A running machine with R0 = 0xFFFF and the cells given. -/
def stringAt (mem : Memory) : State := { running with regs := one 0 0xFFFF, mem := mem }

theorem witness_PutsWritesTheString :
    (∀ w ∈ ([0x0100#16, 0x0041#16] : List Word), w ≠ 0x0000#16) ∧
    (stringAt [(0, 0x0041), (0xFFFF, 0x0100)]).holdsWords ((stringAt [(0, 0x0041), (0xFFFF, 0x0100)]).reg 0)
      ([0x0100#16, 0x0041#16] ++ [0x0000#16]) ∧
    ([0x0100#16, 0x0041#16] : List Word).length < 65536 ∧ (stringAt [(0, 0x0041), (0xFFFF, 0x0100)]).console.acceptsAll :=
  ⟨by simp, by unfold State.holdsWords; decide, by simp, quiet_accepts⟩

theorem witness_PutsWritesTheString_empty :
    (stringAt []).holdsWords ((stringAt []).reg 0) ([] ++ [0x0000#16]) ∧ (stringAt []).console.acceptsAll :=
  ⟨by unfold State.holdsWords; decide, quiet_accepts⟩

theorem witness_PutsReadsThroughMemRead :
    (∃ u, memRead (running.reg 0) (running.setReg 7 running.pc) = .ok 0x0000 u ∧ u.console.flushes.head = .ok) ∧
    (∃ u, memRead 0xFE02 (({ withConsole keyReady with regs := one 0 0xFE02 } : State).setReg 7 0x3000) =
      .ok 0x006B u ∧ 0x006B#16 ≠ 0x0000#16 ∧ u.console.writes.head = .ok) ∧
    (∃ u, memRead 0xFE02 (({ withConsole broken with regs := one 0 0xFE02 } : State).setReg 7 0x3000) =
      .failed .pollReady u) ∧
    (∃ u, memRead 0x3000 (({ withConsole broken with regs := one 0 0x3000, mem := [(0x3000, 0xF022)] } : State).setReg 7
      0x3001) = .ok 0xF022 u ∧ 0xF022#16 ≠ 0x0000#16 ∧ u.console.writes.head = .fails) :=
  ⟨⟨_, rfl, rfl⟩, ⟨_, rfl, by decide, rfl⟩, ⟨_, rfl⟩, _, rfl, by decide, rfl⟩

theorem read_map (g : Nat → Word) (l : List Nat) (a : Nat) (h : a ∈ l) :
    Memory.read (l.map fun k => (k, g k)) a = g a := by
  induction l with
  | nil => cases h
  | cons k l ih =>
    rw [List.map_cons, Memory.read]
    split
    · rw [‹k = a›]
    · exact ih (by simpa [Ne.symm ‹¬k = a›] using h)

/-- The first `n` cells hold 1, but the one at 0x3000 holds TRAP x22; nothing polls. -/
def noZeroBelow (n : Nat) : State :=
  { running with
    mem := (List.range n).map fun k => (k, if k = 0x3000 then 0xF022#16 else 1#16)
    params := { Params.recommended with pollOnKbdr := false } }

theorem noZeroBelow_cell (n : Nat) (a : Word) (h : a.toNat < n) :
    (noZeroBelow n).cell a = if a.toNat = 0x3000 then 0xF022#16 else 1#16 :=
  read_map (fun k => if k = 0x3000 then 0xF022#16 else 1#16) _ _ (List.mem_range.2 h)

theorem noZeroBelow_meets (n : Nat) (h : 65536 ≤ n) :
    (noZeroBelow n).fetches ∧ (∀ a, (noZeroBelow n).cell a ≠ 0x0000#16) ∧ (noZeroBelow n).params.pollOnKbsr = false ∧
    (noZeroBelow n).params.pollOnKbdr = false ∧ (noZeroBelow n).console.acceptsAll ∧
    (noZeroBelow n).cell (noZeroBelow n).pc = 0xF022#16 := by
  have hlt : ∀ a : Word, a.toNat < n := fun a => Nat.lt_of_lt_of_le a.isLt h
  refine ⟨⟨rfl, rfl, rfl⟩, fun a => ?_, rfl, rfl, quiet_accepts, ?_⟩
  · rw [noZeroBelow_cell n a (hlt a)]
    split <;> decide
  · rw [noZeroBelow_cell n _ (hlt _)]
    rfl

theorem witness_UnterminatedPutsNeverReturns :
    (noZeroBelow 65536).fetches ∧ (∀ a, (noZeroBelow 65536).cell a ≠ 0x0000#16) ∧
    (noZeroBelow 65536).params.pollOnKbsr = false ∧ (noZeroBelow 65536).params.pollOnKbdr = false ∧
    (noZeroBelow 65536).console.acceptsAll ∧ (noZeroBelow 65536).cell (noZeroBelow 65536).pc = 0xF022#16 :=
  noZeroBelow_meets 65536 (Nat.le_refl _)

theorem witness_InPromptsReadsAndEchoes :
    (withConsole keyReady).console.input = 0x6B :: [] ∧ (withConsole keyReady).console.acceptsAll :=
  ⟨rfl, by simp [withConsole, keyReady, Console.quiet], rfl, by simp [withConsole, keyReady, Console.quiet], rfl⟩

theorem witness_LiteralPutspStopsAtAZeroByte :
    (stringAt [(0, 0x0021), (0xFFFF, 0x4241)]).params.putspMode = .literal ∧
    (∀ w ∈ ([0x4241#16] : List Word), lowByte w ≠ 0x00#8 ∧ highByte w ≠ 0x00#8) ∧
    (lowByte 0x0021#16 = 0x00#8 ∨ highByte 0x0021#16 = 0x00#8) ∧
    (stringAt [(0, 0x0021), (0xFFFF, 0x4241)]).holdsWords ((stringAt [(0, 0x0021), (0xFFFF, 0x4241)]).reg 0)
      ([0x4241#16] ++ [0x0021#16]) ∧
    ([0x4241#16] : List Word).length < 65536 ∧ (stringAt [(0, 0x0021), (0xFFFF, 0x4241)]).console.acceptsAll :=
  ⟨rfl, by simp [lowByte, highByte], by decide, by unfold State.holdsWords; decide, by simp, quiet_accepts⟩

theorem witness_LiteralPutspStopsAtAZeroByte_lowByte :
    (stringAt [(0xFFFF, 0x4200)]).params.putspMode = .literal ∧
    (lowByte 0x4200#16 = 0x00#8 ∨ highByte 0x4200#16 = 0x00#8) ∧
    (stringAt [(0xFFFF, 0x4200)]).holdsWords ((stringAt [(0xFFFF, 0x4200)]).reg 0) ([] ++ [0x4200#16]) ∧
    (stringAt [(0xFFFF, 0x4200)]).console.acceptsAll :=
  ⟨rfl, by decide, by unfold State.holdsWords; decide, quiet_accepts⟩

/-- `stringAt` with PUTSP_MODE = WORDWISE. -/
def wordwiseAt (mem : Memory) : State :=
  { stringAt mem with params := { Params.recommended with putspMode := .wordwise } }

theorem witness_WordwisePutspStopsAtAZeroWord :
    (wordwiseAt [(0, 0x4200), (0xFFFF, 0x0041)]).params.putspMode = .wordwise ∧
    (∀ w ∈ ([0x0041#16, 0x4200#16] : List Word), w ≠ 0x0000#16) ∧
    (wordwiseAt [(0, 0x4200), (0xFFFF, 0x0041)]).holdsWords ((wordwiseAt [(0, 0x4200), (0xFFFF, 0x0041)]).reg 0)
      ([0x0041#16, 0x4200#16] ++ [0x0000#16]) ∧
    ([0x0041#16, 0x4200#16] : List Word).length < 65536 ∧
    (wordwiseAt [(0, 0x4200), (0xFFFF, 0x0041)]).console.acceptsAll :=
  ⟨rfl, by simp, by unfold State.holdsWords; decide, by simp, quiet_accepts⟩

theorem witness_InputRoutinesHoldUntilAByte_strings :
    (({ stringAt [(0, 0x0041)] with held := some (.puts 0x0000) } : State).held = some (.puts 0x0000) ∧
      ({ stringAt [(0, 0x0041)] with held := some (.puts 0x0000) } : State).holdsWords 0x0000
        ([0x0041#16] ++ [0x0000#16]) ∧ (∀ w ∈ ([0x0041#16] : List Word), w ≠ 0x0000#16)) ∧
    (({ wordwiseAt [(0, 0x0041)] with held := some (.putsp 0x0000) } : State).params.putspMode = .wordwise ∧
      ({ wordwiseAt [(0, 0x0041)] with held := some (.putsp 0x0000) } : State).holdsWords 0x0000
        ([0x0041#16] ++ [0x0000#16])) ∧
    (({ stringAt [(0, 0x4241)] with held := some (.putsp 0xFFFF) } : State).params.putspMode = .literal ∧
      ({ stringAt [(0xFFFF, 0x4241)] with held := some (.putsp 0xFFFF) } : State).holdsWords 0xFFFF
        ([0x4241#16] ++ [0x0000#16]) ∧
      (∀ w ∈ ([0x4241#16] : List Word), lowByte w ≠ 0x00#8 ∧ highByte w ≠ 0x00#8) ∧ lowByte 0x0000#16 = 0x00#8) :=
  ⟨⟨rfl, by unfold State.holdsWords; decide, by simp⟩, ⟨rfl, by unfold State.holdsWords; decide⟩,
    rfl, by unfold State.holdsWords; decide, by simp [lowByte, highByte], by decide⟩

theorem witness_PutspModesAgreeOnPackedStrings :
    (∀ w ∈ ([0x4241#16, 0x0043#16] : List Word), lowByte w ≠ 0x00#8) ∧
    (∀ w ∈ ([0x4241#16, 0x0043#16] : List Word).dropLast, highByte w ≠ 0x00#8) ∧
    (stringAt [(0, 0x0043), (0xFFFF, 0x4241)]).holdsWords ((stringAt [(0, 0x0043), (0xFFFF, 0x4241)]).reg 0)
      ([0x4241#16, 0x0043#16] ++ [0x0000#16]) ∧
    ([0x4241#16, 0x0043#16] : List Word).length < 65536 ∧ (stringAt [(0, 0x0043), (0xFFFF, 0x4241)]).console.acceptsAll :=
  ⟨by simp [lowByte], by simp [highByte], by unfold State.holdsWords; decide, by simp, quiet_accepts⟩

theorem witness_HaltStopsTheMachine : running.console.flushes.head = .ok := rfl

/-- A console whose output of a byte first fails at number `n`, and whose flush first fails at number `m`. -/
def failsAt (n m : Nat) : Console :=
  { Console.quiet with
    input := [0x6B], writes := ⟨List.replicate n .ok, .fails⟩, flushes := ⟨List.replicate m .ok, .fails⟩ }

/-- A machine whose IN_PROMPT is two bytes. -/
def prompting (con : Console) : State :=
  { withConsole con with params := { Params.recommended with inPrompt := [0x3F, 0x20] } }

theorem witness_RoutineFailuresAreDeviceErrors :
    ((withConsole broken).console.input = [] ∧ (withConsole broken).console.inputClosed = true) ∧
    (withConsole broken).console.writes.head = .fails ∧
    ((withConsole { broken with writes := ⟨[], .ok⟩ }).console.writes.head = .ok ∧
      (withConsole { broken with writes := ⟨[], .ok⟩ }).console.flushes.head = .fails) ∧
    (∃ u, memRead (({ withConsole broken with regs := one 0 0xFE02 } : State).reg 0)
      (({ withConsole broken with regs := one 0 0xFE02 } : State).setReg 7 0x3000) = .failed .pollReady u) := ⟨⟨rfl, rfl⟩, rfl, ⟨rfl, rfl⟩, _, rfl⟩

theorem witness_RoutineFailuresAreDeviceErrors_in :
    (1 < (prompting (failsAt 1 0)).params.inPrompt.length ∧ (prompting (failsAt 1 0)).console.firstBadWrite 1) ∧
    ((prompting (failsAt 2 0)).console.takes 2 ∧ (prompting (failsAt 2 0)).console.flushes.nth 0 = .fails) ∧
    ((prompting { failsAt 2 1 with input := [], inputClosed := true }).console.takes 2 ∧
      (prompting { failsAt 2 1 with input := [], inputClosed := true }).console.flushes.nth 0 = .ok ∧
      (prompting { failsAt 2 1 with input := [], inputClosed := true }).console.input = [] ∧
      (prompting { failsAt 2 1 with input := [], inputClosed := true }).console.inputClosed = true) ∧
    ((prompting (failsAt 2 1)).console.input = 0x6B :: [] ∧ (prompting (failsAt 2 1)).console.firstBadWrite 2 ∧
      (prompting (failsAt 2 1)).console.flushes.nth 0 = .ok) ∧
    ((prompting (failsAt 3 1)).console.input = 0x6B :: [] ∧ (prompting (failsAt 3 1)).console.takes 3 ∧
      (prompting (failsAt 3 1)).console.flushes.nth 0 = .ok ∧
      (prompting (failsAt 3 1)).console.flushes.nth 1 = .fails) := by
  unfold Console.firstBadWrite Console.takes
  decide

theorem witness_RoutineFailuresAreDeviceErrors_strings :
    (({ stringAt [(0xFFFF, 0x0041)] with console := failsAt 0 0 } : State).holdsWords 0xFFFF
        ([0x0041#16] ++ [0x0000#16]) ∧ (∀ w ∈ ([0x0041#16] : List Word), w ≠ 0x0000#16) ∧
      0 < (putsBytes [0x0041]).length ∧ 0 < (wordwiseBytes [0x0041]).length ∧ (failsAt 0 0).firstBadWrite 0 ∧
      (failsAt 1 0).takes (putsBytes [0x0041]).length ∧ (failsAt 1 0).takes (wordwiseBytes [0x0041]).length ∧
      (failsAt 1 0).flushes.nth 0 = .fails) ∧
    (({ stringAt [(0xFFFF, 0x4241), (0, 0x0043)] with console := failsAt 2 0 } : State).holdsWords 0xFFFF
        ([0x4241#16] ++ [0x0043#16]) ∧ (highByte 0x0043#16 = 0x00#8) ∧
      2 < (literalBytes [0x4241] 0x0043).length ∧ (failsAt 2 0).firstBadWrite 2 ∧
      (failsAt 3 0).takes (literalBytes [0x4241] 0x0043).length) := by
  refine ⟨⟨?_, by simp, ?_, ?_, ?_, ?_, ?_, ?_⟩, ?_, ?_, ?_, ?_, ?_⟩ <;>
    (try unfold State.holdsWords) <;> (try unfold Console.firstBadWrite) <;> (try unfold Console.takes) <;> decide

theorem witness_LoaderStoresTheImage :
    State.reset.unloaded = true ∧ (0xFFFF#16).toNat + ([0x1234#16] : List Word).length ≤ 65536 ∧
    (0x0000#16).toNat + ([] : List Word).length ≤ 65536 := by decide

theorem witness_LoaderRejectsBadImages :
    State.reset.unloaded = true ∧ ([0x30] : List Byte).length % 2 = 1 ∧ ([0x30, 0x00, 0x12] : List Byte).length % 2 = 1 ∧
    65536 < (0xFFFF#16).toNat + ([0x1234#16, 0x5678#16] : List Word).length := by decide

/-- A machine that halts in its first step, one that faults in it, and one that waits for ever. -/
theorem witness_RunsEndInOneOfThreeWays :
    ((machineAt 0x3000 0xF025 State.reset.regs []).running = true ∧
      (machineAt 0x3000 0xF025 State.reset.regs []).fault = none ∧
      (machineAt 0x3000 0xF025 State.reset.regs []).endsAs (fun _ => [])
        (.halted (ran 0x3000 0xF025 State.reset.regs []))) ∧
    (machineAt 0x3000 0x8000 State.reset.regs []).endsAs (fun _ => [.deliver 0x41])
      (.faulted (.badOpcode 0x3000 0x8000)
        { ran 0x3000 0x8000 State.reset.regs [] with console := { Console.quiet with input := [0x41] } }) ∧
    (State.reset.running = false) :=
  ⟨⟨rfl, rfl, 0, _, rfl, rfl, rfl, rfl⟩, ⟨0, _, rfl, rfl, rfl, rfl⟩, rfl⟩

theorem witness_RunsEndInOneOfThreeWays_hung :
    ({ running with held := some .getc } : State).endsAs (fun _ => []) .hung := by
  have h : ∀ k, runIn (fun _ => []) k { running with held := some .getc } =
      .next { running with held := some .getc } := by
    intro k
    induction k with
    | zero => rfl
    | succ k ih => rw [runIn_succ ih]; rfl
  exact fun k => ⟨_, h k, rfl, rfl⟩

theorem witness_StringLoopsTakeOneWordAtATime :
    running.params.putspMode = .literal ∧ (wordwiseAt []).params.putspMode = .wordwise ∧
    (∃ u, memRead 0xFE02 (withConsole broken) = .failed .pollReady u) ∧
    (∃ u, memRead 0xFE02 (withConsole keyReady) = .ok 0x006B u ∧ lowByte 0x006B#16 ≠ 0x00#8 ∧
      highByte 0x006B#16 = 0x00#8 ∧ u.console.writes.head = .ok ∧ u.console.flushes.head = .ok) ∧
    (∃ u, memRead 0x4000 (withConsole (failsAt 1 0)) = .ok 0x0000 u ∧ u.console.flushes.head = .fails) ∧
    (∃ u, memRead 0x4000 { withConsole (failsAt 1 0) with mem := [(0x4000, 0x4241)] } = .ok 0x4241 u ∧
      highByte 0x4241#16 ≠ 0x00#8 ∧ u.console.writes.head = .ok ∧ (u.wrote 0x41).console.writes.head = .fails) ∧
    (∃ u, memRead 0x4000 { withConsole (failsAt 2 0) with mem := [(0x4000, 0x4200)] } = .ok 0x4200 u ∧
      lowByte 0x4200#16 = 0x00#8 ∧ (u.wrote 0x00).console.writes.head = .ok) :=
  ⟨rfl, rfl, ⟨_, rfl⟩, ⟨_, rfl, by decide, by decide, rfl, rfl⟩, ⟨_, rfl, rfl⟩, ⟨_, rfl, by decide, rfl, rfl⟩,
    _, rfl, by decide, rfl⟩

end Sys2Proof.Tests
end

section
/-! What the operand forms `sext16` and `zext16` are, bit by bit and as numbers (spec/00_scope.md R10). -/

namespace Sys2Proof.Machine

theorem getLsbD_sext16 {n : Nat} (f : BitVec n) (i : Nat) :
    (sext16 f).getLsbD i = (decide (i < 16) && if i < n then f.getLsbD i else f.getLsbD (n - 1)) := by
  rw [sext16, BitVec.getLsbD_signExtend, BitVec.msb_eq_getLsbD_last]

/-- The fill of R10's pseudocode, `(0xFFFF << n) & 0xFFFF`, sets the bits from `n` up. -/
theorem getLsbD_ones_shiftLeft (n i : Nat) (hi : i < 16) :
    (0xFFFF#16 <<< n).getLsbD i = decide (n ≤ i) := by
  have hones : 0xFFFF#16 = BitVec.allOnes 16 := rfl
  rw [hones, BitVec.getLsbD_shiftLeft, BitVec.getLsbD_allOnes]
  have hshift : i - n < 16 := by omega
  simp [hi, hshift, ← decide_not]

/-- Below bit `n` the or takes the field's bits; from `n` up the widened field is zero and the fill decides. -/
theorem sext16_eq_or {n : Nat} (f : BitVec n) :
    sext16 f = f.setWidth 16 ||| (if f.getLsbD (n - 1) then 0xFFFF#16 <<< n else 0) := by
  apply BitVec.eq_of_getLsbD_eq
  intro i hi
  rw [getLsbD_sext16, BitVec.getLsbD_or, BitVec.getLsbD_setWidth]
  have hfill : (if f.getLsbD (n - 1) then 0xFFFF#16 <<< n else 0).getLsbD i =
      (f.getLsbD (n - 1) && decide (n ≤ i)) := by
    cases f.getLsbD (n - 1) <;> simp [getLsbD_ones_shiftLeft n i hi]
  rw [hfill]
  by_cases hin : i < n
  · simp [hi, hin]
  · have hge : n ≤ i := Nat.le_of_not_lt hin
    simp [hi, hin, hge]

@[simp] theorem toNat_zext16 (b : Byte) : (zext16 b).toNat = b.toNat :=
  (BitVec.toNat_append 0x00#8 b).trans (by simp)

end Sys2Proof.Machine

open Sys2Proof.Machine

/-- Settles O8: the or of the high bits is `sext16_eq_or`, and `zext16` is the zero prefix by its definition. -/
theorem extensionIsTheOrOfTheHighBits : Obligations.ExtensionIsTheOrOfTheHighBits := by
  unfold Obligations.ExtensionIsTheOrOfTheHighBits
  exact ⟨fun _ f _ _ => sext16_eq_or f, fun b => ⟨rfl, toNat_zext16 b⟩⟩

end

section
/-! SetCC by the signed reading of its Word (spec/10_state.md R27). -/

namespace Sys2Proof.Machine

/-- The high bit is the sign, and only the zero Word reads as the number 0. -/
theorem condOf_eq_sign (v : Word) :
    condOf v = if v.toInt < 0 then .N else if v.toInt = 0 then .Z else .P := by
  have hzero : v.toInt = 0 ↔ v = 0x0000#16 := by rw [← BitVec.toInt_zero (w := 16), BitVec.toInt_inj]
  simp only [condOf, BitVec.msb_eq_toInt, decide_eq_true_eq, hzero]

theorem condOf_eq_N_iff (v : Word) : condOf v = .N ↔ v.toInt < 0 := by
  rw [condOf_eq_sign]; split_ifs <;> simp <;> omega

theorem condOf_eq_Z_iff (v : Word) : condOf v = .Z ↔ v.toInt = 0 := by
  rw [condOf_eq_sign]; split_ifs <;> simp <;> omega

theorem condOf_eq_P_iff (v : Word) : condOf v = .P ↔ 0 < v.toInt := by
  rw [condOf_eq_sign]; split_ifs <;> simp <;> omega

end Sys2Proof.Machine

open Sys2Proof.Machine

/-- Settles O9: the first clause is `condOf` with the high bit named, the three readings are those of `condOf`, and the
frame holds by the definition of SetCC. -/
theorem setCCFollowsTheSign : Obligations.SetCCFollowsTheSign := by
  unfold Obligations.SetCCFollowsTheSign
  intro s v
  have hbit : condOf v = if v.getLsbD 15 then .N else if v = 0x0000#16 then .Z else .P := by
    rw [condOf, BitVec.msb_eq_getLsbD_last]
  exact ⟨hbit, condOf_eq_N_iff v, condOf_eq_Z_iff v, condOf_eq_P_iff v, rfl⟩

end

section
/-! Where each operation leaves PC (spec/10_state.md R25): only the control transfers move it, since a MemRead and a
service routine leave it alone even where they fail or hold. -/

namespace Sys2Proof.Machine

/-- A MemRead keeps PC whether it succeeds or raises, so the instruction keeps it when what follows the read does. -/
theorem memRead_andThen_pc {a pc : Word} {s t : State} {k : Word → State → Result}
    (h : (memRead a s).andThen pc k = .next t) (hk : ∀ v u, k v u = .next t → t.pc = u.pc) : t.pc = s.pc := by
  cases hm : memRead a s with
  | ok v u =>
    rw [hm] at h
    exact (hk v u h).trans (memRead_ok_effect hm).pc
  | failed op u =>
    rw [hm] at h
    cases h
    exact (memRead_failed_effect hm).pc

theorem loadResult_pc {dr : RegIdx} {a : Word} {s t : State} (h : loadResult dr a s = .next t) : t.pc = s.pc :=
  memRead_andThen_pc h fun _ _ e => by cases e; rfl

/-- A service routine ends with the PC it was entered with (R182). -/
theorem Leads.pc {inp stops : Bool} {r : Result} {s t : State} (h : Leads r (RoutineEffect inp stops s))
    (e : r = .next t) : t.pc = s.pc := (h.inv e).pc

theorem dispatchTrap_pc {v : Byte} {s t : State} (h : dispatchTrap v s = .next t) : t.pc = s.pc := by
  unfold dispatchTrap at h
  split at h
  · exact (serveGetc_leads s).pc h
  split at h
  · exact (serveOut_leads s).pc h
  split at h
  · exact (putsLoop_leads _ _ s).pc h
  split at h
  · exact (serveIn_leads s).pc h
  split at h
  · exact (putspFrom_leads _ s).pc h
  split at h
  · exact (serveHalt_leads s).pc h
  cases h; rfl

/-- BR's test on the one-hot COND is the test of R25 on the flags by name. -/
theorem execBr_pc {n z p : Bool} {off : BitVec 9} {s t : State} (h : execBr n z p off s = .next t) :
    t.pc = pcAfter (.br n z p off) s := by
  cases h
  simp only [branchTaken_eq, ← beq_eq_decide, pcAfter]
  split <;> rfl

/-- JSRR R7 reads the link it has just written (R166, C5). -/
theorem execJsrr_pc {base : RegIdx} {s t : State} (h : execJsrr base s = .next t) :
    t.pc = pcAfter (.jsrr base) s := by
  cases h
  exact State.setReg_reg s 7#3 base s.pc

theorem exec_pc {i : Instr} {s t : State} (h : exec i s = .next t) : t.pc = pcAfter i s := by
  cases i with
  | br => exact execBr_pc h
  | jsrr => exact execJsrr_pc h
  | jmp | ret | jsr => cases h; rfl
  | addR | addI | andR | andI | not | lea | st | str | rti | reserved => cases h; rfl
  | ld | ldr => exact loadResult_pc h
  | ldi => exact memRead_andThen_pc h fun _ _ e => loadResult_pc e
  | sti => exact memRead_andThen_pc h fun _ _ e => by cases e; rfl
  | trap => exact dispatchTrap_pc (s := s.trapEntry) h
  | getc => exact (serveGetc_leads s.trapEntry).pc h
  | out => exact (serveOut_leads s.trapEntry).pc h
  | puts => exact (putsLoop_leads _ _ s.trapEntry).pc h
  | inp => exact (serveIn_leads s.trapEntry).pc h
  | putsp => exact (putspFrom_leads _ s.trapEntry).pc h
  | halt => exact (serveHalt_leads s.trapEntry).pc h

end Sys2Proof.Machine

open Sys2Proof.Machine

/-- Settles O24: `exec_pc`, by the case split over the instructions. -/
theorem pcAfterEachInstruction : Obligations.PcAfterEachInstruction := by
  unfold Obligations.PcAfterEachInstruction
  intro i s t h
  exact exec_pc h

end

section
/-! COND as an input (spec/10_state.md R29).  `State.withCond` is the change of COND that the rule speaks of; an operation
that reads no COND commutes with it, and a `CondBlind` one commutes with it or overwrites COND alike. -/

namespace Sys2Proof.Machine

/-- The state with another COND. -/
def State.withCond (s : State) (c : Cond) : State := { s with cond := c }

@[simp] theorem State.withCond_fault (s : State) (c : Cond) : (s.withCond c).fault = s.fault := rfl
@[simp] theorem State.withCond_running (s : State) (c : Cond) : (s.withCond c).running = s.running := rfl
@[simp] theorem State.withCond_held (s : State) (c : Cond) : (s.withCond c).held = s.held := rfl
@[simp] theorem State.withCond_console (s : State) (c : Cond) : (s.withCond c).console = s.console := rfl
@[simp] theorem State.withCond_params (s : State) (c : Cond) : (s.withCond c).params = s.params := rfl
@[simp] theorem State.withCond_cell (s : State) (c : Cond) (a : Word) : (s.withCond c).cell a = s.cell a := rfl
@[simp] theorem State.withCond_unloaded (s : State) (c : Cond) : (s.withCond c).unloaded = s.unloaded := rfl

/-- An operation's answer with another COND in the state it leaves. -/
def Dev.withCond {α : Type} (c : Cond) : Dev α → Dev α
  | .ok a s => .ok a (s.withCond c)
  | .failed op s => .failed op (s.withCond c)

/-- A read's answer with another COND in the state it leaves. -/
def ReadAnswer.withCond (c : Cond) : ReadAnswer → ReadAnswer
  | .got b s => .got b (s.withCond c)
  | .waits => .waits
  | .closed => .closed

/-- An outcome with another COND in its next state. -/
def outcomeWithCond {φ ρ : Type} (c : Cond) : Host.Outcome State φ ρ → Host.Outcome State φ ρ
  | .next s => .next (s.withCond c)
  | .fault e => .fault e
  | .refused r => .refused r

/-! ### The operations that carry COND along -/

theorem devPollReady_withCond (c : Cond) (s : State) : devPollReady (s.withCond c) = (devPollReady s).withCond c := by
  simp only [devPollReady, State.withCond_console]
  cases s.console.polls.head <;> rfl

theorem devReadChar_withCond (c : Cond) (s : State) : devReadChar (s.withCond c) = (devReadChar s).withCond c := by
  simp only [devReadChar, State.withCond_console]
  cases s.console.input with
  | cons => rfl
  | nil => by_cases h : s.console.inputClosed = true <;> simp only [h, ↓reduceIte] <;> rfl

theorem devWriteChar_withCond (b : Byte) (c : Cond) (s : State) :
    devWriteChar b (s.withCond c) = (devWriteChar b s).withCond c := by
  simp only [devWriteChar, State.withCond_console]
  cases s.console.writes.head <;> rfl

theorem devFlush_withCond (c : Cond) (s : State) : devFlush (s.withCond c) = (devFlush s).withCond c := by
  simp only [devFlush, State.withCond_console]
  cases s.console.flushes.head <;> rfl

theorem poll_withCond (c : Cond) (s : State) : poll (s.withCond c) = (poll s).withCond c := by
  unfold poll
  rw [devPollReady_withCond]
  cases devPollReady s with
  | failed op t => rfl
  | ok ready t =>
    cases ready with
    | false => rfl
    | true =>
      simp only [Dev.withCond]
      rw [devReadChar_withCond]
      cases devReadChar t <;> rfl

theorem memRead_withCond (a : Word) (c : Cond) (s : State) :
    memRead a (s.withCond c) = (memRead a s).withCond c := by
  simp only [memRead, State.withCond_params, State.withCond_cell, poll_withCond]
  split
  · cases poll s <;> rfl
  · rfl

theorem fetch_withCond (c : Cond) (s : State) : fetch (s.withCond c) = (fetch s).withCond c :=
  memRead_withCond s.pc c s

theorem writeBytes_withCond (bs : List Byte) (c : Cond) (s : State) :
    writeBytes bs (s.withCond c) = (writeBytes bs s).withCond c := by
  induction bs generalizing s with
  | nil => rfl
  | cons b bs ih =>
    rw [writeBytes, writeBytes, devWriteChar_withCond]
    cases devWriteChar b s with
    | ok _ t => exact ih t
    | failed op t => rfl

theorem loadWords_withCond (image : List Byte) (c : Cond) (s : State) :
    loadWords image (s.withCond c) = outcomeWithCond c (loadWords image s) := by
  unfold loadWords
  split
  · rfl
  · rfl
  · split_ifs <;> rfl

theorem loadImage_withCond (image : List Byte) (c : Cond) (s : State) :
    loadImage image (s.withCond c) = outcomeWithCond c (loadImage image s) := by
  simp only [loadImage, State.withCond_unloaded, loadWords_withCond]
  split <;> rfl

/-! ### What reads no COND -/

/-- `q` is what `r` becomes when COND was `c` before: the same, because COND was overwritten alike, or `r` with COND
carried along. -/
def SameButCond (c : Cond) (r q : Result) : Prop := q = r ∨ q = outcomeWithCond c r

/-- An execution that does the same to two states that differ in COND alone. -/
def CondBlind (f : State → Result) : Prop := ∀ c s, SameButCond c (f s) (f (s.withCond c))

theorem SameButCond.of_next {c : Cond} {r q : Result} {t : State} (h : SameButCond c r q) (e : r = .next t) :
    q = .next t ∨ q = .next { t with cond := c } := by
  subst e; exact h

/-- Going on after an operation that carries COND along: its error carries COND along too. -/
theorem SameButCond.andThen {α : Type} {c : Cond} {d e : Dev α} {pc : Word} {k l : α → State → Result}
    (he : e = d.withCond c) (hk : ∀ a t, d = .ok a t → SameButCond c (k a t) (l a (t.withCond c))) :
    SameButCond c (d.andThen pc k) (e.andThen pc l) := by
  subst he
  cases d with
  | ok a t => exact hk a t rfl
  | failed op t => exact .inr rfl

theorem SameButCond.ite {c : Cond} {p : Prop} [Decidable p] {r r' q q' : Result} (h : SameButCond c r q)
    (h' : SameButCond c r' q') : SameButCond c (if p then r else r') (if p then q else q') := by
  split
  · exact h
  · exact h'

theorem storeInput_condBlind (b : Byte) : CondBlind fun s => .next (s.storeInput b) := by
  intro c s
  by_cases h : s.params.trapInputSetsCond = true
  · simp only [State.storeInput, State.withCond_params, h, ↓reduceIte]
    exact .inl rfl
  · simp only [State.storeInput, State.withCond_params, h]
    exact .inr rfl

theorem loadResult_condBlind (dr : RegIdx) (a : Word) : CondBlind (loadResult dr a) := fun c s =>
  .andThen (memRead_withCond a c s) fun _ _ _ => .inl rfl

theorem flushEnd_condBlind : CondBlind flushEnd := fun c s =>
  .andThen (devFlush_withCond c s) fun _ _ _ => .inr rfl

theorem serveGetc_condBlind : CondBlind serveGetc := by
  intro c s
  unfold serveGetc
  rw [devReadChar_withCond]
  cases devReadChar s with
  | got b t => exact storeInput_condBlind b c t
  | waits => exact .inr rfl
  | closed => exact .inr rfl

theorem serveOut_condBlind : CondBlind serveOut := fun c s =>
  .andThen (devWriteChar_withCond _ c s) fun _ t _ => flushEnd_condBlind c t

theorem putsLoop_condBlind (n : Nat) (p : Word) : CondBlind (putsLoop n p) := by
  induction n generalizing p with
  | zero => exact fun c s => .inr rfl
  | succ n ih =>
    exact fun c s => .andThen (memRead_withCond p c s) fun w t _ =>
      .ite (flushEnd_condBlind c t) (.andThen (devWriteChar_withCond _ c t) fun _ u _ => ih _ c u)

theorem serveInRead_condBlind : CondBlind serveInRead := by
  intro c s
  unfold serveInRead
  rw [devReadChar_withCond]
  cases devReadChar s with
  | got b t =>
    exact .andThen (devWriteChar_withCond b c t) fun _ u _ =>
      .andThen (devFlush_withCond c u) fun _ v _ => storeInput_condBlind b c v
  | waits => exact .inr rfl
  | closed => exact .inr rfl

theorem serveIn_condBlind : CondBlind serveIn := fun c s =>
  .andThen (writeBytes_withCond _ c s) fun _ t _ =>
    .andThen (devFlush_withCond c t) fun _ u _ => serveInRead_condBlind c u

theorem putspLiteral_condBlind (n : Nat) (p : Word) : CondBlind (putspLiteral n p) := by
  induction n generalizing p with
  | zero => exact fun c s => .inr rfl
  | succ n ih =>
    exact fun c s => .andThen (memRead_withCond p c s) fun w t _ =>
      .ite (flushEnd_condBlind c t) (.andThen (devWriteChar_withCond _ c t) fun _ u _ =>
        .ite (flushEnd_condBlind c u) (.andThen (devWriteChar_withCond _ c u) fun _ v _ => ih _ c v))

theorem putspWordwise_condBlind (n : Nat) (p : Word) : CondBlind (putspWordwise n p) := by
  induction n generalizing p with
  | zero => exact fun c s => .inr rfl
  | succ n ih =>
    exact fun c s => .andThen (memRead_withCond p c s) fun w t _ =>
      .ite (flushEnd_condBlind c t) (.andThen (devWriteChar_withCond _ c t) fun _ u _ =>
        .ite (ih _ c u) (.andThen (devWriteChar_withCond _ c u) fun _ v _ => ih _ c v))

theorem putspFrom_condBlind (p : Word) : CondBlind (putspFrom p) := by
  intro c s
  simp only [putspFrom, State.withCond_params]
  cases s.params.putspMode with
  | literal => exact putspLiteral_condBlind _ p c s
  | wordwise => exact putspWordwise_condBlind _ p c s

theorem serveHalt_condBlind : CondBlind serveHalt := fun c s =>
  .andThen (devFlush_withCond c s) fun _ _ _ => .inr rfl

theorem dispatchTrap_condBlind (v : Byte) : CondBlind (dispatchTrap v) := fun c s =>
  .ite (serveGetc_condBlind c s) <|
  .ite (serveOut_condBlind c s) <|
  .ite (putsLoop_condBlind _ _ c s) <|
  .ite (serveIn_condBlind c s) <|
  .ite (putspFrom_condBlind _ c s) <|
  .ite (serveHalt_condBlind c s) (.inr rfl)

/-- A held routine goes on as if it had been entered anew: releasing the hold does not touch COND. -/
theorem resume_condBlind (h : Held) : CondBlind (resume h) := by
  intro c s
  cases h with
  | getc => exact serveGetc_condBlind c { s with held := none }
  | inp => exact serveInRead_condBlind c { s with held := none }
  | puts p => exact putsLoop_condBlind _ p c { s with held := none }
  | putsp p => exact putspFrom_condBlind p c { s with held := none }

/-- A result register's SetCC overwrites COND; every other instruction but BR carries it along (R28, R29). -/
theorem exec_condBlind {i : Instr} (hi : ∀ n z p off, i ≠ .br n z p off) : CondBlind (exec i) := by
  intro c s
  cases i with
  | br n z p off => exact absurd rfl (hi n z p off)
  | addR | addI | andR | andI | not | lea => exact .inl rfl
  | st | str | jmp | ret | jsr | jsrr | rti | reserved => exact .inr rfl
  | ld | ldr => exact loadResult_condBlind _ _ c s
  | ldi => exact .andThen (memRead_withCond _ c s) fun _ t _ => loadResult_condBlind _ _ c t
  | sti => exact .andThen (memRead_withCond _ c s) fun _ _ _ => .inr rfl
  | trap v => exact dispatchTrap_condBlind v c s.trapEntry
  | getc => exact serveGetc_condBlind c s.trapEntry
  | out => exact serveOut_condBlind c s.trapEntry
  | puts => exact putsLoop_condBlind _ _ c s.trapEntry
  | inp => exact serveIn_condBlind c s.trapEntry
  | putsp => exact putspFrom_condBlind _ c s.trapEntry
  | halt => exact serveHalt_condBlind c s.trapEntry

/-- A step that fetches no BR, in each of its four cases: after an error, halted, held, and fetching. -/
theorem step_sameButCond (c : Cond) {s : State}
    (hbr : s.running = true → s.held = none → ∀ w u, fetch s = .ok w u → ∀ n z p off, decode w ≠ .br n z p off) :
    SameButCond c (step s) (step (s.withCond c)) := by
  simp only [step, State.withCond_fault, State.withCond_running, State.withCond_held]
  cases s.fault with
  | some e => exact .inl rfl
  | none =>
    by_cases hrun : s.running = true
    · simp only [hrun, ↓reduceIte]
      cases hheld : s.held with
      | some h => exact resume_condBlind h c s
      | none =>
        exact .andThen (fetch_withCond c s) fun w u hw => exec_condBlind (hbr hrun hheld w u hw) c u.advance
    · simp only [hrun]
      exact .inr rfl

end Sys2Proof.Machine

open Sys2Proof.Machine

/-- Settles O22: clause by clause, each from the lemma that says what the operation does to `State.withCond`. -/
theorem onlyBrReadsCond : Obligations.OnlyBrReadsCond := by
  unfold Obligations.OnlyBrReadsCond
  have hfetch : ∀ c s d, fetch s = d → fetch { s with cond := c } = d.withCond c := by
    rintro c s _ rfl; exact fetch_withCond c s
  have hload : ∀ image c s r, loadImage image s = r → loadImage image { s with cond := c } = outcomeWithCond c r := by
    rintro image c s _ rfl; exact loadImage_withCond image c s
  exact ⟨fun i c s t hi h => (exec_condBlind hi c s).of_next h,
    fun c s => ⟨fun _ _ => hfetch c s _, fun _ _ => hfetch c s _⟩,
    fun k c s t h => (resume_condBlind k c s).of_next h,
    fun c s t h hbr => (step_sameButCond c hbr).of_next h,
    fun _ _ => ⟨rfl, rfl⟩,
    fun image c s => ⟨fun _ => hload image c s _, fun _ => hload image c s _, fun _ => hload image c s _⟩⟩

end

section
/-! A sum written to its result register (spec/40_operate.md R110 to R112): the fixed-width sum is the sum of the unsigned
and of the signed readings at once, and COND is all that its overflow can show in. -/

namespace Sys2Proof.Machine

theorem State.setResult_reg_self (s : State) (dr : RegIdx) (v : Word) : (s.setResult dr v).reg dr = v :=
  Regs.get_set_self s.regs dr v

theorem State.setResult_wroteResult (s : State) (dr : RegIdx) (v : Word) : WroteResult dr v s (s.setResult dr v) := by
  have hregs : RegsKept (· == dr) s (s.setResult dr v) := fun r hr => Regs.get_set_ne s.regs v (by simpa using hr)
  exact ⟨s.setResult_reg_self dr v, rfl, hregs, rfl, fun _ _ => rfl, ⟨rfl, rfl, rfl, rfl⟩, rfl⟩

theorem exec_addR (dr sr1 sr2 : RegIdx) (s : State) :
    exec (.addR dr sr1 sr2) s = .next (s.setResult dr (s.reg sr1 + s.reg sr2)) := rfl

theorem exec_addI (dr sr1 : RegIdx) (imm : BitVec 5) (s : State) :
    exec (.addI dr sr1 imm) s = .next (s.setResult dr (s.reg sr1 + sext16 imm)) := rfl

/-- Sign extension keeps the signed reading of a field that fits in a Word (R10). -/
theorem toInt_sext16 {n : Nat} (f : BitVec n) (hn : n ≤ 16) : (sext16 f).toInt = f.toInt :=
  BitVec.toInt_signExtend_of_le hn

/-- `t` is `s` with the sum of the Words `a` and `b` in `dr`, as R112 describes it: one sum in the unsigned and in the
signed reading, COND from the sign of the wrapped sum, and nothing else changed. -/
def WroteSum (dr : RegIdx) (a b : Word) (s t : State) : Prop :=
  WroteResult dr (t.reg dr) s t ∧
    (t.reg dr).toNat = (a.toNat + b.toNat) % 2 ^ 16 ∧
    (t.reg dr).toInt = (a.toInt + b.toInt).bmod (2 ^ 16) ∧
    (t.cond = .N ↔ (t.reg dr).toInt < 0) ∧ (t.cond = .Z ↔ (t.reg dr).toInt = 0) ∧
    (t.cond = .P ↔ 0 < (t.reg dr).toInt)

theorem State.setResult_wroteSum (s : State) (dr : RegIdx) (a b : Word) :
    WroteSum dr a b s (s.setResult dr (a + b)) := by
  rw [WroteSum, State.setResult_reg_self, State.setResult_cond]
  exact ⟨s.setResult_wroteResult dr (a + b), BitVec.toNat_add a b, BitVec.toInt_add a b,
    condOf_eq_N_iff (a + b), condOf_eq_Z_iff (a + b), condOf_eq_P_iff (a + b)⟩

end Sys2Proof.Machine

open Sys2Proof.Machine

/-- Settles O31: both modes write a sum by `State.setResult_wroteSum`; the immediate mode's second summand is the
sign-extended imm5, whose signed reading is imm5's own. -/
theorem addIgnoresOverflow : Obligations.AddIgnoresOverflow := by
  unfold Obligations.AddIgnoresOverflow
  intro dr sr1 sr2 imm s
  have himm : WroteSum dr (s.reg sr1) (sext16 imm) s (s.setResult dr (s.reg sr1 + sext16 imm)) :=
    s.setResult_wroteSum dr (s.reg sr1) (sext16 imm)
  rw [WroteSum, toInt_sext16 imm (by decide)] at himm
  exact ⟨⟨_, exec_addR dr sr1 sr2 s, s.setResult_wroteSum dr (s.reg sr1) (s.reg sr2)⟩,
    ⟨_, exec_addI dr sr1 imm s, himm⟩⟩

end

section
/-! The stores (spec/41_load_store.md R138 to R142): one cell takes the whole Word of SR, at the store's own address or
at the one the pointer read answered, and neither the store nor the read before it reaches a register or COND. -/

namespace Sys2Proof.Machine

theorem State.store_cell_self {s : State} (h : s.mem.wf = true) (a v : Word) : (s.store a v).cell a = v := by
  rw [State.store_cell h, if_pos rfl]

theorem State.store_wroteCell {s : State} (h : s.mem.wf = true) (a v : Word) : WroteCell a v s (s.store a v) := by
  have hmem : MemKept (· == a) s (s.store a v) := fun b hb => State.store_cell_ne s v (by simpa using hb)
  exact ⟨State.store_cell_self h a v, hmem, fun _ _ => rfl, rfl, rfl, ⟨rfl, rfl, rfl, rfl⟩, rfl⟩

theorem ConsoleEffect.regsKept {s t : State} (h : ConsoleEffect s t) (p : RegIdx → Bool) : RegsKept p s t :=
  fun r _ => h.reg r

theorem isStore_iff (i : Instr) : isStore i = true ↔
    (∃ sr off, i = .st sr off) ∨ (∃ sr base off, i = .str sr base off) ∨ (∃ sr off, i = .sti sr off) := by
  cases i <;> simp [isStore]

theorem exec_st (sr : RegIdx) (off : BitVec 9) (s : State) :
    exec (.st sr off) s = .next (s.store (s.pc + off.signExtend 16) (s.reg sr)) := rfl

theorem exec_str (sr base : RegIdx) (off : BitVec 6) (s : State) :
    exec (.str sr base off) s = .next (s.store (s.reg base + off.signExtend 16) (s.reg sr)) := rfl

/-- STI stores the SR of `s` through the pointer, since the pointer's read keeps the registers (R140); where that read
fails, the instruction ends with the error and no store. -/
theorem exec_sti_cases (sr : RegIdx) (off : BitVec 9) (s : State) :
    (∃ ptr u, memRead (s.pc + off.signExtend 16) s = .ok ptr u ∧
      exec (.sti sr off) s = .next (u.store ptr (s.reg sr))) ∨
    (∃ op u, memRead (s.pc + off.signExtend 16) s = .failed op u ∧
      exec (.sti sr off) s = .next { u with fault := some (.deviceError s.instrAddr op) }) := by
  have hexec : exec (.sti sr off) s = (memRead (s.pc + off.signExtend 16) s).andThen s.instrAddr
      fun ptr u => .next (u.store ptr (u.reg sr)) := rfl
  rw [hexec]
  cases hm : memRead (s.pc + off.signExtend 16) s with
  | ok ptr u =>
    rw [← (memRead_ok_effect hm).reg sr]
    exact .inl ⟨ptr, u, rfl, rfl⟩
  | failed op u => exact .inr ⟨op, u, rfl, rfl⟩

end Sys2Proof.Machine

open Sys2Proof.Machine

/-- Settles O39, store by store: ST and STR are one MemWrite; STI is a MemRead, which leaves registers and COND alone,
and then either that same MemWrite or an error, which the last clause leaves out. -/
theorem storesKeepRegistersAndCond : Obligations.StoresKeepRegistersAndCond := by
  unfold Obligations.StoresKeepRegistersAndCond
  intro i s t hi hwf _ h
  obtain ⟨sr, off, rfl⟩ | ⟨sr, base, off, rfl⟩ | ⟨sr, off, rfl⟩ := (isStore_iff i).1 hi
  · cases h.symm.trans (exec_st sr off s)
    obtain ⟨hcell, -, hregs, hcond, -⟩ := State.store_wroteCell hwf (s.pc + off.signExtend 16) (s.reg sr)
    refine ⟨hregs, hcond, fun _ => ⟨s.pc + off.signExtend 16, ?_, nofun, nofun⟩⟩
    rintro _ _ ⟨⟩
    exact ⟨rfl, hcell⟩
  · cases h.symm.trans (exec_str sr base off s)
    obtain ⟨hcell, -, hregs, hcond, -⟩ := State.store_wroteCell hwf (s.reg base + off.signExtend 16) (s.reg sr)
    refine ⟨hregs, hcond, fun _ => ⟨s.reg base + off.signExtend 16, nofun, ?_, nofun⟩⟩
    rintro _ _ _ ⟨⟩
    exact ⟨rfl, hcell⟩
  · obtain ⟨ptr, u, hm, he⟩ | ⟨op, u, hm, he⟩ := exec_sti_cases sr off s
    · cases h.symm.trans he
      have hread := memRead_ok_effect hm
      refine ⟨hread.regsKept _, hread.cond, fun _ => ⟨ptr, nofun, nofun, ?_⟩⟩
      rintro _ _ ⟨⟩
      exact ⟨⟨u, hm⟩, State.store_cell_self (hread.wf hwf) ptr (s.reg sr)⟩
    · cases h.symm.trans he
      have hread := memRead_failed_effect hm
      exact ⟨hread.regsKept _, hread.cond, nofun⟩

end

section
/-! The TRAP dispatcher on the vectors without a routine (spec/43_trap.md R181, R196), and the two routines OUT (R184)
and HALT (R191, R192) on a console that accepts what they output. -/

namespace Sys2Proof.Machine

/-! ### The trap entry and the dispatcher -/

/-- The trap entry writes the link (R180). -/
theorem State.trapEntry_reg_link (s : State) : s.trapEntry.reg 7#3 = s.pc := by
  rw [State.trapEntry_reg, if_pos rfl]

/-- R7 is the only register the trap entry writes (R180). -/
theorem State.trapEntry_regsKept (s : State) : RegsKept (· == 7#3) s s.trapEntry := fun r hr => by
  rw [State.trapEntry_reg, if_neg (by simpa using hr)]

/-- A vector outside x20..x25 has no routine (R196). -/
theorem dispatchTrap_undefined {v : Byte} (hv : v.toNat < 0x20 ∨ 0x25 < v.toNat) (s : State) :
    dispatchTrap v s = raise (.badTrap s.instrAddr v) s := by
  have hne : ∀ w : Byte, 0x20 ≤ w.toNat ∧ w.toNat ≤ 0x25 → v ≠ w := by rintro w hw rfl; omega
  rw [dispatchTrap, if_neg (hne _ (by decide)), if_neg (hne _ (by decide)), if_neg (hne _ (by decide)),
    if_neg (hne _ (by decide)), if_neg (hne _ (by decide)), if_neg (hne _ (by decide))]

theorem exec_trap_undefined {v : Byte} (hv : v.toNat < 0x20 ∨ 0x25 < v.toNat) (s : State) :
    exec (.trap v) s = .next { s.trapEntry with fault := some (.badTrap s.instrAddr v) } :=
  dispatchTrap_undefined hv s.trapEntry

/-! ### OUT and HALT on an accepting console -/

theorem serveOut_ok {s : State} (hw : s.console.writes.head = .ok) (hf : s.console.flushes.head = .ok) :
    serveOut s = .next (s.wrote (lowByte (s.reg 0#3))).flushedOut := by
  have hf' : (s.wrote (lowByte (s.reg 0#3))).console.flushes.head = .ok := hf
  rw [serveOut, devWriteChar_ok _ hw, Dev.andThen, flushEnd_ok hf']

theorem exec_out_ok {s : State} (hw : s.console.writes.head = .ok) (hf : s.console.flushes.head = .ok) :
    exec .out s = .next (s.trapEntry.wrote (lowByte (s.reg 0#3))).flushedOut :=
  serveOut_ok (s := s.trapEntry) hw hf

theorem devFlush_ok {s : State} (hf : s.console.flushes.head = .ok) : devFlush s = .ok () s.flushedOut := by
  simp only [devFlush, hf, State.flushedOut]

theorem exec_halt_ok {s : State} (hf : s.console.flushes.head = .ok) :
    exec .halt s = .next { s.trapEntry.flushedOut with running := false } := by
  have hf' : s.trapEntry.console.flushes.head = .ok := hf
  rw [exec, execHalt, serveHalt, devFlush_ok hf', Dev.andThen]

/-! ### A machine that does not run -/

theorem step_of_not_running {s : State} (hfault : s.fault = none) (hrun : s.running = false) : step s = .next s := by
  simp [step, hfault, hrun]

/-- A state that a step leaves as it is stays so for every number of steps. -/
theorem run_of_step_self {s : State} (h : step s = .next s) (k : Nat) : Sys2Proof.core.run k s = .next s := by
  induction k with
  | zero => rfl
  | succ k ih => rw [run_succ h, ih]

/-- No step sets RUNNING: a step of a machine that does not run changes nothing (R39). -/
theorem step_running {s t : State} (h : step s = .next t) (ht : t.running = true) : s.running = true := by
  obtain ⟨-, ⟨-, rfl⟩ | ⟨_, hrun, -⟩ | ⟨_, _, hrun, -⟩ | ⟨_, _, hrun, -⟩⟩ := step_cases h
  · exact ht
  all_goals exact hrun

end Sys2Proof.Machine

open Sys2Proof.Machine

/-- Settles O29: a HALT whose flush succeeds leaves a state without an error and with RUNNING false, which every step
leaves as it is; no instruction (`exec_effect`) and no step sets RUNNING. -/
theorem haltIsFinal : Obligations.HaltIsFinal := by
  unfold Obligations.HaltIsFinal
  refine ⟨fun s t hfault hflush h => ?_, fun i s t h => (exec_effect h).running, fun s t => step_running⟩
  cases h.symm.trans (exec_halt_ok hflush)
  exact ⟨rfl, run_of_step_self (step_of_not_running hfault rfl)⟩

/-- Settles O44: the six vectors select their rows by computation, and any other vector is `exec_trap_undefined`, the
trap entry followed by the error. -/
theorem trapDispatchesByVector : Obligations.TrapDispatchesByVector := by
  unfold Obligations.TrapDispatchesByVector
  intro s
  refine ⟨rfl, rfl, rfl, rfl, rfl, rfl, fun v hv => ⟨_, exec_trap_undefined hv s, rfl, ?_⟩⟩
  exact ⟨s.trapEntry_reg_link, s.trapEntry_regsKept, rfl, rfl, fun _ _ => rfl, rfl, rfl, rfl, rfl⟩

/-- Settles O47: the state after OUT is the trap entry's with the byte and the flush mark output (`exec_out_ok`). -/
theorem outWritesOneByte : Obligations.OutWritesOneByte := by
  unfold Obligations.OutWritesOneByte
  intro s hwrite hflush
  have hframe : OnlyRegsAndPc (· == 7#3) s s.trapEntry :=
    ⟨s.trapEntry_regsKept, rfl, fun _ _ => rfl, ⟨rfl, rfl, rfl, rfl⟩, rfl⟩
  exact ⟨_, exec_out_ok hwrite hflush, hframe, s.trapEntry_reg_link, rfl, List.append_assoc _ _ _, rfl⟩

end

section
/-! The encoding (spec/30_encoding.md).  Each layout of R82 is read field by field once; decoder, encoder, table rows and
ignored bits are then compared opcode by opcode. -/

namespace Sys2Proof

/-! ### The layouts of R82, read field by field -/

variable (op : BitVec 4) (d a b : RegIdx)

theorem fields_br (n z p : Bool) (o : BitVec 9) (w : Word)
    (hw : w = op ++ BitVec.ofBool n ++ BitVec.ofBool z ++ BitVec.ofBool p ++ o) :
    w.extractLsb 15 12 = op ∧ w.getLsbD 11 = n ∧ w.getLsbD 10 = z ∧ w.getLsbD 9 = p ∧ w.extractLsb 8 0 = o := by
  subst hw
  simp only [BitVec.extractLsb, BitVec.extractLsb'_append_eq_ite, BitVec.getLsbD_append]
  simp

theorem fields_reg_off9 (o : BitVec 9) (w : Word) (hw : w = op ++ d ++ o) :
    w.extractLsb 15 12 = op ∧ w.extractLsb 11 9 = d ∧ w.extractLsb 8 0 = o := by
  subst hw
  simp only [BitVec.extractLsb, BitVec.extractLsb'_append_eq_ite]
  simp

theorem fields_reg_reg_off6 (o : BitVec 6) (w : Word) (hw : w = op ++ d ++ a ++ o) :
    w.extractLsb 15 12 = op ∧ w.extractLsb 11 9 = d ∧ w.extractLsb 8 6 = a ∧ w.extractLsb 5 0 = o := by
  subst hw
  simp only [BitVec.extractLsb, BitVec.extractLsb'_append_eq_ite]
  simp

theorem fields_reg_reg_imm5 (i : BitVec 5) (w : Word) (hw : w = op ++ d ++ a ++ 0b1#1 ++ i) :
    w.extractLsb 15 12 = op ∧ w.getLsbD 5 = true ∧ w.extractLsb 11 9 = d ∧ w.extractLsb 8 6 = a ∧
      w.extractLsb 4 0 = i := by
  subst hw
  simp only [BitVec.extractLsb, BitVec.extractLsb'_append_eq_ite, BitVec.getLsbD_append]
  simp

theorem fields_reg_reg_reg (x : BitVec 2) (w : Word) (hw : w = op ++ d ++ a ++ 0b0#1 ++ x ++ b) :
    w.extractLsb 15 12 = op ∧ w.getLsbD 5 = false ∧ w.extractLsb 11 9 = d ∧ w.extractLsb 8 6 = a ∧
      w.extractLsb 2 0 = b := by
  subst hw
  simp only [BitVec.extractLsb, BitVec.extractLsb'_append_eq_ite, BitVec.getLsbD_append]
  simp

theorem fields_off11 (o : BitVec 11) (w : Word) (hw : w = op ++ 0b1#1 ++ o) :
    w.extractLsb 15 12 = op ∧ w.getLsbD 11 = true ∧ w.extractLsb 10 0 = o := by
  subst hw
  simp only [BitVec.extractLsb, BitVec.extractLsb'_append_eq_ite, BitVec.getLsbD_append]
  simp

theorem fields_base (x : BitVec 2) (y : BitVec 6) (w : Word) (hw : w = op ++ 0b0#1 ++ x ++ b ++ y) :
    w.extractLsb 15 12 = op ∧ w.getLsbD 11 = false ∧ w.extractLsb 8 6 = b := by
  subst hw
  simp only [BitVec.extractLsb, BitVec.extractLsb'_append_eq_ite, BitVec.getLsbD_append]
  simp

theorem fields_low12 (x : BitVec 12) (w : Word) (hw : w = op ++ x) :
    w.extractLsb 15 12 = op ∧ w.extractLsb 11 0 = x := by
  subst hw
  simp only [BitVec.extractLsb, BitVec.extractLsb'_append_eq_ite]
  simp

theorem fields_vector (x : BitVec 4) (v : Byte) (w : Word) (hw : w = op ++ x ++ v) :
    w.extractLsb 15 12 = op ∧ w.extractLsb 7 0 = v := by
  subst hw
  simp only [BitVec.extractLsb, BitVec.extractLsb'_append_eq_ite]
  simp

/-! ### Decoding each format -/

theorem decode_br_format (n z p : Bool) (o : BitVec 9) :
    decode (0b0000#4 ++ BitVec.ofBool n ++ BitVec.ofBool z ++ BitVec.ofBool p ++ o) = .br n z p o := by
  obtain ⟨hop, hn, hz, hp, ho⟩ := fields_br _ n z p o _ rfl
  rw [decode_op_br hop, hn, hz, hp, ho]

theorem decode_addR_format (x : BitVec 2) : decode (0b0001#4 ++ d ++ a ++ 0b0#1 ++ x ++ b) = .addR d a b := by
  obtain ⟨hop, hmode, hd, ha, hb⟩ := fields_reg_reg_reg _ d a b x _ rfl
  rw [decode_op_add hop, hmode, hd, ha, hb]
  rfl

theorem decode_addI_format (i : BitVec 5) : decode (0b0001#4 ++ d ++ a ++ 0b1#1 ++ i) = .addI d a i := by
  obtain ⟨hop, hmode, hd, ha, hi⟩ := fields_reg_reg_imm5 _ d a i _ rfl
  rw [decode_op_add hop, hmode, hd, ha, hi]
  rfl

theorem decode_ld_format (o : BitVec 9) : decode (0b0010#4 ++ d ++ o) = .ld d o := by
  obtain ⟨hop, hd, ho⟩ := fields_reg_off9 _ d o _ rfl
  rw [decode_op_ld hop, hd, ho]

theorem decode_st_format (o : BitVec 9) : decode (0b0011#4 ++ d ++ o) = .st d o := by
  obtain ⟨hop, hd, ho⟩ := fields_reg_off9 _ d o _ rfl
  rw [decode_op_st hop, hd, ho]

theorem decode_jsr_format (o : BitVec 11) : decode (0b0100#4 ++ 0b1#1 ++ o) = .jsr o := by
  obtain ⟨hop, hmode, ho⟩ := fields_off11 _ o _ rfl
  rw [decode_op_jsr hop, hmode, ho]
  rfl

theorem decode_jsrr_format (x : BitVec 2) (y : BitVec 6) : decode (0b0100#4 ++ 0b0#1 ++ x ++ b ++ y) = .jsrr b := by
  obtain ⟨hop, hmode, hb⟩ := fields_base _ b x y _ rfl
  rw [decode_op_jsr hop, hmode, hb]
  rfl

theorem decode_andR_format (x : BitVec 2) : decode (0b0101#4 ++ d ++ a ++ 0b0#1 ++ x ++ b) = .andR d a b := by
  obtain ⟨hop, hmode, hd, ha, hb⟩ := fields_reg_reg_reg _ d a b x _ rfl
  rw [decode_op_and hop, hmode, hd, ha, hb]
  rfl

theorem decode_andI_format (i : BitVec 5) : decode (0b0101#4 ++ d ++ a ++ 0b1#1 ++ i) = .andI d a i := by
  obtain ⟨hop, hmode, hd, ha, hi⟩ := fields_reg_reg_imm5 _ d a i _ rfl
  rw [decode_op_and hop, hmode, hd, ha, hi]
  rfl

theorem decode_ldr_format (o : BitVec 6) : decode (0b0110#4 ++ d ++ b ++ o) = .ldr d b o := by
  obtain ⟨hop, hd, hb, ho⟩ := fields_reg_reg_off6 _ d b o _ rfl
  rw [decode_op_ldr hop, hd, hb, ho]

theorem decode_str_format (o : BitVec 6) : decode (0b0111#4 ++ d ++ b ++ o) = .str d b o := by
  obtain ⟨hop, hd, hb, ho⟩ := fields_reg_reg_off6 _ d b o _ rfl
  rw [decode_op_str hop, hd, hb, ho]

theorem decode_rti_format (x : BitVec 12) : decode (0b1000#4 ++ x) = .rti x := by
  obtain ⟨hop, hx⟩ := fields_low12 _ x _ rfl
  rw [decode_op_rti hop, hx]

theorem decode_not_format (x : BitVec 6) : decode (0b1001#4 ++ d ++ a ++ x) = .not d a := by
  obtain ⟨hop, hd, ha, -⟩ := fields_reg_reg_off6 _ d a x _ rfl
  rw [decode_op_not hop, hd, ha]

theorem decode_ldi_format (o : BitVec 9) : decode (0b1010#4 ++ d ++ o) = .ldi d o := by
  obtain ⟨hop, hd, ho⟩ := fields_reg_off9 _ d o _ rfl
  rw [decode_op_ldi hop, hd, ho]

theorem decode_sti_format (o : BitVec 9) : decode (0b1011#4 ++ d ++ o) = .sti d o := by
  obtain ⟨hop, hd, ho⟩ := fields_reg_off9 _ d o _ rfl
  rw [decode_op_sti hop, hd, ho]

theorem decode_jump_format (x : BitVec 3) (y : BitVec 6) : decode (0b1100#4 ++ x ++ b ++ y) = decodeJump b := by
  obtain ⟨hop, -, hb, -⟩ := fields_reg_reg_off6 _ x b y _ rfl
  rw [decode_op_jmp hop, hb]

theorem decode_reserved_format (x : BitVec 12) : decode (0b1101#4 ++ x) = .reserved x := by
  obtain ⟨hop, hx⟩ := fields_low12 _ x _ rfl
  rw [decode_op_reserved hop, hx]

theorem decode_lea_format (o : BitVec 9) : decode (0b1110#4 ++ d ++ o) = .lea d o := by
  obtain ⟨hop, hd, ho⟩ := fields_reg_off9 _ d o _ rfl
  rw [decode_op_lea hop, hd, ho]

theorem decode_trap_format (x : BitVec 4) (v : Byte) : decode (0b1111#4 ++ x ++ v) = decodeTrap v := by
  obtain ⟨hop, hv⟩ := fields_vector _ x v _ rfl
  rw [decode_op_trap hop, hv]

theorem decodeTrap_undefined : ∀ v : Byte, definedVector v = false → decodeTrap v = .trap v := by decide

theorem decodeTrap_wf : ∀ v : Byte, (decodeTrap v).wf = true := by decide

theorem decodeJump_wf : ∀ b : RegIdx, (decodeJump b).wf = true := by decide

/-! ### The encoder writes the formats -/

/-- The encoder's 000 in bits 5..3 of a register operand is the mode bit 0 before two ignored bits. -/
theorem append_mode_zero {n : Nat} (x : BitVec n) : x ++ 0b000#3 = x ++ 0b0#1 ++ 0b00#2 :=
  (BitVec.append_assoc (x₁ := x) (x₂ := 0b0#1) (x₃ := 0b00#2)).symm

theorem encode_addR_format : encode (.addR d a b) = 0b0001#4 ++ d ++ a ++ 0b0#1 ++ 0b00#2 ++ b :=
  congrArg (· ++ b) (append_mode_zero (0b0001#4 ++ d ++ a))

theorem encode_andR_format : encode (.andR d a b) = 0b0101#4 ++ d ++ a ++ 0b0#1 ++ 0b00#2 ++ b :=
  congrArg (· ++ b) (append_mode_zero (0b0101#4 ++ d ++ a))

/-- A word with a row of its own decodes to that row, so its base instruction is not well formed. -/
theorem decode_encode {i : Instr} (h : i.wf = true) : decode (encode i) = i := by
  cases i with
  | br n z p o => exact decode_br_format n z p o
  | addR d a b => rw [encode_addR_format, decode_addR_format]
  | addI d a i => exact decode_addI_format d a i
  | ld d o => exact decode_ld_format d o
  | st r o => exact decode_st_format r o
  | jsr o => exact decode_jsr_format o
  | jsrr b => exact decode_jsrr_format b 0b00#2 0b000000#6
  | andR d a b => rw [encode_andR_format, decode_andR_format]
  | andI d a i => exact decode_andI_format d a i
  | ldr d b o => exact decode_ldr_format d b o
  | str r b o => exact decode_str_format r b o
  | rti x => exact decode_rti_format x
  | not d a => exact decode_not_format d a 0b111111#6
  | ldi d o => exact decode_ldi_format d o
  | sti r o => exact decode_sti_format r o
  | reserved x => exact decode_reserved_format x
  | lea d o => exact decode_lea_format d o
  | jmp b =>
    have hb : b ≠ 7#3 := by simpa [Instr.wf] using h
    exact (decode_jump_format b 0b000#3 0b000000#6).trans (if_neg hb)
  | trap v =>
    have hv : definedVector v = false := by simpa [Instr.wf] using h
    exact (decode_trap_format 0b0000#4 v).trans (decodeTrap_undefined v hv)
  | getc | out | puts | inp | putsp | halt | ret => rfl

end Sys2Proof

open Sys2Proof

/-- Settles O1: every word the encoder writes is one of the formats, read back by the decoder (`decode_encode`). -/
theorem decodeInvertsEncode : Obligations.DecodeInvertsEncode := by
  unfold Obligations.DecodeInvertsEncode
  exact fun _ h => decode_encode h

/-- Settles O4: one lemma for each format; the jump words and the trap words are the named rows' where R93 says so. -/
theorem formatsDecodeFieldByField : Obligations.FormatsDecodeFieldByField := by
  unfold Obligations.FormatsDecodeFieldByField
  refine ⟨decode_br_format, decode_addR_format, decode_addI_format, decode_ld_format, decode_st_format,
    decode_jsr_format, fun x b y => decode_jsrr_format b x y, decode_andR_format, decode_andI_format,
    decode_ldr_format, decode_str_format, decode_rti_format, decode_not_format, decode_ldi_format, decode_sti_format,
    fun x b y => decode_jump_format b x y, decode_reserved_format, decode_lea_format, fun x v hv => ?_, fun x => ?_⟩
  · rw [decode_trap_format, decodeTrap_undefined v hv]
  · simp only [decode_trap_format]
    decide

/-- Settles O5: ten closed words, decoded by computation. -/
theorem writtenWordsDecode : Obligations.WrittenWordsDecode := by
  unfold Obligations.WrittenWordsDecode
  decide

end

section
/-! The encoder after the decoder, the ignored bits and the table's rows (spec/30_encoding.md sections 4 and 6). -/

namespace Sys2Proof

/-- A case split over the sixteen opcodes. -/
theorem opcode_cases {motive : BitVec 4 → Prop} (h0 : motive 0x0#4) (h1 : motive 0x1#4) (h2 : motive 0x2#4)
    (h3 : motive 0x3#4) (h4 : motive 0x4#4) (h5 : motive 0x5#4) (h6 : motive 0x6#4) (h7 : motive 0x7#4)
    (h8 : motive 0x8#4) (h9 : motive 0x9#4) (hA : motive 0xA#4) (hB : motive 0xB#4) (hC : motive 0xC#4)
    (hD : motive 0xD#4) (hE : motive 0xE#4) (hF : motive 0xF#4) (op : BitVec 4) : motive op := by
  obtain ⟨⟨n, hn⟩⟩ := op
  interval_cases n <;> assumption

variable {w : Word}

/-! ### Ignored bits, opcode by opcode (R88) -/

theorem ignoredBits_op_add (h : w.extractLsb 15 12 = 0b0001#4) :
    ignoredBits w = if w.getLsbD 5 then 0x0000 else 0x0018 := by
  unfold ignoredBits; rw [h]; rfl

theorem ignoredBits_op_and (h : w.extractLsb 15 12 = 0b0101#4) :
    ignoredBits w = if w.getLsbD 5 then 0x0000 else 0x0018 := by
  unfold ignoredBits; rw [h]; rfl

theorem ignoredBits_op_jsr (h : w.extractLsb 15 12 = 0b0100#4) :
    ignoredBits w = if w.getLsbD 11 then 0x0000 else 0x063F := by
  unfold ignoredBits; rw [h]; rfl

theorem ignoredBits_op_rti (h : w.extractLsb 15 12 = 0b1000#4) : ignoredBits w = 0x0FFF#16 := by
  unfold ignoredBits; rw [h]; rfl

theorem ignoredBits_op_not (h : w.extractLsb 15 12 = 0b1001#4) : ignoredBits w = 0x003F#16 := by
  unfold ignoredBits; rw [h]; rfl

theorem ignoredBits_op_jmp (h : w.extractLsb 15 12 = 0b1100#4) : ignoredBits w = 0x0E3F#16 := by
  unfold ignoredBits; rw [h]; rfl

theorem ignoredBits_op_reserved (h : w.extractLsb 15 12 = 0b1101#4) : ignoredBits w = 0x0FFF#16 := by
  unfold ignoredBits; rw [h]; rfl

theorem ignoredBits_op_trap (h : w.extractLsb 15 12 = 0b1111#4) : ignoredBits w = 0x0F00#16 := by
  unfold ignoredBits; rw [h]; rfl

/-- The opcodes whose words have no ignored bit in any mode. -/
def opcodesWithoutIgnoredBits : List (BitVec 4) := [0x0#4, 0x2#4, 0x3#4, 0x6#4, 0x7#4, 0xA#4, 0xB#4, 0xE#4]

theorem ignoredBits_eq_zero (h : w.extractLsb 15 12 ∈ opcodesWithoutIgnoredBits) : ignoredBits w = 0x0000#16 := by
  revert h
  unfold ignoredBits
  generalize w.extractLsb 15 12 = op
  induction op using opcode_cases <;> simp [opcodesWithoutIgnoredBits]

/-! ### A word put together again from its fields -/

theorem append_low12 : w.extractLsb 15 12 ++ w.extractLsb 11 0 = w := by
  apply BitVec.eq_of_getLsbD_eq
  intro k hk
  simp only [BitVec.getLsbD_append, BitVec.getLsbD_extractLsb]
  interval_cases k <;> rfl

theorem append_reg_off9 : w.extractLsb 15 12 ++ w.extractLsb 11 9 ++ w.extractLsb 8 0 = w := by
  apply BitVec.eq_of_getLsbD_eq
  intro k hk
  simp only [BitVec.getLsbD_append, BitVec.getLsbD_extractLsb]
  interval_cases k <;> rfl

theorem append_br : w.extractLsb 15 12 ++ BitVec.ofBool (w.getLsbD 11) ++ BitVec.ofBool (w.getLsbD 10) ++
    BitVec.ofBool (w.getLsbD 9) ++ w.extractLsb 8 0 = w := by
  apply BitVec.eq_of_getLsbD_eq
  intro k hk
  simp only [BitVec.getLsbD_append, BitVec.getLsbD_extractLsb]
  interval_cases k <;> simp

theorem append_reg_reg_off6 :
    w.extractLsb 15 12 ++ w.extractLsb 11 9 ++ w.extractLsb 8 6 ++ w.extractLsb 5 0 = w := by
  apply BitVec.eq_of_getLsbD_eq
  intro k hk
  simp only [BitVec.getLsbD_append, BitVec.getLsbD_extractLsb]
  interval_cases k <;> rfl

theorem append_reg_reg_imm5 : w.extractLsb 15 12 ++ w.extractLsb 11 9 ++ w.extractLsb 8 6 ++
    BitVec.ofBool (w.getLsbD 5) ++ w.extractLsb 4 0 = w := by
  apply BitVec.eq_of_getLsbD_eq
  intro k hk
  simp only [BitVec.getLsbD_append, BitVec.getLsbD_extractLsb]
  interval_cases k <;> simp

theorem append_off11 : w.extractLsb 15 12 ++ BitVec.ofBool (w.getLsbD 11) ++ w.extractLsb 10 0 = w := by
  apply BitVec.eq_of_getLsbD_eq
  intro k hk
  simp only [BitVec.getLsbD_append, BitVec.getLsbD_extractLsb]
  interval_cases k <;> simp

/-! ### The encoder after the decoder -/

/-- `v` and `w` differ in bits of the mask `m` only. -/
def AgreeOff (m v w : Word) : Prop := (v ^^^ w) &&& ~~~m = 0x0000#16

theorem AgreeOff.of_eq {m v w : Word} (h : v = w) : AgreeOff m v w := by
  rw [AgreeOff, h, BitVec.xor_self, BitVec.zero_and]

theorem append_register_agrees : AgreeOff 0x0018#16
    (w.extractLsb 15 12 ++ w.extractLsb 11 9 ++ w.extractLsb 8 6 ++ BitVec.ofBool (w.getLsbD 5) ++ 0b00#2 ++
      w.extractLsb 2 0) w := by
  apply BitVec.eq_of_getLsbD_eq
  intro k hk
  simp only [BitVec.getLsbD_and, BitVec.getLsbD_xor, BitVec.getLsbD_append, BitVec.getLsbD_extractLsb]
  interval_cases k <;> simp

theorem append_base_agrees : AgreeOff 0x063F#16
    (w.extractLsb 15 12 ++ BitVec.ofBool (w.getLsbD 11) ++ 0b00#2 ++ w.extractLsb 8 6 ++ 0b000000#6) w := by
  apply BitVec.eq_of_getLsbD_eq
  intro k hk
  simp only [BitVec.getLsbD_and, BitVec.getLsbD_xor, BitVec.getLsbD_append, BitVec.getLsbD_extractLsb]
  interval_cases k <;> simp

theorem append_not_agrees : AgreeOff 0x003F#16
    (w.extractLsb 15 12 ++ w.extractLsb 11 9 ++ w.extractLsb 8 6 ++ 0b111111#6) w := by
  apply BitVec.eq_of_getLsbD_eq
  intro k hk
  simp only [BitVec.getLsbD_and, BitVec.getLsbD_xor, BitVec.getLsbD_append, BitVec.getLsbD_extractLsb]
  interval_cases k <;> simp

theorem append_jump_agrees : AgreeOff 0x0E3F#16
    (w.extractLsb 15 12 ++ 0b000#3 ++ w.extractLsb 8 6 ++ 0b000000#6) w := by
  apply BitVec.eq_of_getLsbD_eq
  intro k hk
  simp only [BitVec.getLsbD_and, BitVec.getLsbD_xor, BitVec.getLsbD_append, BitVec.getLsbD_extractLsb]
  interval_cases k <;> simp

theorem append_vector_agrees : AgreeOff 0x0F00#16 (w.extractLsb 15 12 ++ 0b0000#4 ++ w.extractLsb 7 0) w := by
  apply BitVec.eq_of_getLsbD_eq
  intro k hk
  simp only [BitVec.getLsbD_and, BitVec.getLsbD_xor, BitVec.getLsbD_append, BitVec.getLsbD_extractLsb]
  interval_cases k <;> simp

/-- A word that R93 names apart is its base instruction's. -/
theorem encode_decodeJump : ∀ b : RegIdx, encode (decodeJump b) = 0b1100#4 ++ 0b000#3 ++ b ++ 0b000000#6 := by decide

theorem encode_decodeTrap : ∀ v : Byte, encode (decodeTrap v) = 0b1111#4 ++ 0b0000#4 ++ v := by decide

/-- The two opcodes whose error reports the word lose no bit of it (R210, R212). -/
theorem encode_decode_of_illegal (h : w.extractLsb 15 12 = 8#4 ∨ w.extractLsb 15 12 = 13#4) :
    encode (decode w) = w := by
  rcases h with h | h
  · rw [decode_op_rti h, encode, ← h, append_low12]
  · rw [decode_op_reserved h, encode, ← h, append_low12]

theorem encode_decode_agrees (w : Word) : AgreeOff (ignoredBits w) (encode (decode w)) w := by
  generalize h : w.extractLsb 15 12 = op
  induction op using opcode_cases with
  | h0 => rw [decode_op_br h, encode, ← h]; exact .of_eq append_br
  | h1 =>
    have hreg := append_register_agrees (w := w)
    have himm := append_reg_reg_imm5 (w := w)
    rw [decode_op_add h, ignoredBits_op_add h]
    cases hmode : w.getLsbD 5 <;> rw [h, hmode] at hreg himm
    · exact (encode_addR_format _ _ _).symm ▸ hreg
    · exact .of_eq himm
  | h2 => rw [decode_op_ld h, encode, ← h]; exact .of_eq append_reg_off9
  | h3 => rw [decode_op_st h, encode, ← h]; exact .of_eq append_reg_off9
  | h4 =>
    have hbase := append_base_agrees (w := w)
    have hoff := append_off11 (w := w)
    rw [decode_op_jsr h, ignoredBits_op_jsr h]
    cases hmode : w.getLsbD 11 <;> rw [h, hmode] at hbase hoff
    · exact hbase
    · exact .of_eq hoff
  | h5 =>
    have hreg := append_register_agrees (w := w)
    have himm := append_reg_reg_imm5 (w := w)
    rw [decode_op_and h, ignoredBits_op_and h]
    cases hmode : w.getLsbD 5 <;> rw [h, hmode] at hreg himm
    · exact (encode_andR_format _ _ _).symm ▸ hreg
    · exact .of_eq himm
  | h6 => rw [decode_op_ldr h, encode, ← h]; exact .of_eq append_reg_reg_off6
  | h7 => rw [decode_op_str h, encode, ← h]; exact .of_eq append_reg_reg_off6
  | h8 => exact .of_eq (encode_decode_of_illegal (.inl h))
  | h9 => rw [decode_op_not h, ignoredBits_op_not h, encode, ← h]; exact append_not_agrees
  | hA => rw [decode_op_ldi h, encode, ← h]; exact .of_eq append_reg_off9
  | hB => rw [decode_op_sti h, encode, ← h]; exact .of_eq append_reg_off9
  | hC => rw [decode_op_jmp h, ignoredBits_op_jmp h, encode_decodeJump, ← h]; exact append_jump_agrees
  | hD => exact .of_eq (encode_decode_of_illegal (.inr h))
  | hE => rw [decode_op_lea h, encode, ← h]; exact .of_eq append_reg_off9
  | hF => rw [decode_op_trap h, ignoredBits_op_trap h, encode_decodeTrap, ← h]; exact append_vector_agrees

theorem decode_wf (w : Word) : (decode w).wf = true := by
  unfold decode
  split
  case h_13 => exact decodeJump_wf _
  case h_16 => exact decodeTrap_wf _
  case h_2 | h_5 | h_6 => split <;> rfl
  all_goals rfl

/-! ### Flipping ignored bits (D10) -/

/-- A field none of whose bits is in the mask `m` is not touched by flips inside `m`. -/
theorem extractLsb_flip {m : Word} {hi lo : Nat} (x : Word) (h : m.extractLsb hi lo = 0#_) :
    (w ^^^ (x &&& m)).extractLsb hi lo = w.extractLsb hi lo := by
  rw [BitVec.extractLsb_xor, BitVec.extractLsb_and, h, BitVec.and_zero, BitVec.xor_zero]

theorem getLsbD_flip {m : Word} {k : Nat} (x : Word) (h : m.getLsbD k = false) :
    (w ^^^ (x &&& m)).getLsbD k = w.getLsbD k := by
  rw [BitVec.getLsbD_xor, BitVec.getLsbD_and, h, Bool.and_false, Bool.xor_false]

theorem flip_zero (x : Word) : w ^^^ (x &&& 0x0000#16) = w := by
  rw [BitVec.and_zero, BitVec.xor_zero]

/-- No ignored bit is a bit of the opcode. -/
theorem opcode_ignoredBits (w : Word) : (ignoredBits w).extractLsb 15 12 = 0#4 := by
  unfold ignoredBits
  split
  case h_1 | h_2 | h_3 => split <;> decide
  all_goals decide

theorem opcode_flip (x : Word) :
    (w ^^^ (x &&& ignoredBits w)).extractLsb 15 12 = w.extractLsb 15 12 :=
  extractLsb_flip x (opcode_ignoredBits w)

theorem decode_flip (x : Word) (hill : ¬ (w.extractLsb 15 12 = 8#4 ∨ w.extractLsb 15 12 = 13#4)) :
    decode (w ^^^ (x &&& ignoredBits w)) = decode w := by
  have hop := opcode_flip (w := w) x
  by_cases hnone : w.extractLsb 15 12 ∈ opcodesWithoutIgnoredBits
  · rw [ignoredBits_eq_zero hnone, flip_zero]
  generalize h : w.extractLsb 15 12 = op at hop hill hnone
  induction op using opcode_cases with
  | h1 =>
    rw [decode_op_add hop, decode_op_add h, ignoredBits_op_add h]
    cases hmode : w.getLsbD 5 <;>
      simp (disch := decide) only [Bool.false_eq_true, hmode, extractLsb_flip, getLsbD_flip, ↓reduceIte]
  | h4 =>
    rw [decode_op_jsr hop, decode_op_jsr h, ignoredBits_op_jsr h]
    cases hmode : w.getLsbD 11 <;>
      simp (disch := decide) only [Bool.false_eq_true, hmode, extractLsb_flip, getLsbD_flip, ↓reduceIte]
  | h5 =>
    rw [decode_op_and hop, decode_op_and h, ignoredBits_op_and h]
    cases hmode : w.getLsbD 5 <;>
      simp (disch := decide) only [Bool.false_eq_true, hmode, extractLsb_flip, getLsbD_flip, ↓reduceIte]
  | h9 =>
    rw [decode_op_not hop, decode_op_not h, ignoredBits_op_not h, extractLsb_flip x (by decide),
      extractLsb_flip x (by decide)]
  | hC => rw [decode_op_jmp hop, decode_op_jmp h, ignoredBits_op_jmp h, extractLsb_flip x (by decide)]
  | hF => rw [decode_op_trap hop, decode_op_trap h, ignoredBits_op_trap h, extractLsb_flip x (by decide)]
  | h8 | hD => simp at hill
  | _ => simp [opcodesWithoutIgnoredBits] at hnone

/-- An illegal opcode raises BadOpcode with the whole word it has (R210, R212). -/
theorem exec_decode_of_illegal (h : w.extractLsb 15 12 = 8#4 ∨ w.extractLsb 15 12 = 13#4) (s : Machine.State) :
    Machine.exec (decode w) s = .next { s with fault := some (.badOpcode s.instrAddr w) } := by
  have hword : encode (decode w) = w := encode_decode_of_illegal h
  rcases h with h | h
  · rw [decode_op_rti h] at hword ⊢
    exact congrArg (fun v => Host.Outcome.next { s with fault := some (.badOpcode s.instrAddr v) }) hword
  · rw [decode_op_reserved h] at hword ⊢
    exact congrArg (fun v => Host.Outcome.next { s with fault := some (.badOpcode s.instrAddr v) }) hword

/-! ### The rows of the opcode table (R94) -/

/-- The law `EncodingMatchesRow`, for every instruction. -/
theorem encode_and_row (i : Instr) : encode i &&& i.row.mask = i.row.pattern := by
  cases i with
  | br => exact Laws.EncodingMatchesRow.br _ _ _ _
  | addR => exact Laws.EncodingMatchesRow.addR _ _ _
  | addI => exact Laws.EncodingMatchesRow.addI _ _ _
  | ld => exact Laws.EncodingMatchesRow.ld _ _
  | st => exact Laws.EncodingMatchesRow.st _ _
  | jsr => exact Laws.EncodingMatchesRow.jsr _
  | jsrr => exact Laws.EncodingMatchesRow.jsrr _
  | andR => exact Laws.EncodingMatchesRow.andR _ _ _
  | andI => exact Laws.EncodingMatchesRow.andI _ _ _
  | ldr => exact Laws.EncodingMatchesRow.ldr _ _ _
  | str => exact Laws.EncodingMatchesRow.str _ _ _
  | rti => exact Laws.EncodingMatchesRow.rti _
  | not => exact Laws.EncodingMatchesRow.not _ _
  | ldi => exact Laws.EncodingMatchesRow.ldi _ _
  | sti => exact Laws.EncodingMatchesRow.sti _ _
  | jmp => exact Laws.EncodingMatchesRow.jmp _
  | reserved => exact Laws.EncodingMatchesRow.reserved _
  | lea => exact Laws.EncodingMatchesRow.lea _ _
  | trap => exact Laws.EncodingMatchesRow.trap _
  | getc | out | puts | inp | putsp | halt | ret => rfl

theorem decodeJump_row : ∀ b : RegIdx, 0x0E3F#16 &&& (decodeJump b).row.mask = 0x0000#16 := by decide

theorem decodeTrap_row : ∀ v : Byte, 0x0F00#16 &&& (decodeTrap v).row.mask = 0x0000#16 := by decide

/-- No row looks at a bit that is ignored in its words. -/
theorem ignoredBits_and_row (w : Word) : ignoredBits w &&& (decode w).row.mask = 0x0000#16 := by
  by_cases hnone : w.extractLsb 15 12 ∈ opcodesWithoutIgnoredBits
  · rw [ignoredBits_eq_zero hnone, BitVec.zero_and]
  generalize h : w.extractLsb 15 12 = op at hnone
  induction op using opcode_cases with
  | h1 => rw [decode_op_add h, ignoredBits_op_add h]; split <;> simp [Instr.row]
  | h4 => rw [decode_op_jsr h, ignoredBits_op_jsr h]; split <;> simp [Instr.row]
  | h5 => rw [decode_op_and h, ignoredBits_op_and h]; split <;> simp [Instr.row]
  | h8 => rw [decode_op_rti h, ignoredBits_op_rti h]; simp [Instr.row]
  | h9 => rw [decode_op_not h, ignoredBits_op_not h]; simp [Instr.row]
  | hC => rw [decode_op_jmp h, ignoredBits_op_jmp h]; exact decodeJump_row _
  | hD => rw [decode_op_reserved h, ignoredBits_op_reserved h]; simp [Instr.row]
  | hF => rw [decode_op_trap h, ignoredBits_op_trap h]; exact decodeTrap_row _
  | _ => simp [opcodesWithoutIgnoredBits] at hnone

/-- Words that differ in bits of `m` only are the same under a mask that has no bit of `m`. -/
theorem AgreeOff.and_eq {m k v u : Word} (h : AgreeOff m v u) (hk : m &&& k = 0x0000#16) : v &&& k = u &&& k := by
  apply BitVec.eq_of_getLsbD_eq
  intro n hn
  have hbit : ((v ^^^ u) &&& ~~~m).getLsbD n = false := by rw [h, BitVec.getLsbD_zero]
  have hmask : (m &&& k).getLsbD n = false := by rw [hk, BitVec.getLsbD_zero]
  rw [BitVec.getLsbD_and, BitVec.getLsbD_and]
  rw [BitVec.getLsbD_and, BitVec.getLsbD_xor, BitVec.getLsbD_not, decide_eq_true hn] at hbit
  rw [BitVec.getLsbD_and] at hmask
  revert hbit hmask
  generalize v.getLsbD n = p, u.getLsbD n = q, m.getLsbD n = i, k.getLsbD n = j
  revert p q i j
  decide

theorem decode_row_holds (w : Word) : (decode w).row.holds w = true := by
  rw [Row.holds, beq_iff_eq, ← (encode_decode_agrees w).and_eq (ignoredBits_and_row w)]
  exact encode_and_row (decode w)

/-- The bits that the base rows look at: the opcode, JSR's mode bit 11 and the mode bit 5 of ADD and AND. -/
def rowKey (op : BitVec 4) (b11 b5 : Bool) : Word :=
  op ++ BitVec.ofBool b11 ++ 0b00000#5 ++ BitVec.ofBool b5 ++ 0b00000#5

theorem and_rowMask (w : Word) : w &&& 0xF820#16 = rowKey (w.extractLsb 15 12) (w.getLsbD 11) (w.getLsbD 5) := by
  apply BitVec.eq_of_getLsbD_eq
  intro k hk
  simp only [rowKey, BitVec.getLsbD_and, BitVec.getLsbD_append, BitVec.getLsbD_extractLsb]
  interval_cases k <;> simp

/-- A base row holds of a word when it holds of the word's key. -/
theorem baseRow_holds_key (w : Word) {r : Row} (hr : r ∈ baseRows) :
    r.holds w = r.holds (rowKey (w.extractLsb 15 12) (w.getLsbD 11) (w.getLsbD 5)) := by
  have hmask : ∀ r ∈ baseRows, 0xF820#16 &&& r.mask = r.mask := by decide
  rw [← and_rowMask, Row.holds, Row.holds, BitVec.and_assoc, hmask r hr]

theorem baseRows_key_length : ∀ (op : BitVec 4) (b11 b5 : Bool),
    (baseRows.filter (·.holds (rowKey op b11 b5))).length = 1 := by decide

end Sys2Proof

open Sys2Proof

/-- Settles O2: the decoding is well formed (`decode_wf`), and the encoder puts its fields back where the decoder read
them (`encode_decode_agrees`), the whole word for the two illegal opcodes. -/
theorem encodeInvertsDecodeButIgnoredBits : Obligations.EncodeInvertsDecodeButIgnoredBits := by
  unfold Obligations.EncodeInvertsDecodeButIgnoredBits
  exact fun w => ⟨decode_wf w, encode_decode_agrees w, encode_decode_of_illegal⟩

/-- Settles O3: the flips keep the opcode; an illegal opcode reports its own word, and of every other word the decoder
reads no field that has an ignored bit (`decode_flip`). -/
theorem ignoredBitsHaveNoEffect : Obligations.IgnoredBitsHaveNoEffect := by
  unfold Obligations.IgnoredBitsHaveNoEffect
  intro w x s
  split
  case isTrue h => exact exec_decode_of_illegal (by rwa [opcode_flip]) s
  case isFalse h => exact decode_flip x h

/-- Settles O6: which base rows hold depends on six bits, all of whose values are tried; and the decoded instruction's
word matches its own row (`EncodingMatchesRow`) and differs from the decoded word in bits that row ignores. -/
theorem tableRowsPartitionTheWords : Obligations.TableRowsPartitionTheWords := by
  unfold Obligations.TableRowsPartitionTheWords
  intro w
  refine ⟨?_, decode_row_holds w⟩
  rw [List.filter_congr fun r hr => baseRow_holds_key w hr]
  exact baseRows_key_length _ _ _

/-- Settles O7: sixteen bits are a whole Word, given in two bytes that are put together again; only an empty or a
one-byte string has no such two bytes. -/
theorem onlyShortInputIsRejected : Obligations.OnlyShortInputIsRejected := by
  unfold Obligations.OnlyShortInputIsRejected
  constructor
  · intro w
    have hw : BitVec.ofNat 16 (w.toNat % 2 ^ 16) = w := by rw [Nat.mod_eq_of_lt w.isLt]; simp
    have hbytes : w.extractLsb 15 8 ++ w.extractLsb 7 0 = w := by
      apply BitVec.eq_of_getLsbD_eq
      intro k hk
      simp only [BitVec.getLsbD_append, BitVec.getLsbD_extractLsb]
      interval_cases k <;> rfl
    rw [decodeTableWord, hw]
    exact congrArg (fun v => some (decode v)) hbytes
  · intro bs
    match bs with
    | [] | [_] | _ :: _ :: _ => simp [decodeBytes]

end

section
/-! The step (spec/42_control.md R170): what it fetches and runs, what creation leaves, and the invariant that every step
keeps, from the lemmas that say what an instruction and a held routine can do. -/

namespace Sys2Proof.Machine

/-! ### The fetch and what runs after it -/

theorem State.fetches.step_eq {s : State} (h : s.fetches) :
    step s = (memRead s.pc s).andThen s.pc fun w u => exec (decode w) u.advance := by
  obtain ⟨hfault, hrun, hheld⟩ := h
  simp only [step, hfault, hrun, hheld, ↓reduceIte]
  rfl

theorem step_of_read {s u : State} {w : Word} (h : s.fetches) (hm : memRead s.pc s = .ok w u) :
    step s = exec (decode w) u.advance := by
  rw [h.step_eq, hm]; rfl

theorem step_of_read_failed {s u : State} {op : DevOp} (h : s.fetches) (hm : memRead s.pc s = .failed op u) :
    step s = .next { u with fault := some (.deviceError s.pc op) } := by
  rw [h.step_eq, hm]; rfl

theorem step_of_plain {s : State} (h : s.fetches) (ht : s.params.triggers s.pc = false) :
    step s = exec (decode (s.cell s.pc)) s.advance :=
  step_of_read h (memRead_plain ht)

theorem step_of_fault {s : State} {e : ExecError} (h : s.fault = some e) : step s = .fault (.afterError e) := by
  simp [step, h]

/-! ### The placed word -/

theorem State.withFetchWord_fetches (s : State) (nbits w : Nat) : (s.withFetchWord nbits w).fetches := ⟨rfl, rfl, rfl⟩

/-- PC is taken out of POLL_TRIGGER. -/
theorem State.withFetchWord_triggers (s : State) (nbits w : Nat) :
    (s.withFetchWord nbits w).params.triggers s.pc = false := by
  simp [State.withFetchWord, Params.triggers]

theorem State.withFetchWord_cell {s : State} (h : s.mem.wf = true) (w : Word) :
    (s.withFetchWord 16 w.toNat).cell s.pc = w := by
  have hw : BitVec.ofNat 16 (w.toNat % 2 ^ 16) = w := by rw [Nat.mod_eq_of_lt w.isLt]; simp
  have hcell : (s.store s.pc (BitVec.ofNat 16 (w.toNat % 2 ^ 16))).cell s.pc = w := by
    rw [State.store_cell_self h, hw]
  exact hcell

/-! ### The invariant -/

theorem State.heldOk_iff (s : State) :
    s.heldOk = true ↔ (s.held.isSome = true → s.running = true ∧ s.reg 7#3 = s.pc) := by
  cases h : s.held <;> simp [State.heldOk, h]

theorem State.faultOk_of_none {s : State} (h : s.fault = none) : s.faultOk = true := by
  simp [State.faultOk, h]

/-- An error raised by an instruction after its fetch: PC is already the next address. -/
theorem State.faultOk_of_next {s : State} {e : ExecError} (h : s.fault = some e) (hpc : s.pc = e.pc + 1#16) :
    s.faultOk = true := by
  simp [State.faultOk, h, hpc]

/-- An error raised by the fetch: PC is still the instruction's address. -/
theorem State.faultOk_of_fetch {s : State} {pc : Word} {op : DevOp} (h : s.fault = some (.deviceError pc op))
    (hpc : s.pc = pc) : s.faultOk = true := by
  simp [State.faultOk, h, hpc, ExecError.pc, ExecError.code]

theorem ConsoleEffect.heldOk {s t : State} (h : ConsoleEffect s t) (hs : s.heldOk = true) : t.heldOk = true := by
  rw [State.heldOk_iff] at hs ⊢
  rwa [h.held, h.running, h.reg, h.pc]

/-- An instruction executed on a state without an error or a hold keeps the invariant. -/
theorem ExecEffect.inv {s t : State} (h : ExecEffect s t) (hfault : s.fault = none) (hheld : s.held = none)
    (hrun : s.running = true) (hm : s.mem.wf = true) (hp : s.params.wf = true) : t.Inv := by
  refine ⟨h.wf hm, h.params ▸ hp, (State.heldOk_iff t).2 fun hsome => ?_, ?_⟩
  · rcases h.held with hsame | ⟨-, hr, h7, hpc⟩
    · rw [hsame, hheld] at hsome; cases hsome
    · exact ⟨hr.trans hrun, h7.trans hpc.symm⟩
  · rcases h.fault with hsame | ⟨e, he, hepc, hpc⟩
    · exact State.faultOk_of_none (hsame.trans hfault)
    · exact State.faultOk_of_next he (by rw [hpc, hepc, BitVec.sub_add_cancel])

/-- A held routine that goes on keeps the invariant: it does not move PC or write R7, and HALT, which stops the machine,
never holds. -/
theorem RoutineEffect.inv {inp : Bool} {s t : State} (h : RoutineEffect inp false { s with held := none } t)
    (hs : s.Inv) (hfault : s.fault = none) (hheld : s.held.isSome = true) : t.Inv := by
  obtain ⟨hm, hp, hok, -⟩ := hs
  obtain ⟨hrun, h7⟩ := (State.heldOk_iff s).1 hok hheld
  have hpc : t.pc = s.pc := h.pc
  refine ⟨h.wf hm, h.params ▸ hp, (State.heldOk_iff t).2 fun _ => ⟨?_, ?_⟩, ?_⟩
  · rcases h.running with hr | ⟨hstops, -⟩
    · exact hr.trans hrun
    · cases hstops
  · rcases h.regs with hr | ⟨-, c, hr⟩ <;> simpa [State.reg, hr, Regs.get_set, hpc] using h7
  · rcases h.fault with hsame | ⟨op, he⟩
    · exact State.faultOk_of_none (hsame.trans hfault)
    · exact State.faultOk_of_next he (hpc.trans (BitVec.sub_add_cancel s.pc 1#16).symm)

theorem step_keeps_inv {s t : State} (hs : s.Inv) (h : step s = .next t) : t.Inv := by
  obtain ⟨hfault, ⟨-, rfl⟩ | ⟨k, -, hheld, hres⟩ | ⟨w, u, hrun, hheld, hread, hexec⟩ |
    ⟨op, u, -, -, hread, rfl⟩⟩ := step_cases h
  · exact hs
  · obtain ⟨inp, heff⟩ := resume_effect hres
    exact heff.inv hs hfault (by rw [hheld]; rfl)
  · have hfetch := memRead_ok_effect hread
    obtain ⟨hm, hp, -, -⟩ := hs
    exact (exec_effect hexec).inv (hfetch.fault.trans hfault) (hfetch.held.trans hheld) (hfetch.running.trans hrun)
      (hfetch.wf hm) (hfetch.params ▸ hp)
  · have hfetch := memRead_failed_effect hread
    obtain ⟨hm, hp, hok, -⟩ := hs
    exact ⟨hfetch.wf hm, hfetch.params ▸ hp, hfetch.heldOk hok, State.faultOk_of_fetch rfl hfetch.pc⟩

theorem State.created_inv {p : Params} (hp : p.wf = true) (g : Regs) (c : Cond) (con : Console) :
    (State.created p g c con).Inv := ⟨rfl, hp, rfl, rfl⟩

/-! ### The trace of a step -/

/-- What a step may do to the trace and the parameters, said once for its four cases. -/
theorem step_trace {s t : State} (h : step s = .next t) :
    s.console.output <+: t.console.output ∧ t.console.input <:+ s.console.input ∧ t.params = s.params := by
  obtain ⟨-, ⟨-, rfl⟩ | ⟨k, -, -, hres⟩ | ⟨w, u, -, -, hread, hexec⟩ | ⟨op, u, -, -, hread, rfl⟩⟩ := step_cases h
  · exact ⟨List.prefix_rfl, List.suffix_rfl, rfl⟩
  · obtain ⟨inp, heff⟩ := resume_effect hres
    exact ⟨heff.output, heff.input, heff.params⟩
  · have hfetch := memRead_ok_effect hread
    have heff := exec_effect hexec
    exact ⟨hfetch.output.trans heff.output, heff.input.trans hfetch.input, heff.params.trans hfetch.params⟩
  · have hfetch := memRead_failed_effect hread
    exact ⟨hfetch.output, hfetch.input, hfetch.params⟩

end Sys2Proof.Machine

open Sys2Proof Sys2Proof.Machine

/-- Settles O18, by the four cases of a step (`step_cases`), each from what it can do (`step_keeps_inv`). -/
theorem stepKeepsTheInvariant : Obligations.StepKeepsTheInvariant := by
  unfold Obligations.StepKeepsTheInvariant
  exact fun _ _ => step_keeps_inv

/-- Settles O19: creation lists no cell, holds nothing and has no error, whatever is drawn. -/
theorem creationMeetsTheInvariant : Obligations.CreationMeetsTheInvariant := by
  unfold Obligations.CreationMeetsTheInvariant
  exact ⟨fun _ g c con hp => State.created_inv hp g c con, State.created_inv rfl _ _ _⟩

/-- Settles O20: every clause is a field of `State.created`, and a machine that does not run is not moved. -/
theorem creationState : Obligations.CreationState := by
  unfold Obligations.CreationState
  exact fun p g c con => ⟨fun _ => rfl, rfl, rfl, rfl, fun _ => rfl, rfl, step_of_not_running rfl rfl⟩

/-- Settles O27, by the four cases of a step (`step_trace`). -/
theorem stepOnlyExtendsTheTrace : Obligations.StepOnlyExtendsTheTrace := by
  unfold Obligations.StepOnlyExtendsTheTrace
  exact fun _ _ => step_trace

/-- Settles O12: outside POLL_TRIGGER the fetch is a plain read (`step_of_plain`). -/
theorem stepRunsTheDecodedInstruction : Obligations.StepRunsTheDecodedInstruction := by
  unfold Obligations.StepRunsTheDecodedInstruction
  exact fun _ => step_of_plain

/-- Settles O13: the step goes on from what MemRead answers, and no MemRead moves PC. -/
theorem fetchPollsAtATriggerCell : Obligations.FetchPollsAtATriggerCell := by
  unfold Obligations.FetchPollsAtATriggerCell
  refine fun s hs => ⟨fun w u hread => ?_, fun op u hread => ?_⟩
  · rw [step_of_read hs hread, State.advance, (memRead_ok_effect hread).pc]
    rfl
  · exact ⟨step_of_read_failed hs hread, (memRead_failed_effect hread).pc⟩

/-- Settles O14: the cell fetched is the one just stored to. -/
theorem storedWordIsFetched : Obligations.StoredWordIsFetched := by
  unfold Obligations.StoredWordIsFetched
  intro s a v hm hs ht
  have hstep := step_of_plain (s := { s.store a v with pc := a }) hs ht
  have hcell : State.cell { s.store a v with pc := a } a = v := State.store_cell_self hm a v
  rw [hstep, hcell]
  rfl

/-- Settles O15: the placed word stands at PC, which does not poll. -/
theorem placedWordRunsNext : Obligations.PlacedWordRunsNext := by
  unfold Obligations.PlacedWordRunsNext
  intro s w hm
  have hstep := step_of_plain (s.withFetchWord_fetches 16 w.toNat) (s.withFetchWord_triggers 16 w.toNat)
  rw [hstep]
  exact congrArg (fun v => exec (decode v) (s.withFetchWord 16 w.toNat).advance) (State.withFetchWord_cell hm w)

/-- Settles O16: the two first branches of a step. -/
theorem stoppedMachineDoesNotMove : Obligations.StoppedMachineDoesNotMove := by
  unfold Obligations.StoppedMachineDoesNotMove
  exact ⟨fun _ => step_of_not_running, fun _ _ => step_of_fault⟩

end

section
/-! Memory as an array of Words, and MemRead in and outside POLL_TRIGGER (spec/20_memory.md sections 3 and 5). -/

namespace Sys2Proof.Machine

/-! ### Canonical memories -/

/-- A canonical memory lists no address past the last Word. -/
theorem Memory.read_past_end {m : Memory} {lo a : Nat} (h : Memory.wfFrom lo m = true) (ha : Config.memWords ≤ a) :
    Memory.read m a = 0x0000#16 := by
  induction m generalizing lo with
  | nil => rfl
  | cons kv m ih =>
    obtain ⟨-, hk, -, hm⟩ := Memory.wfFrom_cons.1 h
    rw [Memory.read, if_neg (by omega)]
    exact ih hm

/-- Two canonical memories with the same Word in every cell are the same list. -/
theorem Memory.ext_cells {m q : Memory} (hm : m.wf = true) (hq : q.wf = true)
    (h : ∀ a : Word, m.read a.toNat = q.read a.toNat) : m = q := by
  refine Memory.ext_read hm hq fun a => ?_
  rcases Nat.lt_or_ge a Config.memWords with ha | ha
  · have := h (BitVec.ofNat 16 a)
    have hmod : a % 2 ^ 16 = a := Nat.mod_eq_of_lt ha
    rwa [BitVec.toNat_ofNat, hmod] at this
  · rw [Memory.read_past_end hm ha, Memory.read_past_end hq ha]

/-! ### The poll -/

/-- The state after an answer of `DevPollReady()` is drawn. -/
def State.polled (s : State) : State :=
  { s with console := { s.console with polls := s.console.polls.tail } }

/-- The state after a byte is read, with the bytes `rest` still to come. -/
def State.consumed (s : State) (rest : List Byte) : State := { s with console := { s.console with input := rest } }

/-- The state after a poll that delivers the key `c` and leaves the bytes `rest`: both mapped cells are updated (R55). -/
def State.polledKey (s : State) (c : Byte) (rest : List Byte) : State :=
  ((s.polled.consumed rest).store s.params.kbsrAddr Config.kbReadyValue).store s.params.kbdrAddr (zext16 c)

theorem devPollReady_ready {s : State} (h : s.console.polls.head = .ready) :
    devPollReady s = .ok s.console.answersRead s.polled := by
  simp only [devPollReady, h, State.polled]

theorem devPollReady_notReady {s : State} (h : s.console.polls.head = .notReady) :
    devPollReady s = .ok false s.polled := by
  simp only [devPollReady, h, State.polled]

theorem devPollReady_fails {s : State} (h : s.console.polls.head = .fails) :
    devPollReady s = .failed .pollReady s.polled := by
  simp only [devPollReady, h, State.polled]

theorem devReadChar_byte {s : State} {c : Byte} {rest : List Byte} (h : s.console.input = c :: rest) :
    devReadChar s = .got c (s.consumed rest) := by
  simp only [devReadChar, h, State.consumed]

theorem devReadChar_closed {s : State} (hi : s.console.input = []) (hc : s.console.inputClosed = true) :
    devReadChar s = .closed := by
  simp only [devReadChar, hi, hc, ↓reduceIte]

theorem devReadChar_waits {s : State} (hi : s.console.input = []) (hc : s.console.inputClosed = false) :
    devReadChar s = .waits := by
  simp [devReadChar, hi, hc]

theorem poll_key {s : State} {c : Byte} {rest : List Byte} (hp : s.console.polls.head = .ready)
    (hi : s.console.input = c :: rest) : poll s = .ok () (s.polledKey c rest) := by
  have hready : s.console.answersRead = true := by simp [Console.answersRead, hi]
  have hread := devReadChar_byte (s := s.polled) hi
  simp only [poll, devPollReady_ready hp, hready, hread]
  rfl

theorem poll_noKey {s : State} (h : s.console.polls.head = .notReady ∨
    (s.console.polls.head = .ready ∧ s.console.input = [] ∧ s.console.inputClosed = false)) :
    poll s = .ok () (s.polled.store s.params.kbsrAddr Config.kbNotReadyValue) := by
  have hnone : devPollReady s = .ok false s.polled := by
    rcases h with hp | ⟨hp, hi, hc⟩
    · exact devPollReady_notReady hp
    · rw [devPollReady_ready hp, Console.answersRead, hi, hc]; rfl
  rw [poll, hnone]
  rfl

theorem poll_closed {s : State} (hp : s.console.polls.head = .ready) (hi : s.console.input = [])
    (hc : s.console.inputClosed = true) : poll s = .failed .readChar s.polled := by
  have hready : s.console.answersRead = true := by simp [Console.answersRead, hc]
  have hread := devReadChar_closed (s := s.polled) hi hc
  simp only [poll, devPollReady_ready hp, hready, hread]

theorem poll_fails {s : State} (hp : s.console.polls.head = .fails) : poll s = .failed .pollReady s.polled := by
  rw [poll, devPollReady_fails hp]

/-- In POLL_TRIGGER a read polls first and returns the updated cell (D4). -/
theorem memRead_of_poll {a : Word} {s t : State} (ht : s.params.triggers a = true) (h : poll s = .ok () t) :
    memRead a s = .ok (t.cell a) t := by
  simp only [memRead, ht, h, ↓reduceIte]

theorem memRead_of_poll_failed {a : Word} {s t : State} {op : DevOp} (ht : s.params.triggers a = true)
    (h : poll s = .failed op t) : memRead a s = .failed op t := by
  simp only [memRead, ht, h, ↓reduceIte]

section
variable {s : State} (hm : s.mem.wf = true) (hp : s.params.wf = true) (c : Byte) (rest : List Byte)
include hm

/-- The two mapped addresses differ, so the data cell's store leaves the status cell as just stored. -/
theorem State.polledKey_cell (a : Word) : (s.polledKey c rest).cell a =
    if a = s.params.kbdrAddr then zext16 c else if a = s.params.kbsrAddr then Config.kbReadyValue else s.cell a := by
  have hm' : (s.polled.consumed rest).mem.wf = true := hm
  rw [State.polledKey, State.store_cell (State.store_wf hm' _ _), State.store_cell hm']
  rfl

include hp in
theorem State.polledKey_status : (s.polledKey c rest).cell s.params.kbsrAddr = 0x8000#16 := by
  have hne : s.params.kbsrAddr ≠ s.params.kbdrAddr := by simpa [Params.wf] using hp
  rw [State.polledKey_cell hm, if_neg hne, if_pos rfl]
  rfl

theorem State.polledKey_data : (s.polledKey c rest).cell s.params.kbdrAddr = 0x00#8 ++ c := by
  rw [State.polledKey_cell hm, if_pos rfl]
  rfl

theorem State.polledKey_memKept :
    MemKept (fun b => b == s.params.kbsrAddr || b == s.params.kbdrAddr) s (s.polledKey c rest) := by
  intro b hb
  simp only [Bool.or_eq_false_iff, beq_eq_false_iff_ne] at hb
  obtain ⟨hsr, hdr⟩ := hb
  rw [State.polledKey_cell hm, if_neg hdr, if_neg hsr]

end

end Sys2Proof.Machine

open Sys2Proof Sys2Proof.Machine

/-- Settles O10: a store is `State.store_wroteCell`, and canonical memories are told apart by their cells. -/
theorem memoryReadsWhatWasStored : Obligations.MemoryReadsWhatWasStored := by
  unfold Obligations.MemoryReadsWhatWasStored
  exact ⟨fun _ a v hm => ⟨State.store_wroteCell hm a v, State.store_wf hm a v⟩, fun _ _ => Memory.ext_cells⟩

/-- Settles O11: the poll has four answers (a key, no key, a failing read, a failing poll), and MemRead passes each on. -/
theorem memReadPollsTheTriggerCells : Obligations.MemReadPollsTheTriggerCells := by
  unfold Obligations.MemReadPollsTheTriggerCells
  intro a s hm hp
  refine ⟨memRead_plain, fun ht => ⟨fun c rest hready hin => ?_, fun hnone => ?_, fun hready hin hclosed => ?_,
    fun hfails => ?_⟩⟩
  · exact ⟨_, memRead_of_poll ht (poll_key hready hin), State.polledKey_status hm hp c rest,
      State.polledKey_data hm c rest, State.polledKey_memKept hm c rest, rfl⟩
  · obtain ⟨hcell, hkept, -⟩ := State.store_wroteCell (s := s.polled) hm s.params.kbsrAddr Config.kbNotReadyValue
    exact ⟨_, memRead_of_poll ht (poll_noKey hnone), hcell, hkept, rfl⟩
  · exact memRead_of_poll_failed ht (poll_closed hready hin hclosed)
  · exact memRead_of_poll_failed ht (poll_fails hfails)

end

section
/-! The operate instructions, the loads and stores and the control transfers, each with the state it leaves
(spec/40_operate.md, 41_load_store.md, 42_control.md, 44_unimplemented.md). -/

namespace Sys2Proof.Machine

/-! ### Sums modulo 2^16 and the N flag -/

/-- A Word read as signed, plus a field, modulo 2^16 (R111). -/
theorem ofInt_toInt_add {n : Nat} (v : Word) (f : BitVec n) (hn : n ≤ 16) :
    BitVec.ofInt 16 (v.toInt + f.toInt) = v + sext16 f := by
  rw [BitVec.ofInt_add, BitVec.ofInt_toInt, ← toInt_sext16 f hn, BitVec.ofInt_toInt]

/-- An address plus an offset, modulo 2^16 (R131). -/
theorem ofInt_toNat_add {n : Nat} (v : Word) (f : BitVec n) (hn : n ≤ 16) :
    BitVec.ofInt 16 ((v.toNat : Int) + f.toInt) = v + sext16 f := by
  have hv : BitVec.ofInt 16 (v.toNat : Int) = v := by rw [BitVec.ofInt_natCast, BitVec.ofNat_toNat, BitVec.setWidth_eq]
  rw [BitVec.ofInt_add, hv, ← toInt_sext16 f hn, BitVec.ofInt_toInt]

theorem condOf_eq_N_iff_bit (v : Word) : condOf v = .N ↔ v.getLsbD 15 = true := by
  have hmsb : v.msb = v.getLsbD 15 := BitVec.msb_eq_getLsbD_last v
  rw [condOf, hmsb]
  cases v.getLsbD 15
  · by_cases hz : v = 0x0000#16 <;> simp [hz]
  · simp

/-! ### Operate and LEA -/

theorem exec_andR (dr sr1 sr2 : RegIdx) (s : State) :
    exec (.andR dr sr1 sr2) s = .next (s.setResult dr (s.reg sr1 &&& s.reg sr2)) := rfl

theorem exec_andI (dr sr1 : RegIdx) (imm : BitVec 5) (s : State) :
    exec (.andI dr sr1 imm) s = .next (s.setResult dr (s.reg sr1 &&& sext16 imm)) := rfl

theorem exec_not (dr sr : RegIdx) (s : State) : exec (.not dr sr) s = .next (s.setResult dr (~~~(s.reg sr))) := rfl

theorem exec_lea (dr : RegIdx) (off : BitVec 9) (s : State) :
    exec (.lea dr off) s = .next (s.setResult dr (s.pc + sext16 off)) := rfl

/-- imm5 sign-extended, bit by bit: bit 4 fills the bits above it. -/
theorem getLsbD_sext16_imm5 (imm : BitVec 5) {k : Nat} (hk : k < 16) :
    (sext16 imm).getLsbD k = imm.getLsbD (min k 4) := by
  rw [getLsbD_sext16, decide_eq_true hk, Bool.true_and]
  split
  · rw [Nat.min_eq_left (by omega)]
  · rw [Nat.min_eq_right (by omega)]

/-! ### Loads and stores -/

section
variable {a v : Word} {s u : State} {op : DevOp} (dr : RegIdx)

theorem loadResult_of_read (h : memRead a s = .ok v u) : loadResult dr a s = .next (u.setResult dr v) := by
  rw [loadResult, h]; rfl

theorem loadResult_of_failed (h : memRead a s = .failed op u) :
    loadResult dr a s = .next { u with fault := some (.deviceError (s.pc - 1#16) op) } := by
  rw [loadResult, h]; rfl

theorem exec_ldi_of_read {off : BitVec 9} (h : memRead (s.pc + off.signExtend 16) s = .ok v u) :
    exec (.ldi dr off) s = loadResult dr v u := by
  have hexec : exec (.ldi dr off) s =
      (memRead (s.pc + off.signExtend 16) s).andThen s.instrAddr fun ptr t => loadResult dr ptr t := rfl
  rw [hexec, h]; rfl

theorem exec_ldi_of_failed {off : BitVec 9} (h : memRead (s.pc + off.signExtend 16) s = .failed op u) :
    exec (.ldi dr off) s = .next { u with fault := some (.deviceError (s.pc - 1#16) op) } := by
  have hexec : exec (.ldi dr off) s =
      (memRead (s.pc + off.signExtend 16) s).andThen s.instrAddr fun ptr t => loadResult dr ptr t := rfl
  rw [hexec, h]; rfl

/-- STI stores the SR of `s` through the pointer, since the read of the pointer keeps the registers (R140). -/
theorem exec_sti_of_read {sr : RegIdx} {off : BitVec 9} (h : memRead (s.pc + off.signExtend 16) s = .ok v u) :
    exec (.sti sr off) s = .next (u.store v (s.reg sr)) := by
  obtain ⟨ptr, w, hm, he⟩ | ⟨_, w, hm, -⟩ := exec_sti_cases sr off s
  · cases h.symm.trans hm; exact he
  · cases h.symm.trans hm

theorem exec_sti_of_failed {sr : RegIdx} {off : BitVec 9} (h : memRead (s.pc + off.signExtend 16) s = .failed op u) :
    exec (.sti sr off) s = .next { u with fault := some (.deviceError (s.pc - 1#16) op) } := by
  obtain ⟨ptr, w, hm, -⟩ | ⟨_, w, hm, he⟩ := exec_sti_cases sr off s
  · cases h.symm.trans hm
  · cases h.symm.trans hm; exact he

end

/-! ### Control transfer -/

/-- A change of PC alone. -/
theorem State.setPc_onlyRegsAndPc (s : State) (v : Word) : OnlyRegsAndPc (fun _ => false) s (s.setPc v) :=
  ⟨fun _ _ => rfl, rfl, fun _ _ => rfl, ⟨rfl, rfl, rfl, rfl⟩, rfl⟩

/-- The link in R7 and a change of PC (R164, R166). -/
theorem State.link_onlyRegsAndPc (s : State) (v : Word) :
    OnlyRegsAndPc (· == 7#3) s ((s.setReg 7#3 s.pc).setPc v) :=
  ⟨s.trapEntry_regsKept, rfl, fun _ _ => rfl, ⟨rfl, rfl, rfl, rfl⟩, rfl⟩

theorem exec_br (n z p : Bool) (off : BitVec 9) (s : State) : exec (.br n z p off) s =
    .next (if (n = true ∧ s.cond = .N) ∨ (z = true ∧ s.cond = .Z) ∨ (p = true ∧ s.cond = .P)
      then s.setPc (s.pc + sext16 off) else s) := by
  have htaken : branchTaken n z p s.cond = true ↔
      (n = true ∧ s.cond = .N) ∨ (z = true ∧ s.cond = .Z) ∨ (p = true ∧ s.cond = .P) := by
    rw [branchTaken_eq]; simp [or_assoc]
  simp only [exec, execBr, htaken, State.eaPc]

theorem exec_jmp (base : RegIdx) (s : State) : exec (.jmp base) s = .next (s.setPc (s.reg base)) := rfl

theorem exec_ret (s : State) : exec .ret s = .next (s.setPc (s.reg 7#3)) := rfl

theorem exec_jsr (off : BitVec 11) (s : State) :
    exec (.jsr off) s = .next ((s.setReg 7#3 s.pc).setPc (s.pc + sext16 off)) := rfl

/-- JSRR reads its base after the link is written, so R7 then is the incremented PC (R166, C5). -/
theorem exec_jsrr (base : RegIdx) (s : State) : exec (.jsrr base) s =
    .next ((s.setReg 7#3 s.pc).setPc (if base = 7#3 then s.pc else s.reg base)) := by
  rw [exec, execJsrr, State.setReg_reg]

end Sys2Proof.Machine

open Sys2Proof Sys2Proof.Machine

/-- Settles O30: the fixed-width sum is the sum of the unsigned and, for the immediate mode, of the signed readings. -/
theorem addWritesTheWrappedSum : Obligations.AddWritesTheWrappedSum := by
  unfold Obligations.AddWritesTheWrappedSum
  intro dr sr1 sr2 imm s
  rw [BitVec.ofNat_add, BitVec.ofNat_toNat, BitVec.ofNat_toNat, BitVec.setWidth_eq, BitVec.setWidth_eq,
    ofInt_toInt_add _ imm (by decide)]
  exact ⟨⟨_, exec_addR dr sr1 sr2 s, s.setResult_wroteResult dr _⟩,
    ⟨_, exec_addI dr sr1 imm s, s.setResult_wroteResult dr _⟩⟩

/-- Settles O32: the result is the and of the bits, and COND is N when bit 15 of it is set. -/
theorem andWritesTheBitwiseAnd : Obligations.AndWritesTheBitwiseAnd := by
  unfold Obligations.AndWritesTheBitwiseAnd
  intro dr sr1 sr2 imm s
  refine ⟨⟨_, _, exec_andR dr sr1 sr2 s, s.setResult_wroteResult dr _, fun k => BitVec.getLsbD_and, ?_⟩,
    ⟨_, _, exec_andI dr sr1 imm s, s.setResult_wroteResult dr _, fun k hk => ?_⟩⟩
  · rw [State.setResult_cond, condOf_eq_N_iff_bit, BitVec.getLsbD_and, Bool.and_eq_true]
  · rw [BitVec.getLsbD_and, getLsbD_sext16_imm5 imm hk]

/-- Settles O33: the complement is `0xFFFF - v`, and its bit 15 is the operand's flipped. -/
theorem notWritesTheComplement : Obligations.NotWritesTheComplement := by
  unfold Obligations.NotWritesTheComplement
  intro dr sr s
  have hnot : 0xFFFF#16 - s.reg sr = ~~~(s.reg sr) := by
    generalize s.reg sr = v
    bv_omega
  rw [hnot]
  refine ⟨_, exec_not dr sr s, s.setResult_wroteResult dr _, ?_⟩
  rw [State.setResult_cond, condOf_eq_N_iff_bit, BitVec.getLsbD_not]
  simp

/-- Settles O34: the result is the address itself. -/
theorem leaWritesTheAddress : Obligations.LeaWritesTheAddress := by
  unfold Obligations.LeaWritesTheAddress
  intro dr off s
  rw [ofInt_toNat_add s.pc off (by decide)]
  exact ⟨_, exec_lea dr off s, s.setResult_wroteResult dr _⟩

/-- Settles O35: outside POLL_TRIGGER each read answers the cell and changes nothing. -/
theorem loadsFromPlainCells : Obligations.LoadsFromPlainCells := by
  unfold Obligations.LoadsFromPlainCells
  refine fun dr base off9 off6 s => ⟨fun ht => ?_, fun ht => ?_, fun ht hptr => ?_⟩
  · exact ⟨_, loadResult_of_read dr (memRead_plain ht), s.setResult_wroteResult dr _⟩
  · exact ⟨_, loadResult_of_read dr (memRead_plain ht), s.setResult_wroteResult dr _⟩
  · exact ⟨_, (exec_ldi_of_read dr (memRead_plain ht)).trans (loadResult_of_read dr (memRead_plain hptr)),
      s.setResult_wroteResult dr _⟩

/-- Settles O36: each load goes on from what MemRead answers; a MemRead, failing or not, keeps the registers, COND and
the instruction's address. -/
theorem loadsThroughMemRead : Obligations.LoadsThroughMemRead := by
  unfold Obligations.LoadsThroughMemRead
  refine fun dr base off9 off6 s => ⟨fun v u hread => ⟨?_, fun x w hdata => ?_, fun op w hdata => ?_⟩,
    fun op u hread => ?_, fun v u hread => ?_, fun op u hread => ?_⟩
  · exact ⟨_, loadResult_of_read dr hread, u.setResult_wroteResult dr v⟩
  · exact ⟨_, (exec_ldi_of_read dr hread).trans (loadResult_of_read dr hdata), w.setResult_wroteResult dr x⟩
  · have hptr := memRead_ok_effect hread
    have hboth := hptr.trans (memRead_failed_effect hdata)
    rw [← hptr.pc]
    exact ⟨_, (exec_ldi_of_read dr hread).trans (loadResult_of_failed dr hdata), rfl, hboth.regsKept _, hboth.cond⟩
  · have hkept := memRead_failed_effect hread
    exact ⟨_, loadResult_of_failed dr hread, exec_ldi_of_failed dr hread, rfl, hkept.regsKept _, hkept.cond⟩
  · exact ⟨_, loadResult_of_read dr hread, u.setResult_wroteResult dr v⟩
  · have hkept := memRead_failed_effect hread
    exact ⟨_, loadResult_of_failed dr hread, rfl, hkept.regsKept _, hkept.cond⟩

/-- Settles O37: each is one MemWrite (`State.store_wroteCell`). -/
theorem storesWriteOneCell : Obligations.StoresWriteOneCell := by
  unfold Obligations.StoresWriteOneCell
  intro sr base off9 off6 s hm
  exact ⟨⟨_, exec_st sr off9 s, State.store_wroteCell hm _ _⟩,
    ⟨_, exec_str sr base off6 s, State.store_wroteCell hm _ _⟩⟩

/-- Settles O38: one MemWrite through what the read of the pointer answered, or that read's error. -/
theorem stiStoresThroughThePointer : Obligations.StiStoresThroughThePointer := by
  unfold Obligations.StiStoresThroughThePointer
  refine fun sr off s hm => ⟨fun ht => ?_, fun ptr u hread => ?_, fun op u hread => ?_⟩
  · exact ⟨_, exec_sti_of_read (memRead_plain ht), State.store_wroteCell hm _ _⟩
  · exact ⟨_, exec_sti_of_read hread, State.store_wroteCell ((memRead_ok_effect hread).wf hm) _ _⟩
  · exact ⟨_, exec_sti_of_failed hread, rfl⟩

/-- Settles O40: `exec_br`, in the taken and in the untaken case. -/
theorem branchFollowsCond : Obligations.BranchFollowsCond := by
  unfold Obligations.BranchFollowsCond
  intro n z p off s
  rw [ofInt_toNat_add s.pc off (by decide)]
  refine ⟨_, exec_br n z p off s, ?_⟩
  split
  · exact ⟨s.setPc_onlyRegsAndPc _, rfl⟩
  · exact ⟨s.setPc_onlyRegsAndPc s.pc, rfl⟩

/-- Settles O41: both put a register into PC. -/
theorem jumpTakesTheRegister : Obligations.JumpTakesTheRegister := by
  unfold Obligations.JumpTakesTheRegister
  intro base s
  exact ⟨⟨_, exec_jmp base s, s.setPc_onlyRegsAndPc _, rfl⟩, ⟨_, exec_ret s, s.setPc_onlyRegsAndPc _, rfl⟩⟩

/-- Settles O42: the link, then the target (`exec_jsr`, `exec_jsrr`). -/
theorem callsLinkThroughR7 : Obligations.CallsLinkThroughR7 := by
  unfold Obligations.CallsLinkThroughR7
  intro base off s
  rw [ofInt_toNat_add s.pc off (by decide)]
  exact ⟨⟨_, exec_jsr off s, s.link_onlyRegsAndPc _, s.trapEntry_reg_link, rfl⟩,
    ⟨_, exec_jsrr base s, s.link_onlyRegsAndPc _, s.trapEntry_reg_link, rfl⟩⟩

/-- Settles O43: the instructions raise by their meaning; the step fetches such a word and raises with that very word
(`exec_decode_of_illegal`). -/
theorem illegalOpcodesRaise : Obligations.IllegalOpcodesRaise := by
  unfold Obligations.IllegalOpcodesRaise
  refine ⟨fun _ _ => ⟨rfl, rfl⟩, fun s hs ht hill => ?_⟩
  rw [step_of_plain hs ht, exec_decode_of_illegal hill, State.instrAddr_advance]
  rfl

end

section
/-! What an instruction may change, and where an error comes from (spec/10_state.md R22, R28, spec/20_memory.md R58,
spec/60_exceptions.md R220 to R224, R233).  Every TRAP spelling is treated as its vector, every load as a `LoadEffect`. -/

namespace Sys2Proof.Machine

/-! ### TRAP by its vector, however it is spelled -/

/-- The vector of a TRAP instruction, spelled as TRAP or by its routine's name (R93). -/
def trapVector : Instr → Option Byte
  | .trap v => some v
  | .getc => some 0x20#8
  | .out => some 0x21#8
  | .puts => some 0x22#8
  | .inp => some 0x23#8
  | .putsp => some 0x24#8
  | .halt => some 0x25#8
  | .br .. | .addR .. | .addI .. | .ld .. | .st .. | .jsr _ | .jsrr _ | .andR .. | .andI .. | .ldr .. | .str ..
  | .rti _ | .not .. | .ldi .. | .sti .. | .jmp _ | .reserved _ | .lea .. | .ret => none

section
variable {i : Instr} {v : Byte} (h : trapVector i = some v)
include h

theorem exec_of_trapVector (s : State) : exec i s = dispatchTrap v s.trapEntry := by
  cases i <;> cases h <;> rfl

theorem mayWriteReg_of_trapVector (r : RegIdx) :
    mayWriteReg i r = (r == 7#3 || ((v == 0x20#8 || v == 0x23#8) && r == 0#3)) := by
  cases i <;> cases h <;> simp [mayWriteReg]

theorem readsInput_of_trapVector : readsInput i = (v == 0x20#8 || v == 0x23#8) := by
  cases i <;> cases h <;> rfl

theorem writesOutput_of_trapVector :
    writesOutput i = (v == 0x21#8 || v == 0x22#8 || v == 0x23#8 || v == 0x24#8) := by
  cases i <;> cases h <;> rfl

theorem resultReg_of_trapVector : resultReg i = none := by
  cases i <;> cases h <;> rfl

theorem mayUseConsole_of_trapVector : mayUseConsole i = definedVector v := by
  cases i <;> cases h <;> rfl

/-- Only TRAP itself spells a vector without a routine. -/
theorem eq_trap_of_undefined (hv : definedVector v = false) : i = .trap v := by
  cases i <;> cases h
  case trap => rfl
  all_goals cases hv

theorem stringIsPlain_of_trapVector {s : State} (hs : s.readsNoTrigger i) :
    (v = 0x22#8 → s.stringIsPlain none) ∧ (v = 0x24#8 → s.stringIsPlain (some s.params.putspMode)) := by
  cases i <;> cases h
  case trap => exact hs
  case puts => exact ⟨fun _ => hs, nofun⟩
  case putsp => exact ⟨nofun, fun _ => hs⟩
  all_goals exact ⟨nofun, nofun⟩

end

theorem definedVector_iff : ∀ v : Byte, definedVector v = false ↔ v.toNat < 0x20 ∨ 0x25 < v.toNat := by decide

theorem definedVector_cases : ∀ v : Byte, definedVector v = true →
    v = 0x20#8 ∨ v = 0x21#8 ∨ v = 0x22#8 ∨ v = 0x23#8 ∨ v = 0x24#8 ∨ v = 0x25#8 := by decide

/-- A TRAP runs the routine of its vector, or raises BadTrap where there is none (R181, R196). -/
theorem dispatchTrap_cases (v : Byte) (s : State) :
    (definedVector v = true ∧
      Leads (dispatchTrap v s) (RoutineEffect (v == 0x20#8 || v == 0x23#8) (v == 0x25#8) s)) ∨
    (definedVector v = false ∧ dispatchTrap v s = raise (.badTrap s.instrAddr v) s) := by
  cases hv : definedVector v with
  | false => exact .inr ⟨rfl, dispatchTrap_undefined ((definedVector_iff v).1 hv) s⟩
  | true =>
    refine .inl ⟨rfl, ?_⟩
    rcases definedVector_cases v hv with rfl | rfl | rfl | rfl | rfl | rfl
    · exact serveGetc_leads s
    · exact serveOut_leads s
    · exact putsLoop_leads _ _ s
    · exact serveIn_leads s
    · exact putspFrom_leads _ s
    · exact serveHalt_leads s

/-! ### Instructions that begin with a MemRead -/

/-- Such an instruction goes on after the read, or ends with the read's error. -/
theorem memRead_andThen_cases {a pc : Word} {s t : State} {k : Word → State → Result}
    (h : (memRead a s).andThen pc k = .next t) :
    (∃ v u, memRead a s = .ok v u ∧ k v u = .next t) ∨
    (∃ op u, memRead a s = .failed op u ∧ t = { u with fault := some (.deviceError pc op) }) := by
  cases hm : memRead a s with
  | ok v u => rw [hm] at h; exact .inl ⟨v, u, rfl, h⟩
  | failed op u => rw [hm] at h; cases h; exact .inr ⟨op, u, rfl, rfl⟩

theorem poll_output (s : State) : (poll s).state.console.output = s.console.output := by
  cases hp : s.console.polls.head with
  | notReady => rw [poll_noKey (.inl hp)]; rfl
  | fails => rw [poll_fails hp]; rfl
  | ready =>
    cases hi : s.console.input with
    | cons c rest => rw [poll_key hp hi]; rfl
    | nil =>
      cases hc : s.console.inputClosed with
      | false => rw [poll_noKey (.inr ⟨hp, hi, hc⟩)]; rfl
      | true => rw [poll_closed hp hi hc]; rfl

/-- A read outputs nothing, polled or not (R37). -/
theorem memRead_output (a : Word) (s : State) : (memRead a s).state.console.output = s.console.output := by
  have hp := poll_output s
  unfold memRead
  split
  · cases h : poll s <;> rwa [h] at hp
  · rfl

/-- What a load into `dr` can do: one or two reads, then the result register and COND, or a read's error. -/
structure LoadEffect (dr : RegIdx) (s t : State) : Prop where
  regs : RegsKept (· == dr) s t
  cells : MemKept (fun a => a == s.params.kbsrAddr || a == s.params.kbdrAddr) s t
  output : t.console.output = s.console.output
  result : (t.cond = condOf (t.reg dr) ∧ t.fault = s.fault) ∨
    (t.cond = s.cond ∧ ∃ op, t.fault = some (.deviceError s.instrAddr op))

theorem ConsoleEffect.memKept {s t : State} (h : ConsoleEffect s t) :
    MemKept (fun a => a == s.params.kbsrAddr || a == s.params.kbdrAddr) s t := by
  intro a ha
  simp only [Bool.or_eq_false_iff, beq_eq_false_iff_ne] at ha
  exact h.cells a ha.1 ha.2

theorem LoadEffect.ofFailed {dr : RegIdx} {a : Word} {s u : State} {op : DevOp} (h : memRead a s = .failed op u) :
    LoadEffect dr s { u with fault := some (.deviceError s.instrAddr op) } := by
  have heff := memRead_failed_effect h
  have hout := memRead_output a s
  rw [h] at hout
  exact ⟨heff.regsKept _, heff.memKept, hout, .inr ⟨heff.cond, op, rfl⟩⟩

theorem LoadEffect.after {dr : RegIdx} {a v : Word} {s u t : State} (h : memRead a s = .ok v u)
    (k : LoadEffect dr u t) : LoadEffect dr s t := by
  have heff := memRead_ok_effect h
  have hout := memRead_output a s
  rw [h] at hout
  refine ⟨fun r hr => (k.regs r hr).trans (heff.reg r), fun b hb => ?_, k.output.trans hout, ?_⟩
  · exact (k.cells b (heff.params ▸ hb)).trans (heff.memKept b hb)
  · rw [← heff.fault, ← heff.cond, ← heff.instrAddr]
    exact k.result

theorem State.setResult_loadEffect (s : State) (dr : RegIdx) (v : Word) : LoadEffect dr s (s.setResult dr v) := by
  obtain ⟨hreg, hcond, hregs, -⟩ := s.setResult_wroteResult dr v
  exact ⟨hregs, fun _ _ => rfl, rfl, .inl ⟨by rw [hcond, hreg], rfl⟩⟩

theorem loadResult_loadEffect {dr : RegIdx} {a : Word} {s t : State} (h : loadResult dr a s = .next t) :
    LoadEffect dr s t := by
  obtain ⟨v, u, hread, he⟩ | ⟨op, u, hread, rfl⟩ := memRead_andThen_cases h
  · cases he
    exact .after hread (u.setResult_loadEffect dr v)
  · exact .ofFailed hread

theorem execLdi_loadEffect {dr : RegIdx} {off : BitVec 9} {s t : State} (h : execLdi dr off s = .next t) :
    LoadEffect dr s t := by
  obtain ⟨v, u, hread, he⟩ | ⟨op, u, hread, rfl⟩ := memRead_andThen_cases h
  · exact .after hread (loadResult_loadEffect he)
  · exact .ofFailed hread

/-- STI: a read and a store, or the read's error. -/
theorem execSti_cases {sr : RegIdx} {off : BitVec 9} {s t : State} (h : execSti sr off s = .next t) :
    (∃ ptr u, memRead (s.eaPc off) s = .ok ptr u ∧ t = u.store ptr (u.reg sr)) ∨
    (∃ op u, memRead (s.eaPc off) s = .failed op u ∧ t = { u with fault := some (.deviceError s.instrAddr op) }) := by
  obtain ⟨ptr, u, hread, he⟩ | hfail := memRead_andThen_cases h
  · cases he; exact .inl ⟨ptr, u, hread, rfl⟩
  · exact .inr hfail

/-! ### Every instruction answers -/

theorem memRead_andThen_answers {a pc : Word} {s : State} {k : Word → State → Result}
    (hk : ∀ v u, ∃ t, k v u = .next t) : ∃ t, (memRead a s).andThen pc k = .next t := by
  cases memRead a s with
  | ok v u => exact hk v u
  | failed op u => exact ⟨_, rfl⟩

theorem loadResult_answers (dr : RegIdx) (a : Word) (s : State) : ∃ t, loadResult dr a s = .next t :=
  memRead_andThen_answers fun _ _ => ⟨_, rfl⟩

theorem dispatchTrap_answers (v : Byte) (s : State) : ∃ t, dispatchTrap v s = .next t := by
  obtain ⟨-, t, ht, -⟩ | ⟨-, ht⟩ := dispatchTrap_cases v s
  · exact ⟨t, ht⟩
  · exact ⟨_, ht⟩

theorem exec_answers (i : Instr) (s : State) : ∃ t, exec i s = .next t := by
  cases hv : trapVector i with
  | some v => rw [exec_of_trapVector hv]; exact dispatchTrap_answers v _
  | none =>
    cases i with
    | br | addR | addI | andR | andI | not | lea | st | str | jsr | jsrr | jmp | ret | rti | reserved => exact ⟨_, rfl⟩
    | ld | ldr => exact loadResult_answers _ _ s
    | ldi => exact memRead_andThen_answers fun _ u => loadResult_answers _ _ u
    | sti => exact memRead_andThen_answers fun _ _ => ⟨_, rfl⟩
    | trap | getc | out | puts | inp | putsp | halt => cases hv

/-! ### COND (R28) -/

/-- The rule of R28 for one instruction, between the states before and after it. -/
def CondRule (i : Instr) (s t : State) : Prop :=
  (∀ dr, resultReg i = some dr → s.fault = none → t.fault = none → t.cond = condOf (t.reg dr)) ∧
    (resultReg i = none → (readsInput i = true → s.params.trapInputSetsCond = false) → t.cond = s.cond) ∧
    (s.fault = none → t.fault ≠ none → t.cond = s.cond)

theorem CondRule.of_kept {i : Instr} {s t : State} (hi : resultReg i = none) (h : t.cond = s.cond) : CondRule i s t :=
  ⟨by simp [hi], fun _ _ => h, fun _ _ => h⟩

theorem CondRule.of_load {i : Instr} {dr : RegIdx} {s t : State} (hi : resultReg i = some dr)
    (h : LoadEffect dr s t) : CondRule i s t := by
  refine ⟨fun r hr hs ht => ?_, by simp [hi], fun hs ht => ?_⟩
  · cases hi.symm.trans hr
    rcases h.result with ⟨hc, -⟩ | ⟨-, op, hf⟩
    · exact hc
    · rw [hf] at ht; cases ht
  · rcases h.result with ⟨-, hf⟩ | ⟨hc, -⟩
    · exact absurd (hf.trans hs) ht
    · exact hc

/-- Going on after an operation of a routine, for any property of the state in the end. -/
theorem Leads.andThen_of {α : Type} {P : State → Prop} {d : Dev α} {pc : Word} {k : α → State → Result}
    (hfail : ∀ op t, d = .failed op t → P { t with fault := some (.deviceError pc op) })
    (hok : ∀ a t, d = .ok a t → Leads (k a t) P) : Leads (d.andThen pc k) P := by
  cases d with
  | ok a t => exact hok a t rfl
  | failed op t => exact ⟨_, rfl, hfail op t rfl⟩

theorem Leads.mono {r : Result} {P Q : State → Prop} (h : Leads r P) (hpq : ∀ t, P t → Q t) : Leads r Q := by
  obtain ⟨t, ht, hp⟩ := h
  exact ⟨t, ht, hpq t hp⟩

/-- COND is as it was, or no error was raised. -/
def CondKeptOnError (s t : State) : Prop := t.cond = s.cond ∨ t.fault = s.fault

/-- GETC sets COND only with the byte it reads, after which nothing can fail. -/
theorem serveGetc_condKept (s : State) : Leads (serveGetc s) (CondKeptOnError s) := by
  unfold serveGetc
  split
  · rename_i c u hr
    exact Leads.next (.inr ((u.storeInput_fault c).trans (devReadChar_effect hr).fault))
  · exact Leads.next (.inl rfl)
  · exact Leads.next (.inl rfl)

theorem serveInRead_condKept (s : State) : Leads (serveInRead s) (CondKeptOnError s) := by
  unfold serveInRead
  split
  · rename_i c u hr
    have hu := devReadChar_effect hr
    have hwrite := devWriteChar_effect c u
    refine Leads.andThen_of (fun op t h => ?_) fun _ t h => ?_ <;> rw [h] at hwrite
    · exact .inl (hu.trans hwrite).cond
    · have hflush := devFlush_effect t
      refine Leads.andThen_of (fun op x k => ?_) fun _ x k => ?_ <;> rw [k] at hflush
      · exact .inl ((hu.trans hwrite).trans hflush).cond
      · exact Leads.next (.inr ((x.storeInput_fault c).trans ((hu.trans hwrite).trans hflush).fault))
  · exact Leads.next (.inl rfl)
  · exact Leads.next (.inl rfl)

theorem serveIn_condKept (s : State) : Leads (serveIn s) (CondKeptOnError s) := by
  have hprompt := writeBytes_effect s.params.inPrompt s
  refine Leads.andThen_of (fun op t h => ?_) fun _ t h => ?_ <;> rw [h] at hprompt
  · exact .inl hprompt.cond
  · have hflush := devFlush_effect t
    refine Leads.andThen_of (fun op u k => ?_) fun _ u k => ?_ <;> rw [k] at hflush
    · exact .inl (hprompt.trans hflush).cond
    · have hu : ConsoleEffect s u := hprompt.trans hflush
      exact (serveInRead_condKept u).mono fun x hx => by rwa [CondKeptOnError, hu.cond, hu.fault] at hx

theorem RoutineEffect.condKept {stops : Bool} {s t : State} (h : RoutineEffect false stops s t) :
    CondKeptOnError s t := by
  rcases h.cond with hc | ⟨hinp, -⟩
  · exact .inl hc
  · cases hinp

theorem dispatchTrap_condKept (v : Byte) (s : State) : Leads (dispatchTrap v s) (CondKeptOnError s) := by
  by_cases hgetc : v = 0x20#8
  · subst hgetc; exact serveGetc_condKept s
  by_cases hin : v = 0x23#8
  · subst hin; exact serveIn_condKept s
  have hinp : (v == 0x20#8 || v == 0x23#8) = false := by simp [hgetc, hin]
  obtain ⟨-, hroutine⟩ | ⟨-, hraise⟩ := dispatchTrap_cases v s
  · rw [hinp] at hroutine
    exact hroutine.mono fun _ => RoutineEffect.condKept
  · exact ⟨_, hraise, .inl rfl⟩

theorem CondRule.of_trap {i : Instr} {v : Byte} {s t : State} (hi : trapVector i = some v)
    (h : exec i s = .next t) : CondRule i s t := by
  rw [exec_of_trapVector hi] at h
  refine ⟨by simp [resultReg_of_trapVector hi], fun _ hinp => ?_, fun hs ht => ?_⟩
  · obtain ⟨-, hroutine⟩ | ⟨-, hraise⟩ := dispatchTrap_cases v s.trapEntry
    · rcases (hroutine.inv h).cond with hc | ⟨hreads, hsets⟩
      · exact hc
      · rw [← readsInput_of_trapVector hi] at hreads
        exact absurd hsets (by simp [hinp hreads])
    · cases hraise.symm.trans h; rfl
  · rcases (dispatchTrap_condKept v s.trapEntry).inv h with hc | hf
    · exact hc
    · exact absurd (hf.trans hs) ht

theorem exec_condRule {i : Instr} {s t : State} (h : exec i s = .next t) : CondRule i s t := by
  cases hv : trapVector i with
  | some v => exact .of_trap hv h
  | none =>
    cases i with
    | addR | addI | andR | andI | not | lea => cases h; exact .of_load rfl (s.setResult_loadEffect _ _)
    | ld | ldr => exact .of_load rfl (loadResult_loadEffect h)
    | ldi => exact .of_load rfl (execLdi_loadEffect h)
    | br => cases h; exact .of_kept rfl (by split <;> rfl)
    | st | str | jsr | jsrr | jmp | ret | rti | reserved => cases h; exact .of_kept rfl rfl
    | sti =>
      obtain ⟨ptr, u, hread, rfl⟩ | ⟨op, u, hread, rfl⟩ := execSti_cases h
      · exact .of_kept rfl (memRead_ok_effect hread).cond
      · exact .of_kept rfl (memRead_failed_effect hread).cond
    | trap | getc | out | puts | inp | putsp | halt => cases hv

/-! ### The general registers (R22) -/

/-- The rule of R22 for one instruction, between the states before and after it. -/
def RegRule (i : Instr) (s t : State) : Prop :=
  RegsKept (mayWriteReg i) s t ∧ (resultReg i = none → mayWriteReg i 7#3 = true → t.reg 7#3 = s.pc)

theorem RegRule.of_load {i : Instr} {dr : RegIdx} {s t : State} (hi : resultReg i = some dr)
    (hw : mayWriteReg i = (· == dr)) (h : LoadEffect dr s t) : RegRule i s t :=
  ⟨hw ▸ h.regs, by simp [hi]⟩

theorem RegRule.of_kept {i : Instr} {s t : State} (hw : mayWriteReg i = fun _ => false) (h : t.regs = s.regs) :
    RegRule i s t :=
  ⟨fun r _ => congrArg (Regs.get · r) h, by simp [hw]⟩

/-- A call leaves the incremented PC in R7 and no other register changed. -/
theorem RegRule.of_link {i : Instr} {s t : State} (hw : mayWriteReg i = (· == 7#3))
    (h : t.regs = s.trapEntry.regs) : RegRule i s t := by
  have hreg : ∀ r, t.reg r = s.trapEntry.reg r := fun r => congrArg (Regs.get · r) h
  exact ⟨fun r hr => (hreg r).trans (s.trapEntry_regsKept r (by rwa [hw] at hr)),
    fun _ _ => (hreg 7#3).trans s.trapEntry_reg_link⟩

/-- A routine writes no register but R0, and that only where it reads a byte. -/
theorem RoutineEffect.reg {inp stops : Bool} {s t : State} (h : RoutineEffect inp stops s t) {r : RegIdx}
    (hr : (inp && r == 0#3) = false) : t.reg r = s.reg r := by
  rcases h.regs with hregs | ⟨hinp, c, hregs⟩
  · exact congrArg (Regs.get · r) hregs
  · have hne : r ≠ 0#3 := by simpa [hinp] using hr
    rw [State.reg, hregs]
    exact Regs.get_set_ne s.regs _ hne

theorem RegRule.of_trap {i : Instr} {v : Byte} {s t : State} (hi : trapVector i = some v)
    (h : exec i s = .next t) : RegRule i s t := by
  rw [exec_of_trapVector hi] at h
  have hreg : ∀ r, ((v == 0x20#8 || v == 0x23#8) && r == 0#3) = false → t.reg r = s.trapEntry.reg r := by
    intro r hr
    obtain ⟨-, hroutine⟩ | ⟨-, hraise⟩ := dispatchTrap_cases v s.trapEntry
    · exact (hroutine.inv h).reg hr
    · cases hraise.symm.trans h; rfl
  refine ⟨fun r hr => ?_, fun _ _ => (hreg 7#3 (Bool.and_false _)).trans s.trapEntry_reg_link⟩
  rw [mayWriteReg_of_trapVector hi, Bool.or_eq_false_iff] at hr
  obtain ⟨h7, h0⟩ := hr
  exact (hreg r h0).trans (s.trapEntry_regsKept r h7)

theorem exec_regRule {i : Instr} {s t : State} (h : exec i s = .next t) : RegRule i s t := by
  cases hv : trapVector i with
  | some v => exact .of_trap hv h
  | none =>
    cases i with
    | addR | addI | andR | andI | not | lea => cases h; exact .of_load rfl rfl (s.setResult_loadEffect _ _)
    | ld | ldr => exact .of_load rfl rfl (loadResult_loadEffect h)
    | ldi => exact .of_load rfl rfl (execLdi_loadEffect h)
    | br => cases h; exact .of_kept rfl (by split <;> rfl)
    | st | str | jmp | ret | rti | reserved => cases h; exact .of_kept rfl rfl
    | jsr | jsrr => cases h; exact .of_link rfl rfl
    | sti =>
      obtain ⟨ptr, u, hread, rfl⟩ | ⟨op, u, hread, rfl⟩ := execSti_cases h
      · exact .of_kept rfl (memRead_ok_effect hread).regs
      · exact .of_kept rfl (memRead_failed_effect hread).regs
    | trap | getc | out | puts | inp | putsp | halt => cases hv

/-! ### Errors (R220 to R224) -/

/-- What an instruction may leave in FAULT, with the cause of each error. -/
def FaultCause (i : Instr) (s t : State) : Prop :=
  t.fault = s.fault ∨
    (t.fault = some (.badOpcode s.instrAddr (encode i)) ∧ ∃ low, i = .rti low ∨ i = .reserved low) ∨
    (∃ v, t.fault = some (.badTrap s.instrAddr v) ∧ i = .trap v ∧ definedVector v = false) ∨
    (∃ op, t.fault = some (.deviceError s.instrAddr op) ∧ mayUseConsole i = true)

theorem FaultCause.of_load {i : Instr} {dr : RegIdx} {s t : State} (hi : mayUseConsole i = true)
    (h : LoadEffect dr s t) : FaultCause i s t := by
  rcases h.result with ⟨-, hf⟩ | ⟨-, op, hf⟩
  · exact .inl hf
  · exact .inr (.inr (.inr ⟨op, hf, hi⟩))

theorem FaultCause.of_trap {i : Instr} {v : Byte} {s t : State} (hi : trapVector i = some v)
    (h : exec i s = .next t) : FaultCause i s t := by
  rw [exec_of_trapVector hi] at h
  obtain ⟨hv, hroutine⟩ | ⟨hv, hraise⟩ := dispatchTrap_cases v s.trapEntry
  · rcases (hroutine.inv h).fault with hf | ⟨op, hf⟩
    · exact .inl hf
    · exact .inr (.inr (.inr ⟨op, hf, (mayUseConsole_of_trapVector hi).trans hv⟩))
  · cases hraise.symm.trans h
    exact .inr (.inr (.inl ⟨v, rfl, eq_trap_of_undefined hi hv, hv⟩))

theorem exec_faultCause {i : Instr} {s t : State} (h : exec i s = .next t) : FaultCause i s t := by
  cases hv : trapVector i with
  | some v => exact .of_trap hv h
  | none =>
    cases i with
    | addR | addI | andR | andI | not | lea | st | str | jsr | jsrr | jmp | ret => cases h; exact .inl rfl
    | br => cases h; exact .inl (by split <;> rfl)
    | rti low => cases h; exact .inr (.inl ⟨rfl, low, .inl rfl⟩)
    | reserved low => cases h; exact .inr (.inl ⟨rfl, low, .inr rfl⟩)
    | ld | ldr => exact .of_load rfl (loadResult_loadEffect h)
    | ldi => exact .of_load rfl (execLdi_loadEffect h)
    | sti =>
      obtain ⟨ptr, u, hread, rfl⟩ | ⟨op, u, hread, rfl⟩ := execSti_cases h
      · exact .inl (memRead_ok_effect hread).fault
      · exact .inr (.inr (.inr ⟨op, rfl, rfl⟩))
    | trap | getc | out | puts | inp | putsp | halt => cases hv

/-! ### Output (R233) -/

theorem bytesOut_of_output {s t : State} (h : t.console.output = s.console.output) :
    t.console.bytesOut = s.console.bytesOut := by
  rw [Console.bytesOut, Console.bytesOut, h]

/-- A flush mark is no byte. -/
theorem devFlush_bytesOut (s : State) : (devFlush s).state.console.bytesOut = s.console.bytesOut := by
  cases hf : s.console.flushes.head with
  | ok => rw [devFlush_ok hf]; simp [State.flushedOut, Console.bytesOut]
  | fails => simp [devFlush, hf, Console.bytesOut]

theorem serveGetc_bytesOut (s : State) :
    Leads (serveGetc s) fun t => t.console.bytesOut = s.console.bytesOut := by
  unfold serveGetc
  split
  · rename_i c u hr
    obtain ⟨rest, -, rfl⟩ := devReadChar_got hr
    exact Leads.next (by rw [State.storeInput_console]; rfl)
  · exact Leads.next rfl
  · exact Leads.next rfl

theorem serveHalt_bytesOut (s : State) :
    Leads (serveHalt s) fun t => t.console.bytesOut = s.console.bytesOut := by
  have hflush := devFlush_bytesOut s
  refine Leads.andThen_of (fun op t h => ?_) fun _ t h => ?_ <;> rw [h] at hflush
  · exact hflush
  · exact Leads.next hflush

theorem dispatchTrap_bytesOut {v : Byte} (hv : (v == 0x21#8 || v == 0x22#8 || v == 0x23#8 || v == 0x24#8) = false)
    (s : State) : Leads (dispatchTrap v s) fun t => t.console.bytesOut = s.console.bytesOut := by
  have hsilent : v = 0x20#8 ∨ v = 0x25#8 ∨ definedVector v = false := by revert v; decide
  rcases hsilent with rfl | rfl | hundef
  · exact serveGetc_bytesOut s
  · exact serveHalt_bytesOut s
  · exact ⟨_, dispatchTrap_undefined ((definedVector_iff v).1 hundef) s, rfl⟩

theorem exec_bytesOut {i : Instr} {s t : State} (hi : writesOutput i = false) (h : exec i s = .next t) :
    t.console.bytesOut = s.console.bytesOut := by
  cases hv : trapVector i with
  | some v =>
    rw [exec_of_trapVector hv] at h
    exact (dispatchTrap_bytesOut (writesOutput_of_trapVector hv ▸ hi) s.trapEntry).inv h
  | none =>
    cases i with
    | addR | addI | andR | andI | not | lea | st | str | jsr | jsrr | jmp | ret | rti | reserved => cases h; rfl
    | br => cases h; split <;> rfl
    | ld | ldr => exact bytesOut_of_output (loadResult_loadEffect h).output
    | ldi => exact bytesOut_of_output (execLdi_loadEffect h).output
    | sti sr off =>
      have hout := memRead_output (s.eaPc off) s
      obtain ⟨ptr, u, hread, rfl⟩ | ⟨op, u, hread, rfl⟩ := execSti_cases h <;> rw [hread] at hout
      · exact bytesOut_of_output hout
      · exact bytesOut_of_output hout
    | trap | getc | out | puts | inp | putsp | halt => cases hv

end Sys2Proof.Machine

open Sys2Proof Sys2Proof.Machine

/-- Settles O17: `exec_answers`, since a failing operation and a hold are next states too. -/
theorem everyInstructionAnswersANextState : Obligations.EveryInstructionAnswersANextState := by
  unfold Obligations.EveryInstructionAnswersANextState
  exact exec_answers

/-- Settles O21, by the case split over the instructions (`exec_condRule`): a result or a load, an input routine, and
those that keep COND. -/
theorem onlyResultInstructionsSetCond : Obligations.OnlyResultInstructionsSetCond := by
  unfold Obligations.OnlyResultInstructionsSetCond
  exact fun _ _ _ => exec_condRule

/-- Settles O23, by the case split over the instructions (`exec_regRule`). -/
theorem registerWriters : Obligations.RegisterWriters := by
  unfold Obligations.RegisterWriters
  exact fun _ _ _ => exec_regRule

/-- Settles O26, by the case split over the instructions (`exec_bytesOut`). -/
theorem onlyOutputRoutinesWriteBytes : Obligations.OnlyOutputRoutinesWriteBytes := by
  unfold Obligations.OnlyOutputRoutinesWriteBytes
  exact fun _ _ _ => exec_bytesOut

/-- Settles O28: from a state without an error each of the causes of `exec_faultCause` gives its own error. -/
theorem errorsNameTheirCause : Obligations.ErrorsNameTheirCause := by
  unfold Obligations.ErrorsNameTheirCause
  intro i s t e hs h he
  obtain hf | ⟨hf, hcause⟩ | ⟨v, hf, hcause⟩ | ⟨op, hf, hcause⟩ := exec_faultCause h
  · rw [hf, hs] at he; cases he
  · cases hf.symm.trans he
    refine ⟨rfl, ?_, nofun, nofun⟩
    rintro _ _ ⟨⟩
    exact ⟨rfl, hcause⟩
  · cases hf.symm.trans he
    refine ⟨rfl, nofun, ?_, nofun⟩
    rintro _ _ ⟨⟩
    exact hcause
  · cases hf.symm.trans he
    refine ⟨rfl, nofun, nofun, ?_⟩
    rintro _ _ ⟨⟩
    exact hcause

end

section
/-! Who writes memory (spec/20_memory.md R58, spec/41_load_store.md R139): the stores, and the polls, which only a read of
a trigger address makes. -/

namespace Sys2Proof.Machine

/-! ### What leaves memory as it is -/

/-- Memory is the same list. -/
def MemSame (s t : State) : Prop := t.mem = s.mem

theorem MemSame.memKept {s t : State} (h : MemSame s t) (p : Word → Bool) : MemKept p s t :=
  fun a _ => congrArg (Memory.read · a.toNat) h

theorem devWriteChar_mem (b : Byte) (s : State) : (devWriteChar b s).state.mem = s.mem := by
  cases hw : s.console.writes.head with
  | ok => rw [devWriteChar_ok b hw]; rfl
  | fails => rw [devWriteChar_fails b hw]; rfl

theorem devFlush_mem (s : State) : (devFlush s).state.mem = s.mem := by
  cases hf : s.console.flushes.head <;> simp [devFlush, hf]

theorem writeBytes_mem (bs : List Byte) (s : State) : (writeBytes bs s).state.mem = s.mem := by
  induction bs generalizing s with
  | nil => rfl
  | cons b bs ih =>
    have hb := devWriteChar_mem b s
    rw [writeBytes]
    split <;> (rename_i h; rw [h] at hb)
    · exact (ih _).trans hb
    · exact hb

/-- Going on after an operation that leaves memory alone. -/
theorem Leads.andThen_memSame {α : Type} {s : State} {d : Dev α} {pc : Word} {k : α → State → Result}
    (hd : d.state.mem = s.mem) (hk : ∀ a t, d = .ok a t → Leads (k a t) (MemSame t)) :
    Leads (d.andThen pc k) (MemSame s) := by
  cases d with
  | ok a t => exact (hk a t rfl).mono fun _ hu => Eq.trans hu hd
  | failed op t => exact ⟨_, rfl, hd⟩

theorem flushEnd_memSame (s : State) : Leads (flushEnd s) (MemSame s) :=
  .andThen_memSame (devFlush_mem s) fun _ _ _ => .next rfl

theorem serveGetc_memSame (s : State) : Leads (serveGetc s) (MemSame s) := by
  unfold serveGetc
  split
  · rename_i c u hr
    obtain ⟨rest, -, rfl⟩ := devReadChar_got hr
    exact .next (State.storeInput_mem _ c)
  · exact .next rfl
  · exact .next rfl

theorem serveOut_memSame (s : State) : Leads (serveOut s) (MemSame s) :=
  .andThen_memSame (devWriteChar_mem _ s) fun _ t _ => flushEnd_memSame t

theorem serveHalt_memSame (s : State) : Leads (serveHalt s) (MemSame s) :=
  .andThen_memSame (devFlush_mem s) fun _ _ _ => .next rfl

theorem serveInRead_memSame (s : State) : Leads (serveInRead s) (MemSame s) := by
  unfold serveInRead
  split
  · rename_i c u hr
    obtain ⟨rest, -, rfl⟩ := devReadChar_got hr
    exact .andThen_memSame (devWriteChar_mem c _) fun _ t _ =>
      .andThen_memSame (devFlush_mem t) fun _ x _ => .next (x.storeInput_mem c)
  · exact .next rfl
  · exact .next rfl

theorem serveIn_memSame (s : State) : Leads (serveIn s) (MemSame s) :=
  .andThen_memSame (writeBytes_mem _ s) fun _ t _ =>
    .andThen_memSame (devFlush_mem t) fun _ u _ => serveInRead_memSame u

/-! ### Strings that poll nothing -/

/-- The `n`th Word after the next one. -/
theorem add_one_add_ofNat (p : Word) (n : Nat) : p + 1#16 + BitVec.ofNat 16 n = p + BitVec.ofNat 16 (n + 1) := by
  rw [BitVec.add_assoc, Nat.add_comm n 1, BitVec.ofNat_add]

/-- No cell of the string at `p` is a trigger (`State.stringIsPlain` at any pointer). -/
def State.plainFrom (s : State) (mode : Option PutspMode) (p : Word) : Prop :=
  (∀ a, s.params.triggers a = false) ∨
    ∃ n, endsString mode (s.cell (p + BitVec.ofNat 16 n)) = true ∧
      ∀ k, k ≤ n → s.params.triggers (p + BitVec.ofNat 16 k) = false

theorem State.plainFrom.read {s : State} {mode : Option PutspMode} {p : Word} (h : s.plainFrom mode p) :
    memRead p s = .ok (s.cell p) s := by
  refine memRead_plain ?_
  rcases h with hall | ⟨n, -, hk⟩
  · exact hall p
  · simpa using hk 0 (Nat.zero_le n)

theorem State.plainFrom.tail {s : State} {mode : Option PutspMode} {p : Word} (h : s.plainFrom mode p)
    (hgo : endsString mode (s.cell p) = false) : s.plainFrom mode (p + 1#16) := by
  rcases h with hall | ⟨n, hend, hk⟩
  · exact .inl hall
  · cases n with
    | zero => rw [BitVec.add_zero, hgo] at hend; cases hend
    | succ n =>
      refine .inr ⟨n, by rwa [add_one_add_ofNat], fun k hkn => ?_⟩
      rw [add_one_add_ofNat]
      exact hk (k + 1) (by omega)

theorem State.plainFrom.congr {s t : State} {mode : Option PutspMode} {p : Word} (h : s.plainFrom mode p)
    (hm : t.mem = s.mem) (hp : t.params = s.params) : t.plainFrom mode p := by
  unfold State.plainFrom at h ⊢
  simpa only [State.cell, hm, hp] using h

/-- A byte is written, and the string goes on as plain as it was. -/
theorem Leads.write_memSame {s : State} {mode : Option PutspMode} {p : Word} {b : Byte} {pc : Word}
    {k : Unit → State → Result} (h : s.plainFrom mode p)
    (hk : ∀ t : State, t.plainFrom mode p → Leads (k () t) (MemSame t)) :
    Leads ((devWriteChar b s).andThen pc k) (MemSame s) := by
  have hmem := devWriteChar_mem b s
  have hparams := (devWriteChar_effect b s).params
  refine .andThen_memSame hmem fun _ t ht => ?_
  rw [ht] at hmem hparams
  exact hk t (h.congr hmem hparams)

theorem putsLoop_memSame (n : Nat) {p : Word} {s : State} (h : s.plainFrom none p) :
    Leads (putsLoop n p s) (MemSame s) := by
  induction n generalizing p s with
  | zero => exact .next rfl
  | succ n ih =>
    rw [putsLoop, h.read, Dev.andThen]
    split
    · exact flushEnd_memSame s
    · rename_i hw
      exact .write_memSame (h.tail (by simpa [endsString] using hw)) fun t ht => ih ht

theorem putspLiteral_memSame (n : Nat) {p : Word} {s : State} (h : s.plainFrom (some .literal) p) :
    Leads (putspLiteral n p s) (MemSame s) := by
  induction n generalizing p s with
  | zero => exact .next rfl
  | succ n ih =>
    rw [putspLiteral, h.read, Dev.andThen]
    split
    · exact flushEnd_memSame s
    · rename_i hlo
      by_cases hhi : highByte (s.cell p) = 0x00#8
      · simp only [if_pos hhi]
        exact .andThen_memSame (devWriteChar_mem _ s) fun _ t _ => flushEnd_memSame t
      · simp only [if_neg hhi]
        have hnext := h.tail (by simp [endsString, hlo, hhi])
        exact .write_memSame hnext fun t ht => .write_memSame ht fun u hu => ih hu

theorem putspWordwise_memSame (n : Nat) {p : Word} {s : State} (h : s.plainFrom (some .wordwise) p) :
    Leads (putspWordwise n p s) (MemSame s) := by
  induction n generalizing p s with
  | zero => exact .next rfl
  | succ n ih =>
    rw [putspWordwise, h.read, Dev.andThen]
    split
    · exact flushEnd_memSame s
    · rename_i hw
      refine .write_memSame (h.tail (by simpa [endsString] using hw)) fun t ht => ?_
      split
      · exact ih ht
      · exact .write_memSame ht fun u hu => ih hu

theorem putspFrom_memSame {p : Word} {s : State} (h : s.plainFrom (some s.params.putspMode) p) :
    Leads (putspFrom p s) (MemSame s) := by
  unfold putspFrom
  split <;> (rename_i hmode; rw [hmode] at h)
  · exact putspLiteral_memSame _ h
  · exact putspWordwise_memSame _ h

theorem dispatchTrap_memSame {v : Byte} {s : State} (hputs : v = 0x22#8 → s.stringIsPlain none)
    (hputsp : v = 0x24#8 → s.stringIsPlain (some s.params.putspMode)) :
    Leads (dispatchTrap v s) (MemSame s) := by
  by_cases hv : definedVector v = true
  · rcases definedVector_cases v hv with rfl | rfl | rfl | rfl | rfl | rfl
    · exact serveGetc_memSame s
    · exact serveOut_memSame s
    · exact putsLoop_memSame _ (hputs rfl)
    · exact serveIn_memSame s
    · exact putspFrom_memSame (hputsp rfl)
    · exact serveHalt_memSame s
  · exact ⟨_, dispatchTrap_undefined ((definedVector_iff v).1 (by simpa using hv)) s, rfl⟩

/-! ### The instructions that are no stores -/

theorem exec_memKept {i : Instr} {s t : State} (hi : isStore i = false) (h : exec i s = .next t) :
    MemKept (fun a => a == s.params.kbsrAddr || a == s.params.kbdrAddr) s t := by
  cases hv : trapVector i with
  | some v =>
    rw [exec_of_trapVector hv] at h
    obtain ⟨-, hroutine⟩ | ⟨-, hraise⟩ := dispatchTrap_cases v s.trapEntry
    · intro a ha
      simp only [Bool.or_eq_false_iff, beq_eq_false_iff_ne] at ha
      exact (hroutine.inv h).cells a ha.1 ha.2
    · cases hraise.symm.trans h; exact fun _ _ => rfl
  | none =>
    cases i with
    | addR | addI | andR | andI | not | lea | jsr | jsrr | jmp | ret | rti | reserved => cases h; exact fun _ _ => rfl
    | br => cases h; split <;> exact fun _ _ => rfl
    | ld | ldr => exact (loadResult_loadEffect h).cells
    | ldi => exact (execLdi_loadEffect h).cells
    | st | str | sti => cases hi
    | trap | getc | out | puts | inp | putsp | halt => cases hv

theorem loadResult_memSame {dr : RegIdx} {a : Word} {s t : State} (ha : s.params.triggers a = false)
    (h : loadResult dr a s = .next t) : MemSame s t := by
  cases (loadResult_of_read dr (memRead_plain ha)).symm.trans h; rfl

theorem exec_memSame {i : Instr} {s t : State} (hi : isStore i = false) (hs : s.readsNoTrigger i)
    (h : exec i s = .next t) : MemSame s t := by
  cases hv : trapVector i with
  | some v =>
    rw [exec_of_trapVector hv] at h
    obtain ⟨hputs, hputsp⟩ := stringIsPlain_of_trapVector hv hs
    exact (dispatchTrap_memSame (s := s.trapEntry) hputs hputsp).inv h
  | none =>
    cases i with
    | addR | addI | andR | andI | not | lea | jsr | jsrr | jmp | ret | rti | reserved => cases h; rfl
    | br => cases h; split <;> rfl
    | ld | ldr => exact loadResult_memSame hs h
    | ldi =>
      obtain ⟨hptr, hdata⟩ := hs
      rw [exec_ldi_of_read _ (memRead_plain hptr)] at h
      exact loadResult_memSame hdata h
    | st | str | sti => cases hi
    | trap | getc | out | puts | inp | putsp | halt => cases hv

end Sys2Proof.Machine

open Sys2Proof Sys2Proof.Machine

/-- Settles O25: what is no store writes only where it polls (`exec_memKept`) and nothing where it polls nothing
(`exec_memSame`); a store that polls nothing is one MemWrite. -/
theorem onlyStoresAndPollsWriteMemory : Obligations.OnlyStoresAndPollsWriteMemory := by
  unfold Obligations.OnlyStoresAndPollsWriteMemory
  refine fun i s t h => ⟨fun hi => exec_memKept hi h, fun hi hs => (exec_memSame hi hs h).memKept _,
    fun hi hm hs a hst hsti hstr => ?_⟩
  obtain ⟨sr, off, rfl⟩ | ⟨sr, base, off, rfl⟩ | ⟨sr, off, rfl⟩ := (isStore_iff i).1 hi
  · cases h.symm.trans (exec_st sr off s)
    obtain ⟨-, hkept, -⟩ := State.store_wroteCell hm (s.pc + off.signExtend 16) (s.reg sr)
    exact hst sr off rfl ▸ hkept
  · cases h.symm.trans (exec_str sr base off s)
    obtain ⟨-, hkept, -⟩ := State.store_wroteCell hm (s.reg base + off.signExtend 16) (s.reg sr)
    exact hstr sr base off rfl ▸ hkept
  · cases h.symm.trans (exec_sti_of_read (memRead_plain hs))
    obtain ⟨-, hkept, -⟩ := State.store_wroteCell hm (s.cell (s.pc + off.signExtend 16)) (s.reg sr)
    exact hsti sr off rfl ▸ hkept

end

section
/-! One turn of the string loops, whatever the cell holds and the console answers (spec/43_trap.md R185, R188, R189,
R195). -/

namespace Sys2Proof.Machine

theorem ne_zero_of_highByte {w : Word} (h : highByte w ≠ 0x00#8) : w ≠ 0x0000#16 := by
  rintro rfl; exact h rfl

/-! ### The routines' loops with their count written out -/

theorem exec_puts_eq (s : State) : exec .puts s = putsLoop 65536 (s.reg 0#3) (s.setReg 7#3 s.pc) := rfl

theorem exec_putsp_literal_eq {s : State} (h : s.params.putspMode = .literal) :
    exec .putsp s = putspLiteral 65536 (s.reg 0#3) (s.setReg 7#3 s.pc) := by
  have hexec : exec .putsp s = putspFrom (s.reg 0#3) (s.setReg 7#3 s.pc) := rfl
  rw [hexec, putspFrom, State.setReg_params, h]
  rfl

theorem exec_putsp_wordwise_eq {s : State} (h : s.params.putspMode = .wordwise) :
    exec .putsp s = putspWordwise 65536 (s.reg 0#3) (s.setReg 7#3 s.pc) := by
  have hexec : exec .putsp s = putspFrom (s.reg 0#3) (s.setReg 7#3 s.pc) := rfl
  rw [hexec, putspFrom, State.setReg_params, h]
  rfl

/-! ### A write in a loop -/

theorem write_andThen_ok {b : Byte} {s : State} {pc : Word} {k : Unit → State → Result}
    (h : s.console.writes.head = .ok) : (devWriteChar b s).andThen pc k = k () (s.wrote b) := by
  rw [devWriteChar_ok b h, Dev.andThen]

theorem write_andThen_fails {b : Byte} {s : State} {pc : Word} {k : Unit → State → Result} (hpc : pc = s.pc - 1#16)
    (h : s.console.writes.head = .fails) : (devWriteChar b s).andThen pc k = .next s.writeFailed := by
  subst hpc
  rw [devWriteChar_fails b h, Dev.andThen]
  rfl

/-! ### The turns -/

section
variable {n : Nat} {p w : Word} {s u : State}

theorem stringLoops_read_failed {op : DevOp} (h : memRead p s = .failed op u) :
    putsLoop (n + 1) p s = .next { u with fault := some (.deviceError (s.pc - 1#16) op) } ∧
      putspLiteral (n + 1) p s = .next { u with fault := some (.deviceError (s.pc - 1#16) op) } ∧
      putspWordwise (n + 1) p s = .next { u with fault := some (.deviceError (s.pc - 1#16) op) } := by
  rw [putsLoop, putspLiteral, putspWordwise, h]
  exact ⟨rfl, rfl, rfl⟩

variable (h : memRead p s = .ok w u)
include h

theorem putsLoop_turn : putsLoop (n + 1) p s =
    if w = 0x0000#16 then flushEnd u
    else (devWriteChar (lowByte w) u).andThen (u.pc - 1#16) fun _ t => putsLoop n (p + 1#16) t := by
  rw [putsLoop, h, (memRead_ok_effect h).pc]
  rfl

theorem putspLiteral_turn : putspLiteral (n + 1) p s =
    if lowByte w = 0x00#8 then flushEnd u
    else (devWriteChar (lowByte w) u).andThen (u.pc - 1#16) fun _ t =>
      if highByte w = 0x00#8 then flushEnd t
      else (devWriteChar (highByte w) t).andThen (u.pc - 1#16) fun _ x => putspLiteral n (p + 1#16) x := by
  rw [putspLiteral, h, (memRead_ok_effect h).pc]
  rfl

theorem putspWordwise_turn : putspWordwise (n + 1) p s =
    if w = 0x0000#16 then flushEnd u
    else (devWriteChar (lowByte w) u).andThen (u.pc - 1#16) fun _ t =>
      if highByte w = 0x00#8 then putspWordwise n (p + 1#16) t
      else (devWriteChar (highByte w) t).andThen (u.pc - 1#16) fun _ x => putspWordwise n (p + 1#16) x := by
  rw [putspWordwise, h, (memRead_ok_effect h).pc]
  rfl

/-! A Word that ends the string. -/

theorem putsLoop_end (hw : w = 0x0000#16) : putsLoop (n + 1) p s = flushEnd u := by
  rw [putsLoop_turn h, if_pos hw]

theorem putspLiteral_end (hlo : lowByte w = 0x00#8) : putspLiteral (n + 1) p s = flushEnd u := by
  rw [putspLiteral_turn h, if_pos hlo]

theorem putspWordwise_end (hw : w = 0x0000#16) : putspWordwise (n + 1) p s = flushEnd u := by
  rw [putspWordwise_turn h, if_pos hw]

/-! The low byte's write fails. -/

theorem putsLoop_write_fails (hw : w ≠ 0x0000#16) (hf : u.console.writes.head = .fails) :
    putsLoop (n + 1) p s = .next u.writeFailed := by
  rw [putsLoop_turn h, if_neg hw, write_andThen_fails rfl hf]

theorem putspLiteral_write_fails (hlo : lowByte w ≠ 0x00#8) (hf : u.console.writes.head = .fails) :
    putspLiteral (n + 1) p s = .next u.writeFailed := by
  rw [putspLiteral_turn h, if_neg hlo, write_andThen_fails rfl hf]

theorem putspWordwise_write_fails (hw : w ≠ 0x0000#16) (hf : u.console.writes.head = .fails) :
    putspWordwise (n + 1) p s = .next u.writeFailed := by
  rw [putspWordwise_turn h, if_neg hw, write_andThen_fails rfl hf]

/-! The low byte is written. -/

variable (hok : u.console.writes.head = .ok)
include hok

theorem putsLoop_write (hw : w ≠ 0x0000#16) :
    putsLoop (n + 1) p s = putsLoop n (p + 1#16) (u.wrote (lowByte w)) := by
  rw [putsLoop_turn h, if_neg hw, write_andThen_ok hok]

theorem putspLiteral_write (hlo : lowByte w ≠ 0x00#8) : putspLiteral (n + 1) p s =
    if highByte w = 0x00#8 then flushEnd (u.wrote (lowByte w))
    else (devWriteChar (highByte w) (u.wrote (lowByte w))).andThen (u.pc - 1#16) fun _ x =>
      putspLiteral n (p + 1#16) x := by
  rw [putspLiteral_turn h, if_neg hlo, write_andThen_ok hok]

theorem putspWordwise_write (hw : w ≠ 0x0000#16) : putspWordwise (n + 1) p s =
    if highByte w = 0x00#8 then putspWordwise n (p + 1#16) (u.wrote (lowByte w))
    else (devWriteChar (highByte w) (u.wrote (lowByte w))).andThen (u.pc - 1#16) fun _ x =>
      putspWordwise n (p + 1#16) x := by
  rw [putspWordwise_turn h, if_neg hw, write_andThen_ok hok]

theorem putspLiteral_end_high (hlo : lowByte w ≠ 0x00#8) (hhi : highByte w = 0x00#8) :
    putspLiteral (n + 1) p s = flushEnd (u.wrote (lowByte w)) := by
  rw [putspLiteral_write h hok hlo, if_pos hhi]

theorem putspWordwise_skip_high (hw : w ≠ 0x0000#16) (hhi : highByte w = 0x00#8) :
    putspWordwise (n + 1) p s = putspWordwise n (p + 1#16) (u.wrote (lowByte w)) := by
  rw [putspWordwise_write h hok hw, if_pos hhi]

/-! The high byte's write, which fails or is made. -/

theorem putspLiteral_high_fails (hlo : lowByte w ≠ 0x00#8) (hhi : highByte w ≠ 0x00#8)
    (hf : (u.wrote (lowByte w)).console.writes.head = .fails) :
    putspLiteral (n + 1) p s = .next (u.wrote (lowByte w)).writeFailed := by
  rw [putspLiteral_write h hok hlo, if_neg hhi]
  exact write_andThen_fails rfl hf

theorem putspWordwise_high_fails (hhi : highByte w ≠ 0x00#8)
    (hf : (u.wrote (lowByte w)).console.writes.head = .fails) :
    putspWordwise (n + 1) p s = .next (u.wrote (lowByte w)).writeFailed := by
  rw [putspWordwise_write h hok (ne_zero_of_highByte hhi), if_neg hhi]
  exact write_andThen_fails rfl hf

theorem putspLiteral_high (hlo : lowByte w ≠ 0x00#8) (hhi : highByte w ≠ 0x00#8)
    (hf : (u.wrote (lowByte w)).console.writes.head = .ok) :
    putspLiteral (n + 1) p s = putspLiteral n (p + 1#16) ((u.wrote (lowByte w)).wrote (highByte w)) := by
  rw [putspLiteral_write h hok hlo, if_neg hhi, write_andThen_ok hf]

theorem putspWordwise_high (hhi : highByte w ≠ 0x00#8) (hf : (u.wrote (lowByte w)).console.writes.head = .ok) :
    putspWordwise (n + 1) p s = putspWordwise n (p + 1#16) ((u.wrote (lowByte w)).wrote (highByte w)) := by
  rw [putspWordwise_write h hok (ne_zero_of_highByte hhi), if_neg hhi, write_andThen_ok hf]

end

end Sys2Proof.Machine

open Sys2Proof Sys2Proof.Machine

/-- Settles O60: the loops' counts are written out, and a turn is split by what the Word is and what the console
answers, one lemma for each. -/
theorem stringLoopsTakeOneWordAtATime : Obligations.StringLoopsTakeOneWordAtATime := by
  unfold Obligations.StringLoopsTakeOneWordAtATime
  refine ⟨fun s => ⟨exec_puts_eq s, exec_putsp_literal_eq, exec_putsp_wordwise_eq⟩, fun _ _ => ⟨rfl, rfl, rfl⟩,
    fun n p s => ⟨fun op u h => stringLoops_read_failed h, fun w u h =>
      ⟨⟨?_, ?_, ?_, ?_⟩, ?_, fun hok => ⟨?_, ?_, ?_, ?_, ?_⟩⟩⟩⟩
  · exact fun hw hf => ⟨(putsLoop_end h hw).trans (flushEnd_ok hf), (putspWordwise_end h hw).trans (flushEnd_ok hf)⟩
  · exact fun hw hf =>
      ⟨(putsLoop_end h hw).trans (flushEnd_fails hf), (putspWordwise_end h hw).trans (flushEnd_fails hf)⟩
  · exact fun hlo hf => (putspLiteral_end h hlo).trans (flushEnd_ok hf)
  · exact fun hlo hf => (putspLiteral_end h hlo).trans (flushEnd_fails hf)
  · exact fun hf => ⟨fun hw => ⟨putsLoop_write_fails h hw hf, putspWordwise_write_fails h hw hf⟩,
      fun hlo => putspLiteral_write_fails h hlo hf⟩
  · exact putsLoop_write h hok
  · exact putspWordwise_skip_high h hok
  · exact fun hlo hhi => ⟨fun hf => (putspLiteral_end_high h hok hlo hhi).trans (flushEnd_ok hf),
      fun hf => (putspLiteral_end_high h hok hlo hhi).trans (flushEnd_fails hf)⟩
  · exact fun hhi hf => ⟨putspWordwise_high_fails h hok hhi hf, fun hlo => putspLiteral_high_fails h hok hlo hhi hf⟩
  · exact fun hhi hf => ⟨putspWordwise_high h hok hhi hf, fun hlo => putspLiteral_high h hok hlo hhi hf⟩

/-- Settles O49: the first turn of PUTS's loop; the rest of the loop only adds to the output (`putsLoop_leads`). -/
theorem putsReadsThroughMemRead : Obligations.PutsReadsThroughMemRead := by
  unfold Obligations.PutsReadsThroughMemRead
  intro s
  have hentry : ∀ u : State, ConsoleEffect s.trapEntry u → u.reg 7#3 = s.pc ∧ u.pc = s.pc := fun u hu =>
    ⟨(hu.reg 7#3).trans s.trapEntry_reg_link, hu.pc⟩
  refine ⟨fun u h hf => ?_, fun w u h hw hok => ?_, fun op u h => ?_, fun w u h hw hf => ?_⟩
  · exact ⟨_, (putsLoop_end (n := 65535) h rfl).trans (flushEnd_ok hf), rfl, rfl, rfl, rfl, rfl⟩
  · have hturn : exec .puts s = putsLoop 65535 (s.reg 0#3 + 1#16) (u.wrote (lowByte w)) := putsLoop_write h hok hw
    obtain ⟨t, ht, heff⟩ := putsLoop_leads 65535 (s.reg 0#3 + 1#16) (u.wrote (lowByte w))
    exact ⟨hturn, t, hturn.trans ht, heff.output⟩
  · exact ⟨_, (stringLoops_read_failed (n := 65535) h).1, rfl, (hentry u (memRead_failed_effect h)).1⟩
  · obtain ⟨hlink, hpc⟩ := hentry u (memRead_ok_effect h)
    refine ⟨_, putsLoop_write_fails (n := 65535) h hw hf, ?_, hlink, rfl⟩
    rw [State.writeFailed, hpc]

end

section
/-! The service routines from their start to their end (spec/43_trap.md sections 2 and 3): the state each leaves when the
console does what it asks, when it must wait, and when an operation fails. -/

namespace Sys2Proof.Machine

/-! ### A change of the console alone -/

/-- `t` is `s` with another console. -/
def ConsoleOnly (s t : State) : Prop := ∃ con, t = { s with console := con }

theorem ConsoleOnly.refl (s : State) : ConsoleOnly s s := ⟨s.console, rfl⟩

theorem ConsoleOnly.pc {s t : State} (h : ConsoleOnly s t) : t.pc = s.pc := by
  obtain ⟨con, rfl⟩ := h; rfl

theorem ConsoleOnly.wrote {s t : State} (h : ConsoleOnly s t) (b : Byte) : ConsoleOnly s (t.wrote b) := by
  obtain ⟨con, rfl⟩ := h; exact ⟨_, rfl⟩

theorem ConsoleOnly.flushedOut {s t : State} (h : ConsoleOnly s t) : ConsoleOnly s t.flushedOut := by
  obtain ⟨con, rfl⟩ := h; exact ⟨_, rfl⟩

theorem ConsoleOnly.consumed {s t : State} (h : ConsoleOnly s t) (rest : List Byte) :
    ConsoleOnly s (t.consumed rest) := by
  obtain ⟨con, rfl⟩ := h; exact ⟨_, rfl⟩

theorem WroteBytes.consoleOnly {bs : List Byte} {s t : State} (h : WroteBytes bs s t) : ConsoleOnly s t := ⟨_, h.rest⟩

/-! ### Consoles that accept -/

theorem Console.acceptsAll.writes_head {c : Console} (h : c.acceptsAll) : c.writes.head = .ok :=
  Draws.nth_zero c.writes ▸ (h.nth_ok 0).1

theorem Console.acceptsAll.flushes_head {c : Console} (h : c.acceptsAll) : c.flushes.head = .ok :=
  Draws.nth_zero c.flushes ▸ (h.nth_ok 0).2

/-! ### A byte string written whole -/

/-- A byte string written, each byte in an output operation that succeeded. -/
def State.wroteAll (s : State) (bs : List Byte) : State := bs.foldl State.wrote s

theorem State.wroteAll_wroteBytes (s : State) (bs : List Byte) : WroteBytes bs s (s.wroteAll bs) := by
  induction bs generalizing s with
  | nil => exact ⟨rfl, by simp [State.wroteAll], rfl, rfl, rfl⟩
  | cons b bs ih => exact (ih (s.wrote b)).cons

theorem State.wroteAll_writes_nth (s : State) (bs : List Byte) (k : Nat) :
    (s.wroteAll bs).console.writes.nth k = s.console.writes.nth (k + bs.length) := by
  induction bs generalizing s with
  | nil => rfl
  | cons b bs ih =>
    have hnext := ih (s.wrote b)
    rw [State.wrote, Draws.nth_tail] at hnext
    exact hnext

theorem writeBytes_ok {bs : List Byte} {s : State} (h : s.console.takes bs.length) :
    writeBytes bs s = .ok () (s.wroteAll bs) := by
  induction bs generalizing s with
  | nil => rfl
  | cons b bs ih =>
    have hb : s.console.writes.head = .ok := Draws.nth_zero s.console.writes ▸ h 0 (by simp)
    rw [writeBytes, devWriteChar_ok b hb]
    refine ih fun k hk => ?_
    rw [State.wrote, Draws.nth_tail]
    exact h (k + 1) (by simpa using hk)

/-- The state after a routine's string and its flush. -/
theorem writeThenFlush_ok {bs : List Byte} {s : State} (h : s.console.acceptsAll) :
    writeThenFlush bs s = .next (s.wroteAll bs).flushedOut := by
  have hflush : (s.wroteAll bs).console.flushes.head = .ok := by
    rw [(s.wroteAll_wroteBytes bs).flushes]; exact h.flushes_head
  rw [writeThenFlush, writeBytes_ok (h.takes _)]
  exact flushEnd_ok hflush

theorem State.wroteAll_consoleOnly (s : State) (bs : List Byte) : ConsoleOnly s (s.wroteAll bs) :=
  (s.wroteAll_wroteBytes bs).consoleOnly

theorem State.wroteAll_output (s : State) (bs : List Byte) :
    (s.wroteAll bs).console.output = s.console.output ++ bs.map .char := (s.wroteAll_wroteBytes bs).output

/-- Writing does not look at the parameters. -/
theorem State.wroteAll_params (s : State) (bs : List Byte) (q : Params) :
    { s.wroteAll bs with params := q } = State.wroteAll { s with params := q } bs := by
  induction bs generalizing s with
  | nil => rfl
  | cons b bs ih => exact ih (s.wrote b)

/-- What a string routine leaves under other parameters is what it leaves under these, but for the parameters. -/
theorem State.written_params (s : State) (bs : List Byte) (q : Params) :
    { (State.wroteAll (State.trapEntry { s with params := q }) bs).flushedOut with params := s.params } =
      (s.trapEntry.wroteAll bs).flushedOut :=
  congrArg State.flushedOut (State.wroteAll_params (State.trapEntry { s with params := q }) bs s.params)

/-! ### Where a routine ends -/

theorem State.trapEntry_onlyRegsAndPc (s : State) : OnlyRegsAndPc (· == 7#3) s s.trapEntry :=
  ⟨s.trapEntry_regsKept, rfl, fun _ _ => rfl, ⟨rfl, rfl, rfl, rfl⟩, rfl⟩

/-- A string routine that comes to its end leaves the link in R7 and the string and a flush mark in the output. -/
theorem writeThenFlush_trapEntry (bs : List Byte) {s : State} (h : s.console.acceptsAll) :
    ∃ t, writeThenFlush bs s.trapEntry = .next t ∧ OnlyRegsAndPc (· == 7#3) s { t with console := s.console } ∧
      t.reg 7#3 = s.pc ∧ t.pc = s.pc ∧ t.console.output = s.console.output ++ bs.map .char ++ [.flushed] ∧
      t.console.input = s.console.input := by
  refine ⟨_, writeThenFlush_ok (s := s.trapEntry) h, ?_⟩
  have hout := s.trapEntry.wroteAll_output bs
  have hin := (s.trapEntry.wroteAll_wroteBytes bs).input
  obtain ⟨con, hcon⟩ := s.trapEntry.wroteAll_consoleOnly bs
  rw [hcon] at hout hin ⊢
  exact ⟨s.trapEntry_onlyRegsAndPc, s.trapEntry_reg_link, rfl, congrArg (· ++ [OutEvent.flushed]) hout, hin⟩

/-- The routine that goes on in a held step comes to its end. -/
theorem writeThenFlush_finished (bs : List Byte) {s : State} (h : s.console.acceptsAll) :
    ∃ t, writeThenFlush bs { s with held := none } = .next t ∧ RoutineFinished (bs.map .char ++ [.flushed]) s t := by
  refine ⟨_, writeThenFlush_ok (s := { s with held := none }) h, ?_⟩
  have hout := State.wroteAll_output { s with held := none } bs
  have hin := (State.wroteAll_wroteBytes { s with held := none } bs).input
  obtain ⟨con, hcon⟩ := State.wroteAll_consoleOnly { s with held := none } bs
  rw [hcon] at hout hin ⊢
  exact ⟨rfl, (congrArg (· ++ [OutEvent.flushed]) hout).trans (List.append_assoc _ _ _), hin⟩

/-- The byte an input routine read stands in R0, and nothing else but COND has changed. -/
theorem ConsoleOnly.storeInput {s x : State} (h : ConsoleOnly s x) (c : Byte) :
    (x.storeInput c).reg 0#3 = 0x00#8 ++ c ∧ RegsKept (· == 0#3) s (x.storeInput c) ∧
      (x.storeInput c).cond = (if s.params.trapInputSetsCond then condOf (0x00#8 ++ c) else s.cond) ∧
      (x.storeInput c).pc = s.pc ∧ MemKept (fun _ => false) s (x.storeInput c) ∧ ControlKept s (x.storeInput c) ∧
      (x.storeInput c).console = x.console := by
  obtain ⟨con, rfl⟩ := h
  have hregs : RegsKept (· == 0#3) s (State.storeInput { s with console := con } c) := fun r hr => by
    rw [State.storeInput_reg, if_neg (by simpa using hr)]
    rfl
  refine ⟨?_, hregs, State.storeInput_cond _ c, State.storeInput_pc _ c, fun a _ => State.storeInput_cell _ c a,
    ⟨State.storeInput_running _ c, State.storeInput_fault _ c, State.storeInput_held _ c, State.storeInput_params _ c⟩,
    State.storeInput_console _ c⟩
  rw [State.storeInput_reg, if_pos rfl, zext16]

/-- `ConsoleOnly.storeInput` after the trap entry, which wrote R7. -/
theorem ConsoleOnly.storeInput_entry {s x : State} (h : ConsoleOnly s.trapEntry x) (c : Byte) :
    (x.storeInput c).reg 0#3 = 0x00#8 ++ c ∧ (x.storeInput c).reg 7#3 = s.pc ∧
      RegsKept (fun r => r == 0#3 || r == 7#3) s (x.storeInput c) ∧
      (x.storeInput c).cond = (if s.params.trapInputSetsCond then condOf (0x00#8 ++ c) else s.cond) ∧
      (x.storeInput c).pc = s.pc ∧ MemKept (fun _ => false) s (x.storeInput c) ∧ ControlKept s (x.storeInput c) ∧
      (x.storeInput c).console = x.console := by
  obtain ⟨hbyte, hregs, hrest⟩ := h.storeInput c
  have hkept : RegsKept (fun r => r == 0#3 || r == 7#3) s (x.storeInput c) := fun r hr => by
    rw [Bool.or_eq_false_iff] at hr
    exact (hregs r hr.1).trans (s.trapEntry_regsKept r hr.2)
  exact ⟨hbyte, (hregs 7#3 rfl).trans s.trapEntry_reg_link, hkept, hrest⟩

section
variable {s x : State} {out : List OutEvent} (hx : ConsoleOnly s.trapEntry x)
  (hout : x.console.output = s.console.output ++ out)
include hx hout

/-- A routine stopped by a failing operation, from the state in which the operation was made. -/
theorem RoutineFailed.of_entry (op : DevOp) {pc : Word} (hpc : pc = s.pc - 1#16) :
    RoutineFailed op out s { x with fault := some (.deviceError pc op) } := by
  subst hpc
  obtain ⟨con, rfl⟩ := hx
  exact ⟨rfl, s.trapEntry_reg_link, s.trapEntry_regsKept, rfl, rfl, fun _ _ => rfl, rfl, rfl, rfl, hout⟩

theorem RoutineFailed.of_writeFailed : RoutineFailed .writeChar out s x.writeFailed := by
  obtain ⟨con, rfl⟩ := hx
  exact ⟨rfl, s.trapEntry_reg_link, s.trapEntry_regsKept, rfl, rfl, fun _ _ => rfl, rfl, rfl, rfl, hout⟩

theorem RoutineFailed.of_flushFailed : RoutineFailed .flush out s x.flushFailed := by
  obtain ⟨con, rfl⟩ := hx
  exact ⟨rfl, s.trapEntry_reg_link, s.trapEntry_regsKept, rfl, rfl, fun _ _ => rfl, rfl, rfl, rfl, hout⟩

end

/-! ### GETC, OUT and HALT -/

theorem serveGetc_byte {s : State} {c : Byte} {rest : List Byte} (h : s.console.input = c :: rest) :
    serveGetc s = .next ((s.consumed rest).storeInput c) := by
  rw [serveGetc, devReadChar_byte h]

theorem serveGetc_waits {s : State} (hi : s.console.input = []) (hc : s.console.inputClosed = false) :
    serveGetc s = .next { s with held := some .getc } := by
  rw [serveGetc, devReadChar_waits hi hc]

theorem serveGetc_closed {s : State} (hi : s.console.input = []) (hc : s.console.inputClosed = true) :
    serveGetc s = .next { s with fault := some (.deviceError (s.pc - 1#16) .readChar) } := by
  rw [serveGetc, devReadChar_closed hi hc]
  rfl

theorem exec_getc (s : State) : exec .getc s = serveGetc s.trapEntry := rfl

theorem devFlush_andThen_fails {s : State} {pc : Word} {k : Unit → State → Result} (hpc : pc = s.pc - 1#16)
    (h : s.console.flushes.head = .fails) : (devFlush s).andThen pc k = .next s.flushFailed := by
  subst hpc
  simp only [devFlush, h, Dev.andThen]
  rfl

theorem exec_out_write_fails {s : State} (h : s.console.writes.head = .fails) :
    exec .out s = .next s.trapEntry.writeFailed :=
  write_andThen_fails (s := s.trapEntry) rfl h

theorem exec_out_flush_fails {s : State} (hw : s.console.writes.head = .ok) (hf : s.console.flushes.head = .fails) :
    exec .out s = .next (s.trapEntry.wrote (lowByte (s.reg 0#3))).flushFailed :=
  (write_andThen_ok (s := s.trapEntry) hw).trans (flushEnd_fails hf)

theorem exec_halt_fails {s : State} (h : s.console.flushes.head = .fails) :
    exec .halt s = .next s.trapEntry.flushFailed :=
  devFlush_andThen_fails (s := s.trapEntry) rfl h

/-! ### IN -/

/-- The state after IN's prompt and its flush. -/
def State.prompted (s : State) : State := (s.wroteAll s.params.inPrompt).flushedOut

theorem State.prompted_consoleOnly (s : State) : ConsoleOnly s s.prompted :=
  (s.wroteAll_consoleOnly s.params.inPrompt).flushedOut

theorem State.prompted_output (s : State) :
    s.prompted.console.output = s.console.output ++ (s.params.inPrompt.map .char ++ [.flushed]) := by
  rw [← List.append_assoc, ← s.wroteAll_output]; rfl

theorem State.prompted_input (s : State) : s.prompted.console.input = s.console.input :=
  (s.wroteAll_wroteBytes s.params.inPrompt).input

theorem State.prompted_closed (s : State) : s.prompted.console.inputClosed = s.console.inputClosed :=
  (s.wroteAll_wroteBytes s.params.inPrompt).closed

theorem State.prompted_writes_head (s : State) :
    s.prompted.console.writes.head = s.console.writes.nth s.params.inPrompt.length := by
  have h := s.wroteAll_writes_nth s.params.inPrompt 0
  rwa [Draws.nth_zero, Nat.zero_add] at h

theorem State.prompted_flushes_head (s : State) : s.prompted.console.flushes.head = s.console.flushes.nth 1 := by
  rw [← Draws.nth_zero, State.prompted, State.flushedOut, Draws.nth_tail,
    (s.wroteAll_wroteBytes s.params.inPrompt).flushes]

theorem serveIn_prompted {s : State} (ht : s.console.takes s.params.inPrompt.length)
    (hf : s.console.flushes.nth 0 = .ok) : serveIn s = serveInRead s.prompted := by
  have hflush : (s.wroteAll s.params.inPrompt).console.flushes.head = .ok := by
    rw [(s.wroteAll_wroteBytes s.params.inPrompt).flushes, ← Draws.nth_zero]; exact hf
  rw [serveIn, writeBytes_ok ht, Dev.andThen, devFlush_ok hflush]
  rfl

theorem serveIn_prompt_flush_fails {s : State} (ht : s.console.takes s.params.inPrompt.length)
    (hf : s.console.flushes.nth 0 = .fails) : serveIn s = .next (s.wroteAll s.params.inPrompt).flushFailed := by
  have hflush : (s.wroteAll s.params.inPrompt).console.flushes.head = .fails := by
    rw [(s.wroteAll_wroteBytes s.params.inPrompt).flushes, ← Draws.nth_zero]; exact hf
  have hpc : s.instrAddr = (s.wroteAll s.params.inPrompt).pc - 1#16 := by
    rw [(s.wroteAll_consoleOnly s.params.inPrompt).pc]; rfl
  rw [serveIn, writeBytes_ok ht]
  exact devFlush_andThen_fails hpc hflush

section
variable {s : State} {c : Byte} {rest : List Byte} (hi : s.console.input = c :: rest)
include hi

theorem serveInRead_byte (hw : s.console.writes.head = .ok) (hf : s.console.flushes.head = .ok) :
    serveInRead s = .next (((s.consumed rest).wrote c).flushedOut.storeInput c) := by
  rw [serveInRead, devReadChar_byte hi]
  refine (write_andThen_ok (s := s.consumed rest) hw).trans ?_
  rw [devFlush_ok (s := (s.consumed rest).wrote c) hf, Dev.andThen]

theorem serveInRead_write_fails (hw : s.console.writes.head = .fails) :
    serveInRead s = .next (s.consumed rest).writeFailed := by
  rw [serveInRead, devReadChar_byte hi]
  exact write_andThen_fails (s := s.consumed rest) rfl hw

theorem serveInRead_flush_fails (hw : s.console.writes.head = .ok) (hf : s.console.flushes.head = .fails) :
    serveInRead s = .next ((s.consumed rest).wrote c).flushFailed := by
  rw [serveInRead, devReadChar_byte hi]
  exact (write_andThen_ok (s := s.consumed rest) hw).trans (devFlush_andThen_fails rfl hf)

end

theorem serveInRead_waits {s : State} (hi : s.console.input = []) (hc : s.console.inputClosed = false) :
    serveInRead s = .next { s with held := some .inp } := by
  rw [serveInRead, devReadChar_waits hi hc]

theorem serveInRead_closed {s : State} (hi : s.console.input = []) (hc : s.console.inputClosed = true) :
    serveInRead s = .next { s with fault := some (.deviceError (s.pc - 1#16) .readChar) } := by
  rw [serveInRead, devReadChar_closed hi hc]
  rfl

/-! ### PUTS and PUTSP over a string that ends -/

theorem exec_puts_string {s : State} {ws : List Word} (h0 : ∀ w ∈ ws, w ≠ 0x0000#16)
    (h : s.holdsWords (s.reg 0#3) (ws ++ [0x0000#16])) (hn : ws.length < 65536) :
    exec .puts s = writeThenFlush (putsBytes ws) s.trapEntry :=
  (exec_puts_eq s).trans (putsLoop_string h0 (h.congr rfl rfl) hn)

theorem exec_putsp_wordwise_string {s : State} {ws : List Word} (hmode : s.params.putspMode = .wordwise)
    (h0 : ∀ w ∈ ws, w ≠ 0x0000#16) (h : s.holdsWords (s.reg 0#3) (ws ++ [0x0000#16])) (hn : ws.length < 65536) :
    exec .putsp s = writeThenFlush (wordwiseBytes ws) s.trapEntry :=
  (exec_putsp_wordwise_eq hmode).trans (putspWordwise_string h0 (h.congr rfl rfl) hn)

theorem exec_putsp_literal_string {s : State} {ws : List Word} {last : Word}
    (hmode : s.params.putspMode = .literal) (h0 : ∀ w ∈ ws, lowByte w ≠ 0x00#8 ∧ highByte w ≠ 0x00#8)
    (hl : lowByte last = 0x00#8 ∨ highByte last = 0x00#8) (h : s.holdsWords (s.reg 0#3) (ws ++ [last]))
    (hn : ws.length < 65536) : exec .putsp s = writeThenFlush (literalBytes ws last) s.trapEntry :=
  (exec_putsp_literal_eq hmode).trans (putspLiteral_string h0 hl (h.congr rfl rfl) hn)

theorem map_putsBytes (ws : List Word) :
    (putsBytes ws).map OutEvent.char = ws.map fun w => .char (lowByte w) := by
  rw [putsBytes, List.map_map]; rfl

theorem map_wordwiseBytes (ws : List Word) : (wordwiseBytes ws).map OutEvent.char =
    ws.flatMap fun w =>
      if highByte w = 0x00#8 then [.char (lowByte w)] else [.char (lowByte w), .char (highByte w)] := by
  rw [wordwiseBytes, List.map_flatMap]
  congr 1
  funext w
  split <;> rfl

theorem map_literalBytes (ws : List Word) (last : Word) : (literalBytes ws last).map OutEvent.char =
    (ws.flatMap fun w => [.char (lowByte w), .char (highByte w)]) ++
      if lowByte last = 0x00#8 then [] else [.char (lowByte last)] := by
  rw [literalBytes, List.map_append, List.map_flatMap]
  congr 1
  split <;> rfl

/-! ### The two readings of PUTSP on a packed string -/

theorem State.holdsWords.of_append {s : State} {p : Word} {ws vs : List Word} (h : s.holdsWords p (ws ++ vs)) :
    s.holdsWords p ws := by
  intro k hk
  have hword := h k (by rw [List.length_append]; omega)
  rwa [List.getElem_append_left hk] at hword

/-- Words with two bytes each are written alike in both readings. -/
theorem flatMap_two_bytes {ws : List Word} (h : ∀ w ∈ ws, highByte w ≠ 0x00#8) :
    wordwiseBytes ws = ws.flatMap fun w => [lowByte w, highByte w] := by
  rw [wordwiseBytes]
  exact List.flatMap_congr fun w hw => if_neg (h w hw)

/-- A packed string of WORDWISE, read by LITERAL: it ends at the last nonzero Word where that has a zero high byte, and
else at the zero Word. -/
theorem packed_literal {s : State} {p : Word} {ws : List Word} (hlo : ∀ w ∈ ws, lowByte w ≠ 0x00#8)
    (hhi : ∀ w ∈ ws.dropLast, highByte w ≠ 0x00#8) (h : s.holdsWords p (ws ++ [0x0000#16])) :
    ∃ vs last, (∀ w ∈ vs, lowByte w ≠ 0x00#8 ∧ highByte w ≠ 0x00#8) ∧
      (lowByte last = 0x00#8 ∨ highByte last = 0x00#8) ∧ s.holdsWords p (vs ++ [last]) ∧ vs.length ≤ ws.length ∧
      literalBytes vs last = wordwiseBytes ws := by
  rcases List.eq_nil_or_concat ws with rfl | ⟨vs, x, rfl⟩
  · exact ⟨[], 0x0000#16, by simp, .inl rfl, h, le_rfl, rfl⟩
  · rw [List.concat_eq_append] at hlo hhi h ⊢
    rw [List.dropLast_concat] at hhi
    have hvs : ∀ w ∈ vs, lowByte w ≠ 0x00#8 ∧ highByte w ≠ 0x00#8 := fun w hw =>
      ⟨hlo w (List.mem_append_left _ hw), hhi w hw⟩
    have hx : lowByte x ≠ 0x00#8 := hlo x (by simp)
    have hwords : wordwiseBytes (vs ++ [x]) =
        (vs.flatMap fun w => [lowByte w, highByte w]) ++ wordwiseBytes [x] := by
      rw [← flatMap_two_bytes hhi]; exact List.flatMap_append
    rw [hwords]
    by_cases hz : highByte x = 0x00#8
    · refine ⟨vs, x, hvs, .inr hz, h.of_append, by simp, ?_⟩
      simp [literalBytes, wordwiseBytes, hx, hz]
    · refine ⟨vs ++ [x], 0x0000#16, fun w hw => ?_, .inl rfl, h, le_rfl, ?_⟩
      · rcases List.mem_append.1 hw with hw | hw
        · exact hvs w hw
        · rw [List.mem_singleton.1 hw]; exact ⟨hx, hz⟩
      · have hzero : lowByte 0x0000#16 = 0x00#8 := rfl
        simp [literalBytes, wordwiseBytes, hz, hzero]

end Sys2Proof.Machine

open Sys2Proof Sys2Proof.Machine

/-- Settles O45: the byte is read after the trap entry, and nothing is output. -/
theorem getcReadsOneByte : Obligations.GetcReadsOneByte := by
  unfold Obligations.GetcReadsOneByte
  intro s c rest hi
  exact ⟨_, (exec_getc s).trans (serveGetc_byte (s := s.trapEntry) hi),
    ((ConsoleOnly.refl s.trapEntry).consumed rest).storeInput_entry c⟩

/-- Settles O48: the loop writes the string and a flush mark (`putsLoop_string`). -/
theorem putsWritesTheString : Obligations.PutsWritesTheString := by
  unfold Obligations.PutsWritesTheString
  intro s ws h0 h hn hc
  rw [exec_puts_string h0 h hn, ← map_putsBytes]
  exact writeThenFlush_trapEntry (putsBytes ws) hc

/-- Settles O52: the loop writes the string and a flush mark (`putspLiteral_string`). -/
theorem literalPutspStopsAtAZeroByte : Obligations.LiteralPutspStopsAtAZeroByte := by
  unfold Obligations.LiteralPutspStopsAtAZeroByte
  intro s ws last hmode h0 hl h hn hc
  obtain ⟨t, ht, hframe, h7, hpc, hout, hin⟩ := writeThenFlush_trapEntry (literalBytes ws last) hc
  rw [map_literalBytes, ← List.append_assoc] at hout
  exact ⟨t, (exec_putsp_literal_string hmode h0 hl h hn).trans ht, hframe, h7, hpc, hin, hout⟩

/-- Settles O53: the loop writes the string and a flush mark (`putspWordwise_string`). -/
theorem wordwisePutspStopsAtAZeroWord : Obligations.WordwisePutspStopsAtAZeroWord := by
  unfold Obligations.WordwisePutspStopsAtAZeroWord
  intro s ws hmode h0 h hn hc
  obtain ⟨t, ht, hframe, h7, hpc, hout, hin⟩ := writeThenFlush_trapEntry (wordwiseBytes ws) hc
  rw [map_wordwiseBytes] at hout
  exact ⟨t, (exec_putsp_wordwise_string hmode h0 h hn).trans ht, hframe, h7, hpc, hin, hout⟩

/-- Settles O54: the packed string is a string of either reading with the same bytes (`packed_literal`), and writing it
does not look at the mode. -/
theorem putspModesAgreeOnPackedStrings : Obligations.PutspModesAgreeOnPackedStrings := by
  unfold Obligations.PutspModesAgreeOnPackedStrings
  intro s ws hlo hhi h hn hc
  obtain ⟨vs, last, hvs, hlast, hholds, hlen, hbytes⟩ := packed_literal hlo hhi h
  have h0 : ∀ w ∈ ws, w ≠ 0x0000#16 := by
    rintro w hw rfl; exact hlo _ hw rfl
  have hlit := (exec_putsp_literal_string (s := { s with params := { s.params with putspMode := .literal } }) rfl hvs
    hlast hholds (hlen.trans_lt hn)).trans (writeThenFlush_ok hc)
  have hword := (exec_putsp_wordwise_string (s := { s with params := { s.params with putspMode := .wordwise } }) rfl h0
    h hn).trans (writeThenFlush_ok hc)
  rw [hbytes] at hlit
  refine ⟨_, _, hlit, hword, (s.written_params _ _).trans (s.written_params _ _).symm, ?_⟩
  rw [← map_wordwiseBytes]
  exact congrArg (· ++ [OutEvent.flushed]) (State.wroteAll_output _ (wordwiseBytes ws))

/-- Settles O55: the state after HALT is the trap entry's with a flush mark and RUNNING false (`exec_halt_ok`). -/
theorem haltStopsTheMachine : Obligations.HaltStopsTheMachine := by
  unfold Obligations.HaltStopsTheMachine
  intro s hf
  exact ⟨_, exec_halt_ok hf, rfl, s.trapEntry_reg_link, s.trapEntry_regsKept, rfl, rfl, fun _ _ => rfl, rfl, rfl, rfl,
    rfl⟩

/-- Settles O51: the prompt and its flush, then the byte, its echo and the last flush. -/
theorem inPromptsReadsAndEchoes : Obligations.InPromptsReadsAndEchoes := by
  unfold Obligations.InPromptsReadsAndEchoes
  intro s c rest hi hc
  have hprompt : exec .inp s = serveInRead s.trapEntry.prompted :=
    serveIn_prompted (s := s.trapEntry) (hc.takes _) (hc.nth_ok 0).2
  have hread := serveInRead_byte (s.trapEntry.prompted_input.trans hi)
    (s.trapEntry.prompted_writes_head.trans (hc.nth_ok _).1)
    (s.trapEntry.prompted_flushes_head.trans (hc.nth_ok 1).2)
  obtain ⟨hbyte, hlink, hregs, hcond, hpc, hmem, hcontrol, hconsole⟩ :=
    (((s.trapEntry.prompted_consoleOnly.consumed rest).wrote c).flushedOut).storeInput_entry c
  refine ⟨_, hprompt.trans hread, hbyte, hlink, hregs, hcond, hpc, hmem, hcontrol, ?_, ?_⟩ <;> rw [hconsole]
  · rfl
  · have hout := s.trapEntry.prompted_output
    simp [State.flushedOut, State.wrote, State.consumed, hout]

end

section
/-! The routines that hold their step (spec/43_trap.md R186, R194, R236) and those that a failing operation stops (R195). -/

namespace Sys2Proof.Machine

/-! ### A held routine goes on -/

theorem step_of_held {s : State} {h : Held} (hfault : s.fault = none) (hrun : s.running = true)
    (hheld : s.held = some h) : step s = resume h s := by
  simp only [step, hfault, hrun, hheld, ↓reduceIte]

theorem State.hold_again {s : State} {h : Held} (hheld : s.held = some h) : { s with held := some h } = s := by
  rw [← hheld]

/-- Without a byte and with the input open the wait goes on (R194). -/
theorem step_held_waits {s : State} (hfault : s.fault = none) (hrun : s.running = true)
    (hheld : s.held = some .getc ∨ s.held = some .inp) (hi : s.console.input = [])
    (hc : s.console.inputClosed = false) : step s = .next s := by
  rcases hheld with h | h <;> rw [step_of_held hfault hrun h]
  · exact (serveGetc_waits (s := { s with held := none }) hi hc).trans (congrArg _ (State.hold_again h))
  · exact (serveInRead_waits (s := { s with held := none }) hi hc).trans (congrArg _ (State.hold_again h))

/-- Once the input is closed the waiting read fails (R224). -/
theorem step_held_closed {s : State} (hfault : s.fault = none) (hrun : s.running = true)
    (hheld : s.held = some .getc ∨ s.held = some .inp) (hi : s.console.input = [])
    (hc : s.console.inputClosed = true) :
    step s = .next { s with held := none, fault := some (.deviceError (s.pc - 1#16) .readChar) } := by
  rcases hheld with h | h <;> rw [step_of_held hfault hrun h]
  · exact serveGetc_closed (s := { s with held := none }) hi hc
  · exact serveInRead_closed (s := { s with held := none }) hi hc

/-- The byte the host delivers is the next one read. -/
theorem State.deliver_input {s : State} (hi : s.console.input = []) (b : Byte) :
    (s.deliver b).console.input = b :: [] := by
  rw [State.deliver, hi, List.nil_append]

/-- Reading the delivered byte leaves the console as it was before the delivery. -/
theorem State.deliver_consumed {s : State} (hi : s.console.input = []) (b : Byte) :
    ((s.deliver b).consumed []).console = s.console :=
  hi ▸ rfl

/-! ### An endless PUTS (R186) -/

theorem Console.acceptsAll.wrote {s : State} (h : s.console.acceptsAll) (b : Byte) :
    (s.wrote b).console.acceptsAll := by
  obtain ⟨hw, hrest, hflushes⟩ := h
  exact ⟨fun x hx => hw x (List.mem_of_mem_tail hx), hrest, hflushes⟩

/-- Where no cell ends the string, the loop writes as many bytes as it may and then holds its step. -/
theorem putsLoop_unterminated (n : Nat) (p : Word) {s : State} (h0 : ∀ a, s.cell a ≠ 0x0000#16)
    (ht : ∀ a, s.params.triggers a = false) (hc : s.console.acceptsAll) :
    ∃ con, putsLoop n p s = .next { s with held := some (.puts (p + BitVec.ofNat 16 n)), console := con } ∧
      con.acceptsAll := by
  induction n generalizing p s with
  | zero => exact ⟨s.console, by rw [putsLoop, BitVec.add_zero], hc⟩
  | succ n ih =>
    obtain ⟨con, hloop, hcon⟩ := ih (p + 1#16) (s := s.wrote (lowByte (s.cell p))) h0 ht (hc.wrote _)
    rw [add_one_add_ofNat] at hloop
    exact ⟨con, (putsLoop_write (memRead_plain (ht p)) hc.writes_head (h0 p)).trans hloop, hcon⟩

/-- The machine is held in a PUTS at `p` that will find no zero Word. -/
structure State.EndlessPuts (p : Word) (s : State) : Prop where
  fault : s.fault = none
  running : s.running = true
  held : s.held = some (.puts p)
  nonzero : ∀ a, s.cell a ≠ 0x0000#16
  plain : ∀ a, s.params.triggers a = false
  accepts : s.console.acceptsAll

/-- The loop has read each of the 65536 addresses and is back where it began. -/
theorem putsLoop_endless (p : Word) {s : State} (hfault : s.fault = none) (hrun : s.running = true)
    (h0 : ∀ a, s.cell a ≠ 0x0000#16) (ht : ∀ a, s.params.triggers a = false) (hc : s.console.acceptsAll) :
    ∃ t, putsLoop 65536 p s = .next t ∧ t.EndlessPuts p := by
  obtain ⟨con, hloop, hcon⟩ := putsLoop_unterminated 65536 p h0 ht hc
  have hround : p + BitVec.ofNat 16 65536 = p := BitVec.add_zero p
  rw [hround] at hloop
  exact ⟨_, hloop, hfault, hrun, rfl, h0, ht, hcon⟩

theorem State.EndlessPuts.step {p : Word} {s : State} (h : s.EndlessPuts p) :
    ∃ t, step s = .next t ∧ t.EndlessPuts p := by
  rw [step_of_held h.fault h.running h.held]
  exact putsLoop_endless p (s := { s with held := none }) h.fault h.running h.nonzero h.plain h.accepts

theorem State.EndlessPuts.run {p : Word} {s : State} (h : s.EndlessPuts p) (k : Nat) :
    ∃ t, Sys2Proof.core.run k s = .next t ∧ t.EndlessPuts p := by
  induction k generalizing s with
  | zero => exact ⟨s, rfl, h⟩
  | succ k ih =>
    obtain ⟨u, hu, hend⟩ := h.step
    obtain ⟨t, ht, htend⟩ := ih hend
    exact ⟨t, (run_succ hu).trans ht, htend⟩

/-! ### Routines that a failing operation stops -/

theorem writeThenFlush_entry_badWrite {bs : List Byte} {n : Nat} {s : State} (hn : n < bs.length)
    (h : s.console.firstBadWrite n) : ∃ t, writeThenFlush bs s.trapEntry = .next t ∧
      RoutineFailed .writeChar ((bs.take n).map .char) s t := by
  obtain ⟨x, hx, hwrote⟩ := writeThenFlush_badWrite (s := s.trapEntry) hn h
  exact ⟨_, hx, .of_entry hwrote.consoleOnly hwrote.output _ rfl⟩

theorem writeThenFlush_entry_badFlush {bs : List Byte} {s : State} (h : s.console.takes bs.length)
    (hf : s.console.flushes.nth 0 = .fails) : ∃ t, writeThenFlush bs s.trapEntry = .next t ∧
      RoutineFailed .flush (bs.map .char) s t := by
  obtain ⟨x, hx, hwrote⟩ := writeThenFlush_badFlush (s := s.trapEntry) h hf
  exact ⟨_, hx, .of_flushFailed hwrote.consoleOnly hwrote.output⟩

theorem serveIn_prompt_fails {s : State} {n : Nat} (hn : n < s.params.inPrompt.length)
    (h : s.console.firstBadWrite n) :
    ∃ t, serveIn s = .next { t with fault := some (.deviceError (s.pc - 1#16) .writeChar) } ∧
      WroteBytes (s.params.inPrompt.take n) s t := by
  obtain ⟨t, ht, hwrote⟩ := writeBytes_fails hn h
  exact ⟨t, by rw [serveIn, ht]; rfl, hwrote⟩

/-- IN stopped in its prompt. -/
theorem exec_inp_prompt_fails {s : State} {n : Nat} (hn : n < s.params.inPrompt.length)
    (h : s.console.firstBadWrite n) : ∃ t, exec .inp s = .next t ∧
      RoutineFailed .writeChar ((s.params.inPrompt.take n).map .char) s t ∧
      t.console.input = s.console.input := by
  obtain ⟨x, hx, hwrote⟩ := serveIn_prompt_fails (s := s.trapEntry) hn h
  exact ⟨_, hx, .of_entry hwrote.consoleOnly hwrote.output _ rfl, hwrote.input⟩

/-- IN stopped at the flush of its prompt. -/
theorem exec_inp_prompt_flush_fails {s : State} (ht : s.console.takes s.params.inPrompt.length)
    (hf : s.console.flushes.nth 0 = .fails) : ∃ t, exec .inp s = .next t ∧
      RoutineFailed .flush (s.params.inPrompt.map .char) s t ∧ t.console.input = s.console.input := by
  have hwrote := s.trapEntry.wroteAll_wroteBytes s.params.inPrompt
  exact ⟨_, serveIn_prompt_flush_fails (s := s.trapEntry) ht hf, .of_flushFailed hwrote.consoleOnly hwrote.output,
    hwrote.input⟩

section
variable {s : State} (ht : s.console.takes s.params.inPrompt.length) (hf : s.console.flushes.nth 0 = .ok)
include ht hf

theorem exec_inp_prompted : exec .inp s = serveInRead s.trapEntry.prompted :=
  serveIn_prompted (s := s.trapEntry) ht hf

/-- IN stopped at its read. -/
theorem exec_inp_read_fails (hi : s.console.input = []) (hc : s.console.inputClosed = true) :
    ∃ t, exec .inp s = .next t ∧ RoutineFailed .readChar (s.params.inPrompt.map .char ++ [.flushed]) s t := by
  have hread := serveInRead_closed (s.trapEntry.prompted_input.trans hi) (s.trapEntry.prompted_closed.trans hc)
  exact ⟨_, (exec_inp_prompted ht hf).trans hread, .of_entry s.trapEntry.prompted_consoleOnly
    s.trapEntry.prompted_output _ (congrArg (· - 1#16) s.trapEntry.prompted_consoleOnly.pc)⟩

variable {c : Byte} {rest : List Byte} (hi : s.console.input = c :: rest)
include hi

/-- IN stopped at its echo. -/
theorem exec_inp_echo_fails (hw : s.console.writes.nth s.params.inPrompt.length = .fails) :
    ∃ t, exec .inp s = .next t ∧ RoutineFailed .writeChar (s.params.inPrompt.map .char ++ [.flushed]) s t ∧
      t.console.input = rest := by
  have hread := serveInRead_write_fails (s.trapEntry.prompted_input.trans hi)
    (s.trapEntry.prompted_writes_head.trans hw)
  exact ⟨_, (exec_inp_prompted ht hf).trans hread,
    .of_writeFailed (s.trapEntry.prompted_consoleOnly.consumed rest) s.trapEntry.prompted_output, rfl⟩

/-- IN stopped at its last flush. -/
theorem exec_inp_last_flush_fails (hw : s.console.writes.nth s.params.inPrompt.length = .ok)
    (hlast : s.console.flushes.nth 1 = .fails) : ∃ t, exec .inp s = .next t ∧
      RoutineFailed .flush (s.params.inPrompt.map .char ++ [.flushed, .char c]) s t ∧ t.console.input = rest := by
  have hread := serveInRead_flush_fails (s.trapEntry.prompted_input.trans hi)
    (s.trapEntry.prompted_writes_head.trans hw) (s.trapEntry.prompted_flushes_head.trans hlast)
  have hout : ((s.trapEntry.prompted.consumed rest).wrote c).console.output =
      s.console.output ++ (s.params.inPrompt.map .char ++ [.flushed, .char c]) := by
    have hprompt := s.trapEntry.prompted_output
    simp [State.wrote, State.consumed, hprompt]
  exact ⟨_, (exec_inp_prompted ht hf).trans hread,
    .of_flushFailed ((s.trapEntry.prompted_consoleOnly.consumed rest).wrote c) hout, rfl⟩

end

/-- PUTS and PUTSP stopped at the read of their first Word. -/
theorem exec_strings_read_fails {s u : State} {op : DevOp}
    (h : memRead (s.reg 0#3) (s.setReg 7#3 s.pc) = .failed op u) :
    exec .puts s = .next { u with fault := some (.deviceError (s.pc - 1#16) op) } ∧
      exec .putsp s = .next { u with fault := some (.deviceError (s.pc - 1#16) op) } ∧ u.reg 7#3 = s.pc := by
  obtain ⟨hputs, hliteral, hwordwise⟩ := stringLoops_read_failed (n := 65535) h
  refine ⟨(exec_puts_eq s).trans hputs, ?_, ?_⟩
  · cases hmode : s.params.putspMode with
    | literal => exact (exec_putsp_literal_eq hmode).trans hliteral
    | wordwise => exact (exec_putsp_wordwise_eq hmode).trans hwordwise
  · exact ((memRead_failed_effect h).reg 7#3).trans s.trapEntry_reg_link

end Sys2Proof.Machine

open Sys2Proof Sys2Proof.Machine

/-- Settles O46: the waits hold, a delivered byte or a closed input ends them as it would have at once, and a held
string loop writes the rest of its string. -/
theorem inputRoutinesHoldUntilAByte : Obligations.InputRoutinesHoldUntilAByte := by
  unfold Obligations.InputRoutinesHoldUntilAByte
  refine ⟨fun s hi hc => ?_, fun s hi hc haccept => ?_, fun s hfault hrun => ⟨fun hheld hi =>
    ⟨step_held_waits hfault hrun hheld hi, step_held_closed hfault hrun hheld hi⟩, fun b hheld hi => ?_,
    fun b hheld hi haccept => ?_, fun p ws hn haccept => ⟨fun hheld h h0 => ?_, fun hheld hmode h h0 => ?_,
    fun last hheld hmode h h0 hl => ?_⟩⟩⟩
  · exact (exec_getc s).trans (serveGetc_waits (s := s.trapEntry) hi hc)
  · have hexec := (exec_inp_prompted (haccept.takes _) (haccept.nth_ok 0).2).trans
      (serveInRead_waits (s.trapEntry.prompted_input.trans hi) (s.trapEntry.prompted_closed.trans hc))
    have hout := s.trapEntry.prompted_output
    rw [← List.append_assoc] at hout
    obtain ⟨con, hcon⟩ := s.trapEntry.prompted_consoleOnly
    rw [hcon] at hexec hout
    exact ⟨_, hexec, rfl, s.trapEntry_reg_link, s.trapEntry_regsKept, rfl, rfl, rfl, fun _ _ => rfl, hout⟩
  · have hstep := (step_of_held (s := s.deliver b) hfault hrun hheld).trans
      (serveGetc_byte (s := { s.deliver b with held := none }) (State.deliver_input hi b))
    have hx : ConsoleOnly { s with held := none } (State.consumed { s.deliver b with held := none } []) := ⟨_, rfl⟩
    obtain ⟨hbyte, hregs, hcond, hpc, hmem, ⟨hr, hf, hh, hp⟩, hconsole⟩ := hx.storeInput b
    exact ⟨_, hstep, hbyte, hregs, hcond, hh, hpc, hmem, hf.trans hfault, hr.trans hrun, hp,
      hconsole.trans (State.deliver_consumed hi b)⟩
  · have hstep := (step_of_held (s := s.deliver b) hfault hrun hheld).trans
      (serveInRead_byte (s := { s.deliver b with held := none }) (State.deliver_input hi b) haccept.writes_head
        haccept.flushes_head)
    have hx : ConsoleOnly { s with held := none }
        ((State.consumed { s.deliver b with held := none } []).wrote b).flushedOut := ⟨_, rfl⟩
    obtain ⟨hbyte, hregs, hcond, hpc, hmem, ⟨hr, hf, hh, hp⟩, hconsole⟩ := hx.storeInput b
    refine ⟨_, hstep, hbyte, hregs, hcond, hh, hpc, hmem, hf.trans hfault, hr.trans hrun, hp, ?_, ?_⟩ <;> rw [hconsole]
    · rfl
    · exact List.append_assoc _ _ _
  · have hstep : step s = writeThenFlush (putsBytes ws) { s with held := none } :=
      (step_of_held hfault hrun hheld).trans
        (putsLoop_string (n := stringFuel) (s := { s with held := none }) h0 (h.congr rfl rfl) hn)
    rw [hstep]
    exact writeThenFlush_finished (putsBytes ws) haccept
  · have hstep : step s = writeThenFlush (wordwiseBytes ws) { s with held := none } := by
      rw [step_of_held hfault hrun hheld, resume, putspFrom, hmode]
      exact putspWordwise_string (s := { s with held := none }) h0 (h.congr rfl rfl) hn
    rw [hstep]
    exact writeThenFlush_finished (wordwiseBytes ws) haccept
  · have hstep : step s = writeThenFlush (literalBytes ws last) { s with held := none } := by
      rw [step_of_held hfault hrun hheld, resume, putspFrom, hmode]
      exact putspLiteral_string (s := { s with held := none }) h0 hl (h.congr rfl rfl) hn
    rw [hstep]
    exact writeThenFlush_finished (literalBytes ws last) haccept

/-- Settles O50: the first step runs PUTS, whose loop comes back to its first pointer and holds, and so does every step
after it (`State.EndlessPuts`). -/
theorem unterminatedPutsNeverReturns : Obligations.UnterminatedPutsNeverReturns := by
  unfold Obligations.UnterminatedPutsNeverReturns
  intro s hs h0 hsr hdr hc hword k
  have hplain : ∀ a, s.params.triggers a = false := fun a => by simp [Params.triggers, hsr, hdr]
  have hputs : step s = exec .puts s.advance := by
    rw [step_of_plain hs (hplain s.pc), hword]; rfl
  obtain ⟨hfault, hrun, -⟩ := hs
  obtain ⟨u, hu, hend⟩ := putsLoop_endless (s.reg 0#3) (s := s.advance.trapEntry) hfault hrun h0 hplain hc
  obtain ⟨t, ht, hend⟩ := hend.run k
  refine ⟨t, (run_succ (hputs.trans ((exec_puts_eq s.advance).trans hu))).trans ht, hend.held, hend.fault, ?_⟩
  simp only [State.stepReturned, hend.fault, hend.held]

/-- Settles O56: for each routine, the state in which its failing operation is made and the error it raises there. -/
theorem routineFailuresAreDeviceErrors : Obligations.RoutineFailuresAreDeviceErrors := by
  unfold Obligations.RoutineFailuresAreDeviceErrors
  intro s
  have hentry : ConsoleOnly s.trapEntry s.trapEntry := ConsoleOnly.refl s.trapEntry
  have hnone : s.trapEntry.console.output = s.console.output ++ [] := (List.append_nil _).symm
  refine ⟨fun hi hc => serveGetc_closed (s := s.trapEntry) hi hc,
    fun hw => ⟨_, exec_out_write_fails hw, .of_writeFailed hentry hnone⟩,
    fun hw hf => ⟨_, exec_out_flush_fails hw hf, .of_flushFailed (hentry.wrote _) rfl⟩,
    fun hf => ⟨_, exec_halt_fails hf, .of_flushFailed hentry hnone⟩,
    fun n hn h => exec_inp_prompt_fails hn h,
    exec_inp_prompt_flush_fails,
    exec_inp_read_fails,
    fun c rest hi hbad hf => exec_inp_echo_fails hbad.1 hf hi hbad.2,
    fun c rest hi ht hf hlast => ?_,
    fun op u => exec_strings_read_fails,
    fun ws h0 h hn => ⟨?_, ?_, fun hmode => ?_⟩,
    fun ws last hmode h0 hl h hn => ?_⟩
  · exact exec_inp_last_flush_fails (fun k hk => ht k (by omega)) hf hi (ht _ (by omega)) hlast
  · rw [exec_puts_string h0 h hn]
    exact fun n => writeThenFlush_entry_badWrite
  · rw [exec_puts_string h0 h hn]
    exact writeThenFlush_entry_badFlush
  · rw [exec_putsp_wordwise_string hmode h0 h hn]
    exact ⟨fun n => writeThenFlush_entry_badWrite, writeThenFlush_entry_badFlush⟩
  · rw [exec_putsp_literal_string hmode h0 hl h hn]
    exact ⟨fun n => writeThenFlush_entry_badWrite, writeThenFlush_entry_badFlush⟩

end

section
/-! The loader (spec/70_reset_and_hazards.md sections 1 and 2): the bytes of an image are its Words, stored one after
another, and the three ways a load fails. -/

namespace Sys2Proof.Machine

/-! ### Images -/

theorem highByte_append_lowByte (w : Word) : highByte w ++ lowByte w = w := by
  apply BitVec.eq_of_getLsbD_eq
  intro k hk
  simp only [highByte, lowByte, BitVec.getLsbD_append, BitVec.getLsbD_extractLsb]
  interval_cases k <;> rfl

theorem imageBytes_cons (w : Word) (ws : List Word) :
    imageBytes (w :: ws) = highByte w :: lowByte w :: imageBytes ws := rfl

theorem length_imageBytes (ws : List Word) : (imageBytes ws).length = 2 * ws.length := by
  induction ws with
  | nil => rfl
  | cons w ws ih => rw [imageBytes_cons, List.length_cons, List.length_cons, List.length_cons, ih]; omega

theorem storeImage_cons (a : Nat) (w : Word) (ws : List Word) (m : Memory) :
    storeImage a (imageBytes (w :: ws)) m = storeImage (a + 1) (imageBytes ws) (m.write a w) := by
  rw [imageBytes_cons, storeImage, highByte_append_lowByte]

/-- No cell outside the image is written. -/
theorem storeImage_read_outside {a b : Nat} {ws : List Word} (m : Memory) (h : ∀ k, k < ws.length → b ≠ a + k) :
    (storeImage a (imageBytes ws) m).read b = m.read b := by
  induction ws generalizing a m with
  | nil => rfl
  | cons w ws ih =>
    have hfirst : b ≠ a := h 0 (by simp)
    rw [storeImage_cons, ih _ fun k hk => ?_, Memory.read_write_ne w hfirst]
    have hnext := h (k + 1) (by simpa using hk)
    omega

theorem storeImage_wf {a : Nat} {ws : List Word} {m : Memory} (hm : m.wf = true) (h : a + ws.length ≤ 65536) :
    (storeImage a (imageBytes ws) m).wf = true := by
  induction ws generalizing a m with
  | nil => exact hm
  | cons w ws ih =>
    rw [List.length_cons] at h
    have ha : a < Config.memWords := show a < 65536 by omega
    rw [storeImage_cons]
    exact ih (Memory.wfFrom_write hm (Nat.zero_le a) ha) (by omega)

/-- Each Word of the image stands in its cell: the Words after it are stored to other cells. -/
theorem storeImage_read_inside {a k : Nat} {ws : List Word} {m : Memory} (hm : m.wf = true)
    (h : a + ws.length ≤ 65536) (hk : k < ws.length) : (storeImage a (imageBytes ws) m).read (a + k) = ws[k] := by
  induction ws generalizing a k m with
  | nil => exact absurd hk (by simp)
  | cons w ws ih =>
    rw [List.length_cons] at h
    have ha : a < Config.memWords := show a < 65536 by omega
    rw [storeImage_cons]
    cases k with
    | zero =>
      rw [storeImage_read_outside _ fun k _ => by omega, Memory.read_write hm, if_pos (Nat.add_zero a)]
      rfl
    | succ k =>
      have hstored : (m.write a w).wf = true := Memory.wfFrom_write hm (Nat.zero_le a) ha
      have hrest := ih (a := a + 1) (k := k) hstored (by omega) (by simpa using hk)
      rw [List.getElem_cons_succ, ← hrest, Nat.add_assoc, Nat.add_comm 1 k]

/-! ### A load on a machine as created -/

theorem State.unloaded_mem {s : State} (h : s.unloaded = true) : s.mem = [] := by
  simp only [State.unloaded, Bool.and_eq_true, List.isEmpty_iff] at h
  exact h.2

/-- A machine that runs has been loaded. -/
theorem loadImage_of_running {s : State} (h : s.running = true) (image : List Byte) :
    loadImage image s = .refused .secondLoad := by
  simp [loadImage, State.unloaded, h]

theorem loadImage_of_unloaded {s : State} (h : s.unloaded = true) (image : List Byte) :
    loadImage image s = loadWords image s := by
  simp [loadImage, h]

/-- A whole number of Words is either stored or too long. -/
theorem loadWords_image (origin : Word) (ws : List Word) (s : State) :
    loadWords (imageBytes (origin :: ws)) s =
      if origin.toNat + ws.length > 65536 then .fault .pastEnd
      else .next { s with mem := storeImage origin.toNat (imageBytes ws) s.mem, running := true } := by
  have heven : ¬ (imageBytes ws).length % 2 = 1 := by rw [length_imageBytes]; omega
  have hhalf : (imageBytes ws).length / 2 = ws.length := by rw [length_imageBytes]; omega
  rw [imageBytes_cons, loadWords, if_neg heven, highByte_append_lowByte, hhalf]
  rfl

theorem loadWords_odd {image : List Byte} (h : image.length % 2 = 1) (s : State) :
    loadWords image s = .fault .truncated := by
  match image with
  | [] => cases h
  | [_] => rfl
  | hi :: lo :: rest =>
    have hrest : rest.length % 2 = 1 := by
      rw [List.length_cons, List.length_cons] at h; omega
    rw [loadWords, if_pos hrest]

/-- The address of the image's `k`th Word, which does not wrap. -/
theorem toNat_add_ofNat {origin : Word} {k : Nat} (h : origin.toNat + k < 65536) :
    (origin + BitVec.ofNat 16 k).toNat = origin.toNat + k := by
  rw [BitVec.toNat_add, BitVec.toNat_ofNat]
  omega

end Sys2Proof.Machine

open Sys2Proof Sys2Proof.Machine

/-- Settles O57: the image stands in its cells and in no other (`storeImage_read_inside`, `storeImage_read_outside`), and
a machine that runs takes no further load. -/
theorem loaderStoresTheImage : Obligations.LoaderStoresTheImage := by
  unfold Obligations.LoaderStoresTheImage
  intro s origin ws hs hfits
  have hmem : s.mem = [] := State.unloaded_mem hs
  have hwf : s.mem.wf = true := by rw [hmem]; rfl
  have hload := (loadImage_of_unloaded hs _).trans (loadWords_image origin ws s)
  rw [if_neg (Nat.not_lt.2 hfits)] at hload
  refine ⟨_, hload, fun k hk => ?_, fun a ha => ?_, storeImage_wf hwf hfits, rfl, loadImage_of_running rfl⟩
  · rw [State.cell, toNat_add_ofNat (by omega)]
    exact storeImage_read_inside hwf hfits hk
  · have houtside : ∀ k, k < ws.length → a.toNat ≠ origin.toNat + k := fun k hk heq =>
      ha k hk (BitVec.eq_of_toNat_eq (heq.trans (toNat_add_ofNat (by omega)).symm))
    exact (storeImage_read_outside s.mem houtside).trans (by rw [hmem]; rfl)

/-- Settles O58: the checks of the loader, in its order. -/
theorem loaderRejectsBadImages : Obligations.LoaderRejectsBadImages := by
  unfold Obligations.LoaderRejectsBadImages
  intro s hs
  refine ⟨loadImage_of_unloaded hs [], fun image hodd => ?_, fun origin ws hlong => ?_⟩
  · rw [loadImage_of_unloaded hs, loadWords_odd hodd]
  · rw [loadImage_of_unloaded hs, loadWords_image, if_pos hlong]

end

section
/-! Runs and how they end (spec/70_reset_and_hazards.md R258): a step of a machine without an error always answers, and
only the step that executes HALT stops a running machine. -/

namespace Sys2Proof.Machine

/-! ### A step without an error answers -/

theorem resume_answers (k : Held) (s : State) : ∃ t, resume k s = .next t := by
  cases k with
  | getc => exact (serveGetc_leads _).imp fun _ h => h.1
  | inp => exact (serveInRead_leads _).imp fun _ h => h.1
  | puts p => exact (putsLoop_leads _ p _).imp fun _ h => h.1
  | putsp p => exact (putspFrom_leads p _).imp fun _ h => h.1

theorem step_answers {s : State} (h : s.fault = none) : ∃ t, step s = .next t := by
  cases hrun : s.running with
  | false => exact ⟨s, step_of_not_running h hrun⟩
  | true =>
    cases hheld : s.held with
    | some k => rw [step_of_held h hrun hheld]; exact resume_answers k s
    | none =>
      rw [State.fetches.step_eq ⟨h, hrun, hheld⟩]
      exact memRead_andThen_answers fun w u => exec_answers (decode w) u.advance

/-! ### Who stops the machine -/

theorem loadResult_running {dr : RegIdx} {a : Word} {s t : State} (h : loadResult dr a s = .next t) :
    t.running = s.running := by
  obtain ⟨v, u, hread, he⟩ | ⟨op, u, hread, rfl⟩ := memRead_andThen_cases h
  · cases he; exact (memRead_ok_effect hread).running
  · exact (memRead_failed_effect hread).running

/-- No instruction but a TRAP touches RUNNING. -/
theorem exec_running_of_not_trap {i : Instr} {s t : State} (hi : trapVector i = none) (h : exec i s = .next t) :
    t.running = s.running := by
  cases i with
  | addR | addI | andR | andI | not | lea | st | str | jsr | jsrr | jmp | ret | rti | reserved => cases h; rfl
  | br => cases h; split <;> rfl
  | ld | ldr => exact loadResult_running h
  | ldi =>
    obtain ⟨v, u, hread, he⟩ | ⟨op, u, hread, rfl⟩ := memRead_andThen_cases h
    · exact (loadResult_running he).trans (memRead_ok_effect hread).running
    · exact (memRead_failed_effect hread).running
  | sti =>
    obtain ⟨ptr, u, hread, rfl⟩ | ⟨op, u, hread, rfl⟩ := execSti_cases h
    · exact (memRead_ok_effect hread).running
    · exact (memRead_failed_effect hread).running
  | trap | getc | out | puts | inp | putsp | halt => cases hi

/-- The vector of an instruction that stops the machine is HALT's. -/
theorem trapVector_of_stops {i : Instr} {s t : State} (h : exec i s = .next t) (hs : s.running = true)
    (ht : t.running = false) : trapVector i = some 0x25#8 := by
  cases hv : trapVector i with
  | none => rw [exec_running_of_not_trap hv h, hs] at ht; cases ht
  | some v =>
    rw [exec_of_trapVector hv] at h
    obtain ⟨-, hroutine⟩ | ⟨-, hraise⟩ := dispatchTrap_cases v s.trapEntry
    · rcases (hroutine.inv h).running with hr | ⟨hstops, -⟩
      · rw [hr] at ht; exact absurd (hs.symm.trans ht) nofun
      · rw [beq_iff_eq.1 hstops]
    · cases hraise.symm.trans h; exact absurd (hs.symm.trans ht) nofun

/-- HALT stops the machine only where its flush succeeds, so without an error. -/
theorem exec_halt_fault {s t : State} (h : exec .halt s = .next t) (hs : s.running = true) (ht : t.running = false) :
    t.fault = s.fault := by
  cases hf : s.console.flushes.head with
  | ok => cases h.symm.trans (exec_halt_ok hf); rfl
  | fails => cases h.symm.trans (exec_halt_fails hf); exact absurd (hs.symm.trans ht) nofun

/-- The instruction decoded from a word is never TRAP x25, so the one that stops the machine is HALT. -/
theorem decode_eq_halt {w : Word} (h : trapVector (decode w) = some 0x25#8) : decode w = .halt := by
  have hwf := decode_wf w
  generalize decode w = i at h hwf
  cases i <;> cases h
  case trap => cases hwf
  case halt => rfl

theorem step_stops {s t : State} (h : step s = .next t) (hs : s.running = true) (ht : t.running = false) :
    s.held = none ∧ t.fault = none ∧ ∃ w u, fetch s = .ok w u ∧ decode w = .halt := by
  obtain ⟨hfault, ⟨hstopped, -⟩ | ⟨k, -, -, hres⟩ | ⟨w, u, -, hheld, hread, hexec⟩ | ⟨op, u, -, -, hread, rfl⟩⟩ :=
    step_cases h
  · rw [hs] at hstopped; cases hstopped
  · obtain ⟨inp, heff⟩ := resume_effect hres
    rcases heff.running with hr | ⟨hstops, -⟩
    · exact absurd (hs.symm.trans (hr.symm.trans ht)) nofun
    · cases hstops
  · have hfetch := memRead_ok_effect hread
    have hu : u.advance.running = true := hfetch.running.trans hs
    have hhalt := decode_eq_halt (trapVector_of_stops hexec hu ht)
    rw [hhalt] at hexec
    exact ⟨hheld, (exec_halt_fault hexec hu ht).trans (hfetch.fault.trans hfault), w, u, hread, hhalt⟩
  · exact absurd (hs.symm.trans ((memRead_failed_effect hread).running.symm.trans ht)) nofun

/-! ### Runs among the host's moves -/

theorem State.hostMoves_consoleOnly (s : State) (ms : List HostMove) : ConsoleOnly s (s.hostMoves ms) :=
  ⟨_, s.hostMoves_console ms⟩

/-- A machine that does not run at the start of a run never runs in it. -/
theorem runIn_not_running {env : Env} {k : Nat} {s t : State} (hs : s.running = false)
    (h : runIn env k s = .next t) : t.running = false := by
  induction k generalizing t with
  | zero => cases h; exact hs
  | succ k ih =>
    obtain ⟨u, hu, hstep⟩ := runIn_prev h
    by_contra ht
    have hrun := step_running hstep (by simpa using ht)
    rw [State.hostMoves_running, ih hu] at hrun
    cases hrun

/-- Once RUNNING is false, without an error, only the console moves. -/
theorem runIn_after_halt {env : Env} {k : Nat} {s t : State} (h : runIn env k s = .next t)
    (hfault : t.fault = none) (hrun : t.running = false) (j : Nat) :
    ∃ t', runIn env (k + j) s = .next t' ∧ ConsoleOnly t t' := by
  induction j with
  | zero => exact ⟨t, h, ConsoleOnly.refl t⟩
  | succ j ih =>
    obtain ⟨u, hu, con, rfl⟩ := ih
    have hstep := step_of_not_running (s := State.hostMoves { t with console := con } (env (k + j)))
      (by rw [State.hostMoves_fault]; exact hfault) (by rw [State.hostMoves_running]; exact hrun)
    obtain ⟨con', hcon'⟩ := State.hostMoves_consoleOnly { t with console := con } (env (k + j))
    exact ⟨_, (runIn_succ hu).trans hstep, con', hcon'⟩

/-- A run that is still going on at `k`: a state that runs and has no error. -/
def GoesOn (env : Env) (s : State) (k : Nat) : Prop :=
  ∃ t, runIn env k s = .next t ∧ t.running = true ∧ t.fault = none

/-- A run that goes on at `k` answers at `k + 1`, and goes on, halts or faults there. -/
theorem GoesOn.succ {env : Env} {s : State} {k : Nat} (h : GoesOn env s k) :
    GoesOn env s (k + 1) ∨ (∃ t, s.endsAs env (.halted t)) ∨ ∃ e t, s.endsAs env (.faulted e t) := by
  obtain ⟨u, hu, hrun, hfault⟩ := h
  obtain ⟨t, ht⟩ := step_answers (s := u.hostMoves (env k)) (by rw [State.hostMoves_fault]; exact hfault)
  have hnext := (runIn_succ hu).trans ht
  cases hr : t.running with
  | false => exact .inr (.inl ⟨t, k, u, hu, hrun, hnext, hr⟩)
  | true =>
    cases hf : t.fault with
    | none => exact .inl ⟨t, hnext, hr, hf⟩
    | some e => exact .inr (.inr ⟨e, t, k, u, hu, hfault, hnext, hf⟩)

theorem endsAs_of_running {env : Env} {s : State} (hrun : s.running = true) (hfault : s.fault = none) :
    (∃ t, s.endsAs env (.halted t)) ∨ (∃ e t, s.endsAs env (.faulted e t)) ∨ s.endsAs env .hung := by
  by_cases hends : (∃ t, s.endsAs env (.halted t)) ∨ ∃ e t, s.endsAs env (.faulted e t)
  · rcases hends with h | h
    · exact .inl h
    · exact .inr (.inl h)
  · refine .inr (.inr fun k => ?_)
    have hgoes : GoesOn env s k := by
      induction k with
      | zero => exact ⟨s, rfl, hrun, hfault⟩
      | succ k ih => exact ih.succ.resolve_right hends
    exact hgoes

/-- The step that halts a run, and what comes after it. -/
theorem endsAs_halted_cases {env : Env} {s t : State} (h : s.endsAs env (.halted t)) :
    t.fault = none ∧ ∃ k u w v, runIn env k s = .next u ∧ u.running = true ∧ u.held = none ∧
      fetch (u.hostMoves (env k)) = .ok w v ∧ decode w = .halt ∧
      ∀ j, k < j → ∃ t', runIn env j s = .next t' ∧ t' = { t with console := t'.console } := by
  obtain ⟨k, u, hu, hrun, hnext, hstop⟩ := h
  have hstep := (runIn_succ hu).symm.trans hnext
  obtain ⟨hheld, hfault, w, v, hfetch, hhalt⟩ := step_stops hstep (by rw [State.hostMoves_running]; exact hrun) hstop
  rw [State.hostMoves_held] at hheld
  refine ⟨hfault, k, u, w, v, hu, hrun, hheld, hfetch, hhalt, fun j hj => ?_⟩
  obtain ⟨t', ht', con, rfl⟩ := runIn_after_halt hnext hfault hstop (j - (k + 1))
  rw [Nat.add_sub_cancel' hj] at ht'
  exact ⟨_, ht', rfl⟩

/-- A run that halts never has an error: none before the halt, since an error has no next step, and none after it. -/
theorem not_faulted_of_halted {env : Env} {s t : State} (h : s.endsAs env (.halted t)) (e : ExecError) (x : State) :
    ¬ s.endsAs env (.faulted e x) := by
  rintro ⟨n, y, -, -, hx, hxe⟩
  obtain ⟨hfault, k, -, -, -, -, -, -, -, -, hafter⟩ := endsAs_halted_cases h
  rcases Nat.lt_or_ge k (n + 1) with hlt | hge
  · obtain ⟨t', ht', hsame⟩ := hafter (n + 1) hlt
    cases hx.symm.trans ht'
    rw [hsame] at hxe
    exact absurd (hfault.symm.trans hxe) nofun
  · obtain ⟨t', ht', -⟩ := hafter (k + 1) (Nat.lt_succ_self k)
    obtain ⟨z, hz⟩ := runIn_earlier (j := n + 2) (by omega) ht'
    have hstop := step_of_fault (s := x.hostMoves (env (n + 1))) (by rw [State.hostMoves_fault]; exact hxe)
    cases hz.symm.trans ((runIn_succ hx).trans hstop)

theorem not_hung_of_halted {env : Env} {s t : State} (h : s.endsAs env (.halted t)) : ¬ s.endsAs env .hung := by
  intro hhung
  obtain ⟨k, u, -, -, hnext, hstop⟩ := h
  obtain ⟨x, hx, hrun, -⟩ := hhung (k + 1)
  cases hx.symm.trans hnext
  exact absurd (hrun.symm.trans hstop) nofun

theorem not_hung_of_faulted {env : Env} {s t : State} {e : ExecError} (h : s.endsAs env (.faulted e t)) :
    ¬ s.endsAs env .hung := by
  intro hhung
  obtain ⟨k, u, -, -, hnext, hfault⟩ := h
  obtain ⟨x, hx, -, hnone⟩ := hhung (k + 1)
  cases hx.symm.trans hnext
  exact absurd (hnone.symm.trans hfault) nofun

end Sys2Proof.Machine

open Sys2Proof Sys2Proof.Machine

/-- Settles O59: a run goes on until a step halts or faults it (`GoesOn.succ`), no two of the three ends meet, and the
step that halts executes HALT (`step_stops`). -/
theorem runsEndInOneOfThreeWays : Obligations.RunsEndInOneOfThreeWays := by
  unfold Obligations.RunsEndInOneOfThreeWays
  refine fun env s => ⟨fun hrun hfault => ⟨endsAs_of_running hrun hfault, ?_, ?_⟩, ?_, fun t => endsAs_halted_cases⟩
  · rintro ⟨t, ht⟩
    exact ⟨not_faulted_of_halted ht, not_hung_of_halted ht⟩
  · rintro ⟨e, t, ht⟩
    exact not_hung_of_faulted ht
  · rintro hrun t ⟨k, u, hu, hurun, -⟩
    rw [runIn_not_running hrun hu] at hurun
    cases hurun

end
